-- ==== Sys2Proof/Word.lean ====
section
/-! DEFINITION. The word types of the machine (spec 10_state.md R20). -/

namespace Sys2Proof

/-- One byte of memory (20_memory.md R50). -/
abbrev Byte := BitVec 8

/-- A 64-bit quantity: an MMX register, a general register, a linear or physical address (R20, R50). -/
abbrev Word64 := BitVec 64

/-- A vector register held at the greatest width MAXVL may have, 512 bits (00_scope.md R6, 10_state.md R23). -/
abbrev Vec := BitVec 512

end Sys2Proof
end

