-- ==== Sys2Proof/Config.lean ====
section
/-! DEFINITION. The implementation parameters of 00_scope.md R6 as plain data, and the free values: what the spec lets
a model draw (60_exceptions.md R187, 20_memory.md R57, 93_implementation_defined.md U4, U5, U6, U13). The parameters
ride in State as its field `cfg`, which no step writes, so that a statement over every state is a statement over every
value of them (log 1). -/

namespace Sys2Proof

/-- The operating mode (R6, D7): `mode64` is 64-bit mode, `mode32` a 32-bit code segment, `mode16` a 16-bit code
segment, real-address mode and virtual-8086 mode among them. -/
inductive Mode where
  | mode64
  | mode32
  | mode16
deriving DecidableEq, Repr

/-- A vector length VL, and the values MAXVL may take (R6). -/
inductive VecLen where
  | v128
  | v256
  | v512
deriving DecidableEq, Repr

/-- The length in bits. -/
def VecLen.bits : VecLen → Nat
  | .v128 => 128
  | .v256 => 256
  | .v512 => 512

/-- The length in bytes. -/
def VecLen.bytes : VecLen → Nat
  | .v128 => 16
  | .v256 => 32
  | .v512 => 64

/-- The element size ES of an EVEX form: 32 for VPANDD, 64 for VPANDQ (43_vpandd_vpandq_evex.md R166). -/
inductive ElemSize where
  | e32
  | e64
deriving DecidableEq, Repr

/-- The element size in bits. -/
def ElemSize.bits : ElemSize → Nat
  | .e32 => 32
  | .e64 => 64

/-- The element size in bytes. -/
def ElemSize.bytes : ElemSize → Nat
  | .e32 => 4
  | .e64 => 8

/-- KL = VL / ES, the number of elements (R166, "(KL, VL)"). -/
def VecLen.elems (vl : VecLen) (es : ElemSize) : Nat := vl.bits / es.bits

/-- The CPUID feature flags `feat` (R6; 10_state.md R31). -/
structure Features where
  mmx      : Bool
  sse2     : Bool
  avx      : Bool
  avx2     : Bool
  avx512f  : Bool
  avx512vl : Bool
  avx10_1  : Bool
deriving DecidableEq, Repr

/-- AVX10_MAXVL (R6). -/
inductive Avx10Len where
  | l256
  | l512
deriving DecidableEq, Repr

/-- The greatest AVX10 vector length in bits. -/
def Avx10Len.bits : Avx10Len → Nat
  | .l256 => 256
  | .l512 => 512

/-- KW, the width of an opmask register (R6). -/
inductive OpmaskWidth where
  | w16
  | w64
deriving DecidableEq, Repr

/-- The width in bits. -/
def OpmaskWidth.bits : OpmaskWidth → Nat
  | .w16 => 16
  | .w64 => 64

/-- VA_BITS, the implemented linear-address bits in Mode64 (R6). -/
inductive VaBits where
  | va48
  | va57
deriving DecidableEq, Repr

/-- The number of bits. -/
def VaBits.bits : VaBits → Nat
  | .va48 => 48
  | .va57 => 57

/-- What `Translate` says of a range of linear addresses at one privilege (20_memory.md R57): the physical address its
first byte goes to, or a page fault; of the error code R57 leaves open everything but bits 0, 1, 2 and 4, and `other`
gives the rest (of 32 bits; that width and the physical address's 64 are PRESUMED, log 34). -/
inductive XlatTarget where
  | mapped (phys : Word64)
  | denied (present : Bool) (other : BitVec 32)
deriving DecidableEq, Repr

/-- One range of `Translate`: linear addresses `first` to `last`, with what a supervisor access (CPL 0 to 2) and a
user access (CPL 3) find there. -/
structure XlatRange where
  first : Word64
  last  : Word64
  super : XlatTarget
  user  : XlatTarget
deriving DecidableEq, Repr

/-- A segment register's name (10_state.md R29). -/
inductive SegName where
  | cs
  | ds
  | es
  | fs
  | gs
  | ss
deriving DecidableEq, Repr

/-- What `SegCheck` says of offsets `first` to `last` of a segment (20_memory.md R56): pass or fail. Offsets are
natural numbers, so that one past the top of the address size can be named. -/
structure SegRange where
  seg    : SegName
  first  : Nat
  last   : Nat
  passes : Bool
deriving DecidableEq, Repr

/-- A range of physical addresses, both ends inside. -/
structure PhysRange where
  first : Word64
  last  : Word64
deriving DecidableEq, Repr

/-- The implementation parameters of R6. `xlat` is `Translate` while paging is on, the first range that holds the
address counting and an address in none of them not present (log 5); `devices` is the memory that is not ordinary
(20_memory.md R63, log 12); `segCheck` is `SegCheck`, the first range that holds the offset counting and an offset in
none of them decided by the hidden part of the segment register (R56, log 6); `signature` is what EDX holds after reset
(10_state.md R35). -/
structure Config where
  mode      : Mode
  feat      : Features
  maxvl     : VecLen
  avx10Max  : Avx10Len
  kw        : OpmaskWidth
  vaBits    : VaBits
  signature : BitVec 32
  xlat      : List XlatRange
  devices   : List PhysRange
  segCheck  : List SegRange
deriving DecidableEq, Repr

/-- The parameters `State.reset` stands with (DESIGN CHOICE, log 2): every feature, 512-bit vectors, 64-bit opmasks,
48-bit linear addresses, no translation, no device, and a segment check that is the hidden part's alone. The mode right
after reset is the 16-bit one (log 3). -/
def Config.atReset : Config where
  mode      := .mode16
  feat      := ⟨true, true, true, true, true, true, true⟩
  maxvl     := .v512
  avx10Max  := .l512
  kw        := .w64
  vaBits    := .va48
  signature := 0#32
  xlat      := []
  devices   := []
  segCheck  := []

/-- Free value (U4 a): form 1 with a pending x87 exception and a faulting operand reports #MF rather than the
operand's fault (60_exceptions.md R187, D13, log 9). -/
opaque Config.freeMfFirst : Nat → Bool

/-- Free value (U4 b): form 2 with an operand both misaligned and unmapped reports #GP(0) rather than #PF (R187, D13,
log 9). -/
opaque Config.freeAlignFirst : Nat → Bool

/-- Free value (U6): in Mode64 a non-canonical address under an ignored segment override raises #SS(0) rather than
#GP(0) (30_encoding.md R92, log 9). -/
opaque Config.freeOverrideSs : Nat → Bool

/-- Free value (U5): which of the faulting bytes a #PF reports (20_memory.md R57, log 9). -/
opaque Config.freePageByte : Nat → Nat

/-- Free value (U13): XCR0 after INIT, but for its bit 0, which is always 1 (10_state.md R30, R35, log 25). -/
opaque Config.freeXcr0 : Nat → Word64

end Sys2Proof
end

