-- ==== Sys2Proof/Syntax.lean ====
section
/-! DEFINITION. The instructions as syntax: one constructor for each of the twelve rows of opcode_table.json
(30_encoding.md R111), carrying the fields its bytes hold under the names of 30_encoding.md. Fields the encoding stores
inverted stand here the right way round (R93, R94, R97). -/

namespace Sys2Proof

/-- The optional prefixes that may precede every form: a segment override and the address-size prefix 67
(R82). The mandatory 66 of form 2 belongs to its constructor. -/
structure Pfx where
  seg : Option SegName
  a67 : Bool
deriving DecidableEq, Repr

/-- A REX prefix (R83). -/
structure Rex where
  w : Bool
  r : Bool
  x : Bool
  b : Bool
deriving DecidableEq, Repr

/-- The displacement of 32- and 64-bit addressing: none (mod 00), disp8 (mod 01), disp32 (mod 10) (R87, R89). -/
inductive Disp where
  | none
  | d8 (v : BitVec 8)
  | d32 (v : BitVec 32)
deriving DecidableEq, Repr

/-- The displacement of 16-bit addressing: none (mod 00), disp8 (mod 01), disp16 (mod 10) (R90). -/
inductive Disp16 where
  | none
  | d8 (v : BitVec 8)
  | d16 (v : BitVec 16)
deriving DecidableEq, Repr

/-- A memory operand as ModRM, SIB and displacement spell it (R87 to R90). -/
inductive Mem where
  /-- base register `rm` and displacement (R87, R89) -/
  | base (rm : BitVec 3) (d : Disp)
  /-- mod 00, rm 101: disp32 alone, RIP-relative in Mode64 (R87, R89) -/
  | disp (v : BitVec 32)
  /-- a SIB byte with a base register (R88) -/
  | sib (ss : BitVec 2) (index base : BitVec 3) (d : Disp)
  /-- a SIB byte with mod 00 and base 101: no base register, disp32 (R88) -/
  | sibNoBase (ss : BitVec 2) (index : BitVec 3) (v : BitVec 32)
  /-- 16-bit addressing, a row of the table of R90 -/
  | base16 (rm : BitVec 3) (d : Disp16)
  /-- 16-bit addressing, mod 00 and rm 110: disp16 alone (R90) -/
  | disp16 (v : BitVec 16)
deriving DecidableEq, Repr

/-- The ModRM:r/m operand: a register (mod 11) or memory (R84, R86). -/
inductive Rm where
  | reg (rm : BitVec 3)
  | mem (m : Mem)
deriving DecidableEq, Repr

/-- What a legacy encoding (forms 1 and 2) carries (R80, R85, R86). -/
structure LegacyOp where
  pfx : Pfx
  rex : Option Rex
  reg : BitVec 3
  rm  : Rm
deriving DecidableEq, Repr

/-- What a two-byte VEX encoding carries beside L and pp (R93). -/
structure Vex2Op where
  pfx  : Pfx
  r    : Bool
  vvvv : BitVec 4
  reg  : BitVec 3
  rm   : Rm
deriving DecidableEq, Repr

/-- What a three-byte VEX encoding carries beside L, pp and the map (R94). -/
structure Vex3Op where
  pfx  : Pfx
  r    : Bool
  x    : Bool
  b    : Bool
  w    : Bool
  vvvv : BitVec 4
  reg  : BitVec 3
  rm   : Rm
deriving DecidableEq, Repr

/-- What an EVEX encoding carries beside W, L'L, pp and the map (R97); `r'` and `v'` are R' and V', `bc` the bit the
document calls EVEX.b. -/
structure EvexOp where
  pfx  : Pfx
  r    : Bool
  x    : Bool
  b    : Bool
  r'   : Bool
  vvvv : BitVec 4
  v'   : Bool
  aaa  : BitVec 3
  z    : Bool
  bc   : Bool
  reg  : BitVec 3
  rm   : Rm
deriving DecidableEq, Repr

/-- The instructions: the rows of opcode_table.json in its order (00_scope.md R2). -/
inductive Instr where
  /-- form 1, `NP 0F DB /r`, PAND mm, mm/m64 (R130) -/
  | pandMm (o : LegacyOp)
  /-- form 2, `66 0F DB /r`, PAND xmm1, xmm2/m128 (R140) -/
  | pandXmm (o : LegacyOp)
  /-- form 3, two-byte VEX, VPAND xmm1, xmm2, xmm3/m128 (R150) -/
  | vpandXmmVex2 (o : Vex2Op)
  /-- form 3, three-byte VEX (R150) -/
  | vpandXmmVex3 (o : Vex3Op)
  /-- form 4, two-byte VEX, VPAND ymm1, ymm2, ymm3/m256 (R151) -/
  | vpandYmmVex2 (o : Vex2Op)
  /-- form 4, three-byte VEX (R151) -/
  | vpandYmmVex3 (o : Vex3Op)
  /-- form 5, VPANDD xmm1 {k1}{z}, xmm2, xmm3/m128/m32bcst (R160) -/
  | vpanddXmm (o : EvexOp)
  /-- form 6, VPANDD ymm1 {k1}{z}, ymm2, ymm3/m256/m32bcst (R161) -/
  | vpanddYmm (o : EvexOp)
  /-- form 7, VPANDD zmm1 {k1}{z}, zmm2, zmm3/m512/m32bcst (R162) -/
  | vpanddZmm (o : EvexOp)
  /-- form 8, VPANDQ xmm1 {k1}{z}, xmm2, xmm3/m128/m64bcst (R163) -/
  | vpandqXmm (o : EvexOp)
  /-- form 9, VPANDQ ymm1 {k1}{z}, ymm2, ymm3/m256/m64bcst (R164) -/
  | vpandqYmm (o : EvexOp)
  /-- form 10, VPANDQ zmm1 {k1}{z}, zmm2, zmm3/m512/m64bcst (R165) -/
  | vpandqZmm (o : EvexOp)
deriving DecidableEq, Repr

end Sys2Proof
end

