-- ==== Sys2Proof/WellFormed.lean ====
section
/-! DEFINITION. Which instructions the bytes of a mode can spell: an instruction is well formed in a mode when its
encoding decodes to it there (30_encoding.md R83, R87 to R90, R95, R98, R103). -/

namespace Sys2Proof

/-- The address sizes (R82). -/
inductive AddrSize where
  | a16
  | a32
  | a64
deriving DecidableEq, Repr

/-- The address size of a memory operand: the mode's default, switched by the prefix 67 (R82, R103). -/
def addrSize : Mode → Bool → AddrSize
  | .mode64, false => .a64
  | .mode64, true  => .a32
  | .mode32, false => .a32
  | .mode32, true  => .a16
  | .mode16, false => .a16
  | .mode16, true  => .a32

/-- A displacement-less base of number 101 is spelled disp32 alone (R87, R88). -/
def Disp.fitsBase (d : Disp) (base : BitVec 3) : Bool :=
  d != .none || base != 5#3

/-- The memory operand is one the address size can spell: 16-bit rows only at 16 bits, SIB and the others only at 32
and 64; rm 100 always means SIB and a base 101 with no displacement means disp32 (R87, R88, R90). -/
def Mem.wellFormed (sz : AddrSize) : Mem → Bool
  | .base rm d       => sz != .a16 && rm != 4#3 && d.fitsBase rm
  | .disp _          => sz != .a16
  | .sib _ _ b d      => sz != .a16 && d.fitsBase b
  | .sibNoBase _ _ _ => sz != .a16
  | .base16 rm d     => sz == .a16 && (d != .none || rm != 6#3)
  | .disp16 _        => sz == .a16

/-- A register operand is always spellable. -/
def Rm.wellFormed (sz : AddrSize) : Rm → Bool
  | .reg _ => true
  | .mem m => m.wellFormed sz

/-- Is the operand memory (mod other than 11)? -/
def Rm.isMem : Rm → Bool
  | .reg _ => false
  | .mem _ => true

/-- Forms 1 and 2: a REX prefix exists in Mode64 only (R83). -/
def LegacyOp.wellFormed (m : Mode) (o : LegacyOp) : Bool :=
  (m == .mode64 || o.rex == none) && o.rm.wellFormed (addrSize m o.pfx.a67)

/-- Two-byte VEX: outside Mode64 bits 7:6 of its second byte are 11, so R and vvvv[3] are 0 (R95 c). -/
def Vex2Op.wellFormed (m : Mode) (o : Vex2Op) : Bool :=
  (m == .mode64 || (!o.r && !o.vvvv.getLsbD 3)) && o.rm.wellFormed (addrSize m o.pfx.a67)

/-- Three-byte VEX: outside Mode64 no extension bit is set (R95 c, D23). -/
def Vex3Op.wellFormed (m : Mode) (o : Vex3Op) : Bool :=
  (m == .mode64 || (!o.r && !o.x && !o.b && !o.vvvv.getLsbD 3)) && o.rm.wellFormed (addrSize m o.pfx.a67)

/-- The EVEX violations that the fields can spell: zeroing with no writemask (R98 d), the broadcast bit with a register
operand (R98 e). -/
def EvexOp.violation (o : EvexOp) : Bool :=
  (o.z && o.aaa == 0#3) || (o.bc && !o.rm.isMem)

/-- EVEX: no violation of R98, and outside Mode64 no extension bit (R98 f, D23). -/
def EvexOp.wellFormed (m : Mode) (o : EvexOp) : Bool :=
  !o.violation &&
  (m == .mode64 || (!o.r && !o.x && !o.b && !o.r' && !o.v' && !o.vvvv.getLsbD 3)) &&
  o.rm.wellFormed (addrSize m o.pfx.a67)

/-- The instruction is one whose bytes decode to it in mode `m`. -/
def Instr.wellFormed (m : Mode) : Instr → Bool
  | .pandMm o       => o.wellFormed m
  | .pandXmm o      => o.wellFormed m
  | .vpandXmmVex2 o => o.wellFormed m
  | .vpandXmmVex3 o => o.wellFormed m
  | .vpandYmmVex2 o => o.wellFormed m
  | .vpandYmmVex3 o => o.wellFormed m
  | .vpanddXmm o    => o.wellFormed m
  | .vpanddYmm o    => o.wellFormed m
  | .vpanddZmm o    => o.wellFormed m
  | .vpandqXmm o    => o.wellFormed m
  | .vpandqYmm o    => o.wellFormed m
  | .vpandqZmm o    => o.wellFormed m

end Sys2Proof
end

