-- ==== Sys2Proof/Decode.lean ====
section
/-! DEFINITION. From bytes to an instruction (30_encoding.md R103, total on any bytes, rejecting by name), and after it
the encoder, written from the same layouts (R80 to R101), and the length of R102. -/

namespace Sys2Proof

/-- Why the decoder gives the bytes no instruction and no exception. All are safe: the machine stops where the
hardware may go on. -/
inductive Reject where
  /-- some other instruction or an invalid opcode, outside this spec (R103, 00_scope.md R5) -/
  | notPand
  /-- the bytes that can be fetched end before the instruction does (60_exceptions.md R187 item 1, log 7) -/
  | truncated
  /-- two prefixes of the same group (R82, D16, U11) -/
  | repeatedPfx
  /-- a REX byte followed by another prefix (R83, D16, U11) -/
  | rexMisplaced
  /-- F2 or F3 with 0F DB (R82, D14, U1) -/
  | repPfx
  /-- VEX or EVEX outside Mode64 with an ignored inverted bit equal to 0 (R95 c, R98 f, D23, U12) -/
  | ignoredBitClear
  /-- EVEX P0[3] = 1 (R98 b, U16) -/
  | evexP0Bit3
deriving DecidableEq, Repr

/-- What the decoder answers: an instruction and the bytes after it, a decode-phase #UD and the bytes after the
instruction that raises it (R82, R95, R98), #GP(0) for an instruction of more than 15 bytes (R102), or a rejection. -/
inductive Decoded where
  | instr (i : Instr) (rest : List Byte)
  | ud (rest : List Byte)
  | tooLong
  | reject (r : Reject)
deriving DecidableEq, Repr

/-- The greatest number of bytes an instruction may have (R80, R102). -/
def maxLen : Nat := 15

/-! ### Legacy prefixes (R82) -/

/-- The groups of legacy prefixes. LOCK and REPNE/REP are groups of their own here (R103 records them apart, log 15). -/
inductive PfxKind where
  | seg (s : SegName)
  | a67
  | p66
  | rep
  | lock
deriving DecidableEq, Repr

/-- The prefix byte of a segment override (R82). -/
def SegName.pfxByte : SegName → Byte
  | .es => 0x26#8
  | .cs => 0x2E#8
  | .ss => 0x36#8
  | .ds => 0x3E#8
  | .fs => 0x64#8
  | .gs => 0x65#8

/-- Which prefix a byte is, if it is one (R82). -/
def pfxKind (b : Byte) : Option PfxKind :=
  if b = 0x26#8 then some (.seg .es)
  else if b = 0x2E#8 then some (.seg .cs)
  else if b = 0x36#8 then some (.seg .ss)
  else if b = 0x3E#8 then some (.seg .ds)
  else if b = 0x64#8 then some (.seg .fs)
  else if b = 0x65#8 then some (.seg .gs)
  else if b = 0x66#8 then some .p66
  else if b = 0x67#8 then some .a67
  else if b = 0xF0#8 then some .lock
  else if b = 0xF2#8 then some .rep
  else if b = 0xF3#8 then some .rep
  else none

/-- The prefixes seen so far. -/
structure Seen where
  seg  : Option SegName
  a67  : Bool
  p66  : Bool
  rep  : Bool
  lock : Bool
deriving DecidableEq, Repr

/-- No prefix seen. -/
def Seen.start : Seen := ⟨none, false, false, false, false⟩

/-- Record a prefix; none when its group has one already (R82, D16). -/
def Seen.add (p : Seen) : PfxKind → Option Seen
  | .seg s => if p.seg.isSome then none else some { p with seg := some s }
  | .a67   => if p.a67 then none else some { p with a67 := true }
  | .p66   => if p.p66 then none else some { p with p66 := true }
  | .rep   => if p.rep then none else some { p with rep := true }
  | .lock  => if p.lock then none else some { p with lock := true }

/-- The WHILE loop of R103: take prefixes until a byte is none; `none` when a group repeats. -/
def scanPfx (p : Seen) : List Byte → Option (Seen × List Byte)
  | [] => some (p, [])
  | b :: bs =>
    match pfxKind b with
    | none => some (p, b :: bs)
    | some k =>
      match p.add k with
      | none => none
      | some p' => scanPfx p' bs

/-- The prefixes an instruction keeps. -/
def Seen.pfx (p : Seen) : Pfx := ⟨p.seg, p.a67⟩

/-- REX: in Mode64 a byte 40 to 4F after the prefixes (R83, R103). -/
def takeRex (m : Mode) (bs : List Byte) : Option Rex × List Byte :=
  match bs with
  | [] => (none, [])
  | b :: rest =>
    if m = .mode64 ∧ b.extractLsb' 4 4 = 4#4 then
      (some ⟨b.getLsbD 3, b.getLsbD 2, b.getLsbD 1, b.getLsbD 0⟩, rest)
    else (none, b :: rest)

/-! ### ModRM, SIB, displacement (R84 to R91) -/

/-- One byte of displacement. -/
def take8 : List Byte → Option (BitVec 8 × List Byte)
  | b0 :: bs => some (b0, bs)
  | [] => none

/-- Two bytes of displacement, little-endian (R91). -/
def take16 : List Byte → Option (BitVec 16 × List Byte)
  | b0 :: b1 :: bs => some (b1 ++ b0, bs)
  | _ => none

/-- Four bytes of displacement, little-endian (R91). -/
def take32 : List Byte → Option (BitVec 32 × List Byte)
  | b0 :: b1 :: b2 :: b3 :: bs => some (b3 ++ b2 ++ b1 ++ b0, bs)
  | _ => none

/-- The displacement `mod` calls for, 32- and 64-bit addressing (R87). -/
def takeDisp (md : BitVec 2) (bs : List Byte) : Option (Disp × List Byte) :=
  if md = 0#2 then some (.none, bs)
  else if md = 1#2 then (take8 bs).map fun (v, r) => (.d8 v, r)
  else (take32 bs).map fun (v, r) => (.d32 v, r)

/-- The displacement `mod` calls for, 16-bit addressing (R90). -/
def takeDisp16 (md : BitVec 2) (bs : List Byte) : Option (Disp16 × List Byte) :=
  if md = 0#2 then some (.none, bs)
  else if md = 1#2 then (take8 bs).map fun (v, r) => (.d8 v, r)
  else (take16 bs).map fun (v, r) => (.d16 v, r)

/-- The SIB form (R88). -/
def takeSib (md : BitVec 2) : List Byte → Option (Mem × List Byte)
  | [] => none
  | sib :: bs =>
    let ss := sib.extractLsb' 6 2
    let index := sib.extractLsb' 3 3
    let base := sib.extractLsb' 0 3
    if md = 0#2 ∧ base = 5#3 then (take32 bs).map fun (v, r) => (.sibNoBase ss index v, r)
    else (takeDisp md bs).map fun (d, r) => (.sib ss index base d, r)

/-- The memory operand of `mod` other than 11, at an address size (R87 to R90). -/
def takeMem (sz : AddrSize) (md : BitVec 2) (rm : BitVec 3) (bs : List Byte) : Option (Mem × List Byte) :=
  if sz = .a16 then
    if md = 0#2 ∧ rm = 6#3 then (take16 bs).map fun (v, r) => (.disp16 v, r)
    else (takeDisp16 md bs).map fun (d, r) => (.base16 rm d, r)
  else if rm = 4#3 then takeSib md bs
  else if md = 0#2 ∧ rm = 5#3 then (take32 bs).map fun (v, r) => (.disp v, r)
  else (takeDisp md bs).map fun (d, r) => (.base rm d, r)

/-- ModRM.reg and the ModRM:r/m operand (R84 to R86); none when the bytes run out. -/
def takeModRM (sz : AddrSize) : List Byte → Option (BitVec 3 × Rm × List Byte)
  | [] => none
  | modrm :: bs =>
    let md := modrm.extractLsb' 6 2
    let reg := modrm.extractLsb' 3 3
    let rm := modrm.extractLsb' 0 3
    if md = 3#2 then some (reg, .reg rm, bs)
    else (takeMem sz md rm bs).map fun (m, r) => (reg, .mem m, r)

/-- #UD once ModRM and what follows it can be fetched: a fault of the fetch of any byte of the instruction comes before
#UD (60_exceptions.md R187 item 1), though R103 answers #UD before it reads ModRM (DEDUCED, log 33). -/
def udOnceFetched (sz : AddrSize) (bs : List Byte) : Decoded :=
  match takeModRM sz bs with
  | none => .reject .truncated
  | some (_, _, r) => .ud r

/-! ### The arms of R103's CASE -/

/-- Arm `0F` (forms 1 and 2), after the escape byte. -/
def decodeLegacy (m : Mode) (p : Seen) (rex : Option Rex) : List Byte → Decoded
  | [] => .reject .truncated
  | op :: bs =>
    if op ≠ 0xDB#8 then .reject .notPand
    else if p.lock then udOnceFetched (addrSize m p.a67) bs
    else if p.rep then .reject .repPfx
    else
      match takeModRM (addrSize m p.a67) bs with
      | none => .reject .truncated
      | some (reg, rm, r) =>
        if p.p66 then .instr (.pandXmm ⟨p.pfx, rex, reg, rm⟩) r
        else .instr (.pandMm ⟨p.pfx, rex, reg, rm⟩) r

/-- A prefix that may not stand before VEX or EVEX (R95 a, R98 a). -/
def Seen.badForVex (p : Seen) (rex : Option Rex) : Bool := p.p66 || p.rep || p.lock || rex.isSome

/-- Arm `C5` (forms 3 and 4, two-byte VEX, R93), after the byte C5. Here and in the arms below a prefix that may not
stand before it is #UD whatever the opcode (R103), the instruction's bytes counted as PAND's (log 33). -/
def decodeVex2 (m : Mode) (p : Seen) (rex : Option Rex) : List Byte → Decoded
  | [] => .reject .truncated
  | v1 :: bs =>
    if m ≠ .mode64 ∧ v1.extractLsb' 6 2 ≠ 3#2 then .reject .notPand
    else if p.badForVex rex then udOnceFetched (addrSize m p.a67) (bs.drop 1)
    else
      match bs with
      | [] => .reject .truncated
      | op :: bs =>
        if v1.extractLsb' 0 2 ≠ 1#2 ∨ op ≠ 0xDB#8 then .reject .notPand
        else
          match takeModRM (addrSize m p.a67) bs with
          | none => .reject .truncated
          | some (reg, rm, r) =>
            let o : Vex2Op := ⟨p.pfx, !v1.getLsbD 7, ~~~(v1.extractLsb' 3 4), reg, rm⟩
            if v1.getLsbD 2 then .instr (.vpandYmmVex2 o) r else .instr (.vpandXmmVex2 o) r

/-- Arm `C4` (forms 3 and 4, three-byte VEX, R94), after the byte C4. -/
def decodeVex3 (m : Mode) (p : Seen) (rex : Option Rex) : List Byte → Decoded
  | [] => .reject .truncated
  | v1 :: bs =>
    if m ≠ .mode64 ∧ v1.extractLsb' 6 2 ≠ 3#2 then .reject .notPand
    else if p.badForVex rex then udOnceFetched (addrSize m p.a67) (bs.drop 2)
    else
      match bs with
      | v2 :: op :: bs =>
        if v1.extractLsb' 0 5 ≠ 1#5 ∨ v2.extractLsb' 0 2 ≠ 1#2 ∨ op ≠ 0xDB#8 then .reject .notPand
        else if m ≠ .mode64 ∧ (v1.getLsbD 5 = false ∨ v2.getLsbD 6 = false) then .reject .ignoredBitClear
        else
          match takeModRM (addrSize m p.a67) bs with
          | none => .reject .truncated
          | some (reg, rm, r) =>
            let o : Vex3Op :=
              ⟨p.pfx, !v1.getLsbD 7, !v1.getLsbD 6, !v1.getLsbD 5, v2.getLsbD 7, ~~~(v2.extractLsb' 3 4), reg, rm⟩
            if v2.getLsbD 2 then .instr (.vpandYmmVex3 o) r else .instr (.vpandXmmVex3 o) r
      | _ => .reject .truncated

/-- The EVEX form that W and L'L select (R99); L'L = 11 selects none. -/
def evexForm (w : Bool) (ll : BitVec 2) : Option (EvexOp → Instr) :=
  if ll = 0#2 then some (if w then .vpandqXmm else .vpanddXmm)
  else if ll = 1#2 then some (if w then .vpandqYmm else .vpanddYmm)
  else if ll = 2#2 then some (if w then .vpandqZmm else .vpanddZmm)
  else none

/-- Arm `62` (forms 5 to 10, EVEX, R97), after the byte 62. -/
def decodeEvex (m : Mode) (p : Seen) (rex : Option Rex) : List Byte → Decoded
  | [] => .reject .truncated
  | p0 :: bs =>
    if m ≠ .mode64 ∧ p0.extractLsb' 6 2 ≠ 3#2 then .reject .notPand
    else if p.badForVex rex then udOnceFetched (addrSize m p.a67) (bs.drop 3)
    else
      match bs with
      | p1 :: p2 :: op :: bs =>
        let z := p2.getLsbD 7
        let bc := p2.getLsbD 4
        let aaa := p2.extractLsb' 0 3
        if p0.getLsbD 3 then .reject .evexP0Bit3
        else if p0.extractLsb' 0 3 ≠ 1#3 ∨ p1.extractLsb' 0 2 ≠ 1#2 ∨ op ≠ 0xDB#8 then .reject .notPand
        else if p1.getLsbD 2 = false ∨ (z = true ∧ aaa = 0#3) then udOnceFetched (addrSize m p.a67) bs
        else
          match evexForm (p1.getLsbD 7) (p2.extractLsb' 5 2) with
          | none => udOnceFetched (addrSize m p.a67) bs
          | some form =>
            if m ≠ .mode64 ∧ (p0.getLsbD 5 = false ∨ p0.getLsbD 4 = false ∨ p2.getLsbD 3 = false ∨
                p1.getLsbD 6 = false) then .reject .ignoredBitClear
            else
              match takeModRM (addrSize m p.a67) bs with
              | none => .reject .truncated
              | some (reg, rm, r) =>
                if bc && !rm.isMem then .ud r
                else
                  .instr (form ⟨p.pfx, !p0.getLsbD 7, !p0.getLsbD 6, !p0.getLsbD 5, !p0.getLsbD 4,
                    ~~~(p1.extractLsb' 3 4), !p2.getLsbD 3, aaa, z, bc, reg, rm⟩) r
      | _ => .reject .truncated

/-- CASE b[i] of R103, after the prefixes and REX. -/
def decodeOpcode (m : Mode) (p : Seen) (rex : Option Rex) : List Byte → Decoded
  | [] => .reject .truncated
  | b :: bs =>
    if b = 0x0F#8 then decodeLegacy m p rex bs
    else if b = 0xC5#8 then decodeVex2 m p rex bs
    else if b = 0xC4#8 then decodeVex3 m p rex bs
    else if b = 0x62#8 then decodeEvex m p rex bs
    else if rex.isSome ∧ (pfxKind b).isSome then .reject .rexMisplaced
    else .reject .notPand

/-- The procedure of R103 on bytes, in a mode. -/
def decodeBytes (m : Mode) (bs : List Byte) : Decoded :=
  match scanPfx .start bs with
  | none => .reject .repeatedPfx
  | some (p, bs) =>
    let (rex, bs) := takeRex m bs
    decodeOpcode m p rex bs

/-- An instruction of more than 15 bytes is #GP(0), before #UD (R102, 60_exceptions.md R187 item 2): one that has not
ended after the 15th byte, or has ended beyond it. Only prefixes that are not repeated but may not stand before VEX or
EVEX make a PAND so long; every admitted PAND ends within 13 bytes (log 16). -/
def limitLength (bs : List Byte) : Decoded → Decoded
  | .instr i rest => .instr i rest
  | .ud rest => if maxLen + rest.length < bs.length then .tooLong else .ud rest
  | .tooLong => .tooLong
  | .reject r => if r = .truncated ∧ maxLen ≤ bs.length then .tooLong else .reject r

/-- The decoder: the bytes at pc, in a mode (R102, R103). -/
def decode (m : Mode) (bs : List Byte) : Decoded := limitLength bs (decodeBytes m bs)

/-! ### The encoder -/

/-- A byte from its bits, bit 7 first. -/
def bitsByte (b7 b6 b5 b4 b3 b2 b1 b0 : Bool) : Byte :=
  BitVec.ofBool b7 ++ BitVec.ofBool b6 ++ BitVec.ofBool b5 ++ BitVec.ofBool b4 ++
  BitVec.ofBool b3 ++ BitVec.ofBool b2 ++ BitVec.ofBool b1 ++ BitVec.ofBool b0

/-- Two bytes, little-endian (R91). -/
def bytes16 (v : BitVec 16) : List Byte := [v.extractLsb' 0 8, v.extractLsb' 8 8]

/-- Four bytes, little-endian (R91). -/
def bytes32 (v : BitVec 32) : List Byte :=
  [v.extractLsb' 0 8, v.extractLsb' 8 8, v.extractLsb' 16 8, v.extractLsb' 24 8]

/-- The segment and address-size prefixes (R82), in this order. -/
def Pfx.encode (p : Pfx) : List Byte :=
  (p.seg.map SegName.pfxByte).toList ++ (if p.a67 then [0x67#8] else [])

/-- The REX byte (R83). -/
def Rex.encode (x : Rex) : Byte := bitsByte false true false false x.w x.r x.x x.b

/-- The mod a displacement takes (R87). -/
def Disp.md : Disp → BitVec 2
  | .none => 0#2
  | .d8 _ => 1#2
  | .d32 _ => 2#2

/-- The displacement's bytes (R91). -/
def Disp.encode : Disp → List Byte
  | .none => []
  | .d8 v => [v]
  | .d32 v => bytes32 v

/-- The mod a 16-bit-addressing displacement takes (R90). -/
def Disp16.md : Disp16 → BitVec 2
  | .none => 0#2
  | .d8 _ => 1#2
  | .d16 _ => 2#2

/-- The displacement's bytes (R91). -/
def Disp16.encode : Disp16 → List Byte
  | .none => []
  | .d8 v => [v]
  | .d16 v => bytes16 v

/-- ModRM (R84), and the SIB byte, which has the same three fields' shape (R88). -/
def packByte (hi : BitVec 2) (mid low : BitVec 3) : Byte := hi ++ mid ++ low

/-- ModRM, SIB and displacement of a memory operand (R87 to R90). -/
def Mem.encode (reg : BitVec 3) : Mem → List Byte
  | .base rm d             => packByte d.md reg rm :: d.encode
  | .disp v                => packByte 0#2 reg 5#3 :: bytes32 v
  | .sib ss index b d      => packByte d.md reg 4#3 :: packByte ss index b :: d.encode
  | .sibNoBase ss index v  => packByte 0#2 reg 4#3 :: packByte ss index 5#3 :: bytes32 v
  | .base16 rm d           => packByte d.md reg rm :: d.encode
  | .disp16 v              => packByte 0#2 reg 6#3 :: bytes16 v

/-- ModRM and what follows it. -/
def Rm.encode (reg : BitVec 3) : Rm → List Byte
  | .reg rm => [packByte 3#2 reg rm]
  | .mem m => m.encode reg

/-- Forms 1 and 2: prefixes, the mandatory 66 of form 2, REX, 0F DB, ModRM (R80). -/
def LegacyOp.encode (p66 : Bool) (o : LegacyOp) : List Byte :=
  o.pfx.encode ++ (if p66 then [0x66#8] else []) ++ (o.rex.map Rex.encode).toList ++
    0x0F#8 :: 0xDB#8 :: o.rm.encode o.reg

/-- Two-byte VEX, the register bits inverted, pp = 01 (R93). -/
def Vex2Op.encode (l : Bool) (o : Vex2Op) : List Byte :=
  o.pfx.encode ++ 0xC5#8 ::
    bitsByte (!o.r) (!o.vvvv.getLsbD 3) (!o.vvvv.getLsbD 2) (!o.vvvv.getLsbD 1) (!o.vvvv.getLsbD 0) l false true ::
    0xDB#8 :: o.rm.encode o.reg

/-- Three-byte VEX, map 00001, pp = 01 (R94). -/
def Vex3Op.encode (l : Bool) (o : Vex3Op) : List Byte :=
  o.pfx.encode ++ 0xC4#8 ::
    bitsByte (!o.r) (!o.x) (!o.b) false false false false true ::
    bitsByte o.w (!o.vvvv.getLsbD 3) (!o.vvvv.getLsbD 2) (!o.vvvv.getLsbD 1) (!o.vvvv.getLsbD 0) l false true ::
    0xDB#8 :: o.rm.encode o.reg

/-- EVEX, map 001, pp = 01 (R97); `l'` and `l` are L'L. -/
def EvexOp.encode (w l' l : Bool) (o : EvexOp) : List Byte :=
  o.pfx.encode ++ 0x62#8 ::
    bitsByte (!o.r) (!o.x) (!o.b) (!o.r') false false false true ::
    bitsByte w (!o.vvvv.getLsbD 3) (!o.vvvv.getLsbD 2) (!o.vvvv.getLsbD 1) (!o.vvvv.getLsbD 0) true false true ::
    bitsByte o.z l' l o.bc (!o.v') (o.aaa.getLsbD 2) (o.aaa.getLsbD 1) (o.aaa.getLsbD 0) ::
    0xDB#8 :: o.rm.encode o.reg

/-- The bytes of an instruction, in address order. -/
def encode : Instr → List Byte
  | .pandMm o       => o.encode false
  | .pandXmm o      => o.encode true
  | .vpandXmmVex2 o => o.encode false
  | .vpandXmmVex3 o => o.encode false
  | .vpandYmmVex2 o => o.encode true
  | .vpandYmmVex3 o => o.encode true
  | .vpanddXmm o    => o.encode false false false
  | .vpanddYmm o    => o.encode false false true
  | .vpanddZmm o    => o.encode false true false
  | .vpandqXmm o    => o.encode true false false
  | .vpandqYmm o    => o.encode true false true
  | .vpandqZmm o    => o.encode true true false

/-! ### The length `len` of R102 -/

/-- Prefix bytes. -/
def Pfx.len (p : Pfx) : Nat := (if p.seg.isSome then 1 else 0) + (if p.a67 then 1 else 0)

/-- Displacement bytes (R87). -/
def Disp.len : Disp → Nat
  | .none => 0
  | .d8 _ => 1
  | .d32 _ => 4

/-- Displacement bytes (R90). -/
def Disp16.len : Disp16 → Nat
  | .none => 0
  | .d8 _ => 1
  | .d16 _ => 2

/-- ModRM, SIB and displacement bytes. -/
def Rm.len : Rm → Nat
  | .reg _                   => 1
  | .mem (.base _ d)         => 1 + d.len
  | .mem (.disp _)           => 1 + 4
  | .mem (.sib _ _ _ d)      => 1 + 1 + d.len
  | .mem (.sibNoBase _ _ _)  => 1 + 1 + 4
  | .mem (.base16 _ d)       => 1 + d.len
  | .mem (.disp16 _)         => 1 + 2

/-- Forms 1 and 2. -/
def LegacyOp.len (p66 : Bool) (o : LegacyOp) : Nat :=
  o.pfx.len + (if p66 then 1 else 0) + (if o.rex.isSome then 1 else 0) + 2 + o.rm.len

/-- Two-byte VEX. -/
def Vex2Op.len (o : Vex2Op) : Nat := o.pfx.len + 3 + o.rm.len

/-- Three-byte VEX. -/
def Vex3Op.len (o : Vex3Op) : Nat := o.pfx.len + 4 + o.rm.len

/-- EVEX. -/
def EvexOp.len (o : EvexOp) : Nat := o.pfx.len + 5 + o.rm.len

/-- `len`, the instruction's length in bytes (R102). -/
def Instr.len : Instr → Nat
  | .pandMm o       => o.len false
  | .pandXmm o      => o.len true
  | .vpandXmmVex2 o => o.len
  | .vpandXmmVex3 o => o.len
  | .vpandYmmVex2 o => o.len
  | .vpandYmmVex3 o => o.len
  | .vpanddXmm o    => o.len
  | .vpanddYmm o    => o.len
  | .vpanddZmm o    => o.len
  | .vpandqXmm o    => o.len
  | .vpandqYmm o    => o.len
  | .vpandqZmm o    => o.len

/-! ### Words of the opcode table -/

/-- An instruction given as a number, its first byte least significant, as the bytes from its first one on: byte k is
bits 8k+7:8k, and every bit from `nbits` up is 0. -/
def wordByte (nbits w k : Nat) : Byte := BitVec.ofNat 8 ((w % 2 ^ nbits) >>> (8 * k))

/-- Its first `n` bytes. -/
def wordBytes (nbits w n : Nat) : List Byte := (List.range n).map (wordByte nbits w)

/-- The instruction the decoder reads from a table word. The words of the VEX and EVEX rows mean PAND at every value
of their register bits in Mode64 only (R95 c, R98 f), so the word is read in that mode (log 22). -/
def decodeTableWord (nbits w : Nat) : Option Instr :=
  match decode .mode64 (wordBytes nbits w maxLen) with
  | .instr i _ => some i
  | .ud _ => none
  | .tooLong => none
  | .reject _ => none

end Sys2Proof
end

