-- ==== Sys2Proof/Machine/State.lean ====
section
/-! DEFINITION. The state of the machine (10_state.md R20), the reasons a step stops (60_exceptions.md R181, R188), and
the state after RESET (R35). -/

namespace Sys2Proof.Machine

/-- A segment register: the visible selector and the hidden base, limit and attributes (10_state.md R29). `present`,
`readable` and `null` are what SegCheck asks for (20_memory.md R56), `expandDown` which side of the limit is inside
(PRESUMED, log 6), `l` and `d` the bits of CS in R30. R29 gives widths for the selector and for the bases of FS and GS:
the other bases' 64 bits and the limit's 32 are PRESUMED (log 34). -/
structure Seg where
  selector   : BitVec 16
  base       : Word64
  limit      : BitVec 32
  present    : Bool
  readable   : Bool
  null       : Bool
  expandDown : Bool
  l          : Bool
  d          : Bool
deriving DecidableEq, Repr

/-- The state: every component of R20, the further registers R28, R35 and R181 name, and the two fields the model
adds, `cfg` (the parameters of 00_scope.md R6, which no step writes, log 1) and `draws` (the count the free values are
applied to, log 10). The spec gives no width for CR0, CR3, CR4, XCR0, IA32_EFER, MXCSR and the x87 control word: they
are held at the x86 family's (PRESUMED, log 32). -/
structure State where
  /-- the implementation parameters (R6) -/
  cfg    : Config
  /-- MM[0..7], bits 63:0 of the physical x87 data registers (R21, R22 a) -/
  mm     : Vector Word64 8
  /-- ST_EXP[0..7], bits 79:64 of the physical x87 data registers (R22) -/
  stExp  : Vector (BitVec 16) 8
  /-- the x87 status word (R32) -/
  fsw    : BitVec 16
  /-- the x87 tag word (R32) -/
  ftw    : BitVec 16
  /-- the x87 control word (R35; 16 bits PRESUMED, log 32) -/
  fcw    : BitVec 16
  /-- the x87 instruction pointer (R181) -/
  fip    : Word64
  /-- the x87 data pointer (R181) -/
  fdp    : Word64
  /-- Z[0..31] (R23, log 20) -/
  z      : Vector Vec 32
  /-- K[0..7] (R25, log 20) -/
  k      : Vector Word64 8
  /-- MXCSR (R28, R35; 32 bits PRESUMED, log 32) -/
  mxcsr  : BitVec 32
  /-- GPR[0..15] (R26) -/
  gpr    : Vector Word64 16
  /-- the instruction pointer; 32 bits of it outside Mode64 (R27) -/
  pc     : Word64
  /-- EFLAGS (R28, R30) -/
  eflags : BitVec 32
  /-- the segment registers (R29) -/
  cs     : Seg
  ds     : Seg
  es     : Seg
  fs     : Seg
  gs     : Seg
  ss     : Seg
  /-- the control registers (R30, R35; but for CR2, whose width R20 gives, 64 bits PRESUMED, log 32) -/
  cr0    : Word64
  cr2    : Word64
  cr3    : Word64
  cr4    : Word64
  /-- XCR0 (R30; 64 bits PRESUMED, log 32) -/
  xcr0   : Word64
  /-- IA32_EFER (R30; 64 bits PRESUMED, log 32) -/
  efer   : Word64
  /-- the current privilege level (R30) -/
  cpl    : BitVec 2
  /-- memory at physical addresses, in the canonical form of Machine/Memory.lean (20_memory.md R50) -/
  mem    : List Host.Cell
  /-- how many instructions have completed: the argument of the free values (log 10) -/
  draws  : Nat
deriving DecidableEq, Repr

/-- Fault(X, e, pc) of 60_exceptions.md R188: the exceptions of R181, each with the pc of the PAND that raised it. The
delivery of an exception is outside the model (R5, D5), so each is the end of the run, with nothing changed: safe
(log 8). -/
inductive Fault where
  /-- #UD, invalid opcode: raised by the decoder (R98, R103) and by every form (R182 to R185). Safe. -/
  | ud (pc : Word64)
  /-- #NM, device not available: raised by every form when CR0.TS = 1 (R182 to R185). Safe. -/
  | nm (pc : Word64)
  /-- #SS(0): raised for a memory operand in SS (20_memory.md R56). Safe. -/
  | ss (pc : Word64)
  /-- #GP(0): raised for a memory operand (R54, R56), and by the decoder for an instruction of more than 15 bytes
  (30_encoding.md R102). Safe. -/
  | gp (pc : Word64)
  /-- #PF(ec), with the linear address CR2 receives: raised for a memory operand (R57; `ec` 32 bits PRESUMED, log 34).
  Safe. -/
  | pf (ec : BitVec 32) (lin : Word64) (pc : Word64)
  /-- #MF, a pending x87 exception: raised by form 1 (R182). Safe. -/
  | mf (pc : Word64)
  /-- #AC(0): raised by form 1 for a memory operand (R55). Safe. -/
  | ac (pc : Word64)
deriving DecidableEq, Repr

/-- Why the machine gives no meaning. Every refusal is safe: no claim about a next state holds there. -/
inductive Refusal where
  /-- an instruction whose arm has no meaning yet; raised by no arm of this model -/
  | notModelled (mnemonic : String)
  /-- the bytes at pc are no PAND or one the spec has a model refuse; raised by `step` (30_encoding.md R103) -/
  | undecoded (why : Reject)
  /-- pc + len wraps or leaves the canonical range; raised by every form in place of completing (10_state.md R27, D4,
  U17) -/
  | pcRange
  /-- a pending x87 exception with CR0.NE = 0, reported by the platform's external interrupt; raised by form 1
  (60_exceptions.md R182, U9) -/
  | externalX87
  /-- the operand lies in memory that is not ordinary; raised by every form with a memory operand (20_memory.md R63,
  D17, U14) -/
  | deviceMemory
deriving DecidableEq, Repr

/-- A segment after RESET and INIT (R35). The attributes are PRESUMED (log 6). -/
def Seg.atReset (selector : BitVec 16) (base : Word64) : Seg where
  selector   := selector
  base       := base
  limit      := 0xFFFF#32
  present    := true
  readable   := true
  null       := false
  expandDown := false
  l          := false
  d          := false

/-- The general registers after RESET and INIT: EDX holds the processor signature, the others 0 (R35). EAX = 0, and so
are bits 63:32 of RAX and RDX, for which R35 gives no value (log 11). -/
def gprAtReset (signature : BitVec 32) : Vector Word64 16 :=
  (Vector.replicate 16 0#64).set 2 (signature.setWidth 64)

/-- The state after power-up or RESET on a processor with parameters `c` (R35). The processor comes up in real-address
mode, so the mode is the 16-bit one (log 3). -/
def State.resetOf (c : Config) : State where
  cfg    := { c with mode := .mode16 }
  mm     := Vector.replicate 8 0#64
  stExp  := Vector.replicate 8 0#16
  fsw    := 0#16
  ftw    := 0x5555#16
  fcw    := 0x0040#16
  fip    := 0#64
  fdp    := 0#64
  z      := Vector.replicate 32 0#512
  k      := Vector.replicate 8 0#64
  mxcsr  := 0x1F80#32
  gpr    := gprAtReset c.signature
  pc     := 0xFFF0#64
  eflags := 0x00000002#32
  cs     := Seg.atReset 0xF000#16 0xFFFF0000#64
  ds     := Seg.atReset 0#16 0#64
  es     := Seg.atReset 0#16 0#64
  fs     := Seg.atReset 0#16 0#64
  gs     := Seg.atReset 0#16 0#64
  ss     := Seg.atReset 0#16 0#64
  cr0    := 0x60000010#64
  cr2    := 0#64
  cr3    := 0#64
  cr4    := 0#64
  xcr0   := 1#64
  efer   := 0#64
  cpl    := 0#2
  mem    := []
  draws  := 0

/-- The machine right after RESET (R35), with the parameters `Config.atReset` (log 2). -/
def State.reset : State := State.resetOf Config.atReset

end Sys2Proof.Machine
end

