-- ==== Sys2Proof/Machine/Flags.lean ====
section
/-! DEFINITION. The status and control bits PAND consults (10_state.md R30, R32) and the x87 status fields form 1
writes (R22). No form computes or writes a flag of EFLAGS (R28), so there is no flag computation. -/

namespace Sys2Proof.Machine

/-- CR0.PE (bit 0): 0 is real-address mode. -/
def State.pe (s : State) : Bool := s.cr0.getLsbD 0
/-- CR0.EM (bit 2). -/
def State.em (s : State) : Bool := s.cr0.getLsbD 2
/-- CR0.TS (bit 3). -/
def State.ts (s : State) : Bool := s.cr0.getLsbD 3
/-- CR0.NE (bit 5). -/
def State.ne (s : State) : Bool := s.cr0.getLsbD 5
/-- CR0.AM (bit 18). -/
def State.am (s : State) : Bool := s.cr0.getLsbD 18
/-- CR0.PG (bit 31). -/
def State.pg (s : State) : Bool := s.cr0.getLsbD 31
/-- CR4.OSFXSR (bit 9). -/
def State.osfxsr (s : State) : Bool := s.cr4.getLsbD 9
/-- CR4.OSXSAVE (bit 18). -/
def State.osxsave (s : State) : Bool := s.cr4.getLsbD 18
/-- XCR0[2:1], the SSE and AVX bits. -/
def State.xcr0SseAvx (s : State) : BitVec 2 := s.xcr0.extractLsb' 1 2
/-- XCR0[7:5], the opmask, ZMM_Hi256 and Hi16_ZMM bits. -/
def State.xcr0Avx512 (s : State) : BitVec 3 := s.xcr0.extractLsb' 5 3
/-- IA32_EFER.LMA (bit 10). -/
def State.lma (s : State) : Bool := s.efer.getLsbD 10
/-- EFLAGS.VM (bit 17): virtual-8086 mode. -/
def State.vm (s : State) : Bool := s.eflags.getLsbD 17
/-- EFLAGS.AC (bit 18). -/
def State.acFlag (s : State) : Bool := s.eflags.getLsbD 18
/-- FSW.ES (bit 7): an unmasked x87 exception is pending (R32). -/
def State.fswEs (s : State) : Bool := s.fsw.getLsbD 7
/-- FSW.TOP (bits 13:11). -/
def State.fswTop (s : State) : BitVec 3 := s.fsw.extractLsb' 11 3

/-- Real-address or virtual-8086 mode (R30; R184, R185). -/
def State.realOrVm (s : State) : Bool := !s.pe || s.vm

/-- The modes in which no VEX or EVEX form can execute: real-address and virtual-8086 mode (R184, R185), and every other
in which 16-bit addressing is the default (30_encoding.md R90; that it is #UD there too is log 14). -/
def State.vexBarred (s : State) : Bool := s.realOrVm || s.cfg.mode == .mode16

/-- Alignment checking is on (20_memory.md R55). -/
def State.alignCheck (s : State) : Bool := s.am && s.acFlag && s.cpl == 3#2

/-- FSW.TOP <- 000, every other bit of FSW kept (R22 b, R28). -/
def clearTop (fsw : BitVec 16) : BitVec 16 := fsw &&& 0xC7FF#16

end Sys2Proof.Machine
end

