-- ==== Sys2Proof/Machine/Memory.lean ====
section
/-! DEFINITION. Memory as a list of cells in one canonical form (20_memory.md R50): addresses strictly rising and below
2^64, no cell equal to what an unlisted address reads as. -/

namespace Sys2Proof.Machine

/-- What an address with no cell reads as. The spec leaves memory after power-up unspecified (10_state.md R35): DESIGN
CHOICE 00H, unsafe for a claim about the reset state (log 4). -/
def Memory.unlisted : Byte := 0#8

/-- The byte at an address. -/
def Memory.read : List Host.Cell → Nat → Byte
  | [], _ => Memory.unlisted
  | (b, v) :: m, a => if a = b then v else Memory.read m a

/-- Put a cell, or no cell for the unlisted value, in front of cells of higher addresses. -/
def Memory.cons (a : Nat) (v : Byte) (m : List Host.Cell) : List Host.Cell :=
  if v = Memory.unlisted then m else (a, v) :: m

/-- Store a byte, keeping the canonical form. No PAND stores (R60); a program is placed with it. -/
def Memory.write : List Host.Cell → Nat → Byte → List Host.Cell
  | [], a, v => Memory.cons a v []
  | (b, w) :: m, a, v =>
    if a < b then Memory.cons a v ((b, w) :: m)
    else if a = b then Memory.cons a v m
    else (b, w) :: Memory.write m a v

/-- Every cell lies above `lo`, below 2^64, in rising order, and differs from the unlisted value. -/
def Memory.wfFrom : Nat → List Host.Cell → Bool
  | _, [] => true
  | lo, (a, v) :: m => decide (lo ≤ a) && decide (a < 2 ^ 64) && v != Memory.unlisted && Memory.wfFrom (a + 1) m

/-- The canonical form. -/
def Memory.wf (m : List Host.Cell) : Bool := Memory.wfFrom 0 m

end Sys2Proof.Machine
end

