-- ==== Sys2Proof/Machine/Ops.lean ====
section
/-! DEFINITION. The operations every form is built from: raising an exception, the register files, slices of vector
registers, addressing memory (20_memory.md R52 to R57, R63), and completing an instruction (10_state.md R27). -/

namespace Sys2Proof.Machine

/-! ### How an instruction ends -/

/-- What keeps an instruction from completing. -/
inductive Stop where
  | fault (f : Fault)
  | refused (r : Refusal)
deriving DecidableEq, Repr

/-- The outcome of an instruction. -/
def finish : Except Stop State → Host.Outcome State Fault Refusal
  | .ok s => .next s
  | .error (.fault f) => .fault f
  | .error (.refused r) => .refused r

/-- `raise X(e)` (60_exceptions.md R188): abandon the instruction with the exception, reporting the pc of the PAND, and
change nothing. The entry of a handler through the interrupt descriptor table, and the return from one, are outside
the spec's scope (00_scope.md R5, R189, R190, log 8). -/
def raise {α : Type} (x : Word64 → Fault) (s : State) : Except Stop α := .error (.fault (x s.pc))

/-- Refuse. -/
def refuse {α : Type} (r : Refusal) : Except Stop α := .error (.refused r)

/-- The state as an exception leaves it before delivery: everything as before the instruction, but CR2, which a #PF
sets to the linear address it reports (R181, R188, 10_state.md R20). -/
def State.atFault (s : State) : Fault → State
  | .pf _ lin _ => { s with cr2 := lin }
  | .ud _ => s
  | .nm _ => s
  | .ss _ => s
  | .gp _ => s
  | .mf _ => s
  | .ac _ => s

/-- The vector of an exception (R181). -/
def Fault.vector : Fault → Nat
  | .ud _ => 6
  | .nm _ => 7
  | .ss _ => 12
  | .gp _ => 13
  | .pf _ _ _ => 14
  | .mf _ => 16
  | .ac _ => 17

/-- The error code of an exception that has one (R181; 32 bits PRESUMED, log 34). -/
def Fault.errorCode : Fault → Option (BitVec 32)
  | .ud _ => none
  | .nm _ => none
  | .ss _ => some 0#32
  | .gp _ => some 0#32
  | .pf ec _ _ => some ec
  | .mf _ => none
  | .ac _ => some 0#32

/-- The instruction pointer an exception reports (R188). -/
def Fault.pc : Fault → Word64
  | .ud pc => pc
  | .nm pc => pc
  | .ss pc => pc
  | .gp pc => pc
  | .pf _ _ pc => pc
  | .mf pc => pc
  | .ac pc => pc

/-! ### Register files (00_scope.md R10) -/

/-- MM[i]. -/
def State.getMm (s : State) (i : BitVec 3) : Word64 := s.mm[i.toNat]'i.isLt

/-- Z[i] at full width. -/
def State.getZ (s : State) (i : BitVec 5) : Vec := s.z[i.toNat]'i.isLt

/-- K[i]. -/
def State.getK (s : State) (i : BitVec 3) : Word64 := s.k[i.toNat]'i.isLt

/-- GPR[i]. -/
def State.getGpr (s : State) (i : BitVec 4) : Word64 := s.gpr[i.toNat]'i.isLt

/-- A segment register. -/
def State.seg (s : State) : SegName → Seg
  | .cs => s.cs
  | .ds => s.ds
  | .es => s.es
  | .fs => s.fs
  | .gs => s.gs
  | .ss => s.ss

/-- `MM[d] <- v` with all its x87 side effects (10_state.md R22): bits 79:64 of the aliased x87 register become FFFFH,
FSW.TOP becomes 0, every tag becomes valid. -/
def State.writeMm (s : State) (d : BitVec 3) (v : Word64) : State :=
  { s with
    mm := s.mm.set d.toNat v d.isLt
    stExp := s.stExp.set d.toNat 0xFFFF#16 d.isLt
    fsw := clearTop s.fsw
    ftw := 0#16 }

/-- Write all of Z[d]; no other state is touched (R23). -/
def State.writeZ (s : State) (d : BitVec 5) (v : Vec) : State :=
  { s with z := s.z.set d.toNat v d.isLt }

/-! ### Slices (00_scope.md R7) -/

/-- `v[lo+n-1:lo]`. -/
def slice (v : Vec) (lo n : Nat) : BitVec n := v.extractLsb' lo n

/-- `v` with `v[lo+n-1:lo] <- x`, the other bits kept. -/
def setSlice {n : Nat} (v : Vec) (lo : Nat) (x : BitVec n) : Vec :=
  (v &&& ~~~((BitVec.allOnes n).setWidth 512 <<< lo)) ||| (x.setWidth 512 <<< lo)

/-- A value in the low bits of a vector register, zeros above it. -/
def zext {n : Nat} (x : BitVec n) : Vec := x.setWidth 512

/-! ### Linear addresses (20_memory.md R56) -/

/-- Bits 63:VA_BITS-1 all equal. -/
def canonical (va : VaBits) (a : Word64) : Bool :=
  a >>> (va.bits - 1) == 0#64 || a >>> (va.bits - 1) == BitVec.allOnes 64 >>> (va.bits - 1)

/-- The linear address of byte `k` of an operand at `ea` in a segment: in Mode64 the base is 0 but for FS and GS, and
the sum is modulo 2^64; otherwise the sum is modulo 2^32 (R56; wrap of a later byte: log 18). -/
def linear (s : State) (seg : SegName) (ea : Word64) (k : Nat) : Word64 :=
  match s.cfg.mode with
  | .mode64 => (match seg with
      | .fs => s.fs.base
      | .gs => s.gs.base
      | .cs => 0#64
      | .ds => 0#64
      | .es => 0#64
      | .ss => 0#64) + ea + BitVec.ofNat 64 k
  | .mode32 => (((s.seg seg).base + ea + BitVec.ofNat 64 k).setWidth 32).setWidth 64
  | .mode16 => (((s.seg seg).base + ea + BitVec.ofNat 64 k).setWidth 32).setWidth 64

/-- Is an offset inside the segment's limit? (R56; an expand-down segment has its offsets above the limit, log 6.) -/
def Seg.holds (g : Seg) (off : Nat) : Bool :=
  if g.expandDown then decide (g.limit.toNat < off) && decide (off ≤ if g.d then 0xFFFFFFFF else 0xFFFF)
  else decide (off ≤ g.limit.toNat)

/-- Does the hidden part of a segment register admit a read at the offset: present, readable, not null, and inside the
limit (R56)? -/
def Seg.admits (g : Seg) (off : Nat) : Bool := g.present && g.readable && !g.null && g.holds off

/-- Does the range hold the offset of the segment? -/
def SegRange.holds (r : SegRange) (seg : SegName) (off : Nat) : Bool :=
  r.seg == seg && decide (r.first ≤ off) && decide (off ≤ r.last)

/-- The parameter `SegCheck` at an offset (00_scope.md R6, D6): what the parameter says of it, and where it says
nothing, what the hidden part of the segment register does (R56, log 6). -/
def segParam (s : State) (seg : SegName) (off : Nat) : Bool :=
  match s.cfg.segCheck.find? (SegRange.holds · seg off) with
  | some r => r.passes
  | none => (s.seg seg).admits off

/-- The segment check of byte `k` of an operand at `ea`: SegCheck, and in real-address and virtual-8086 mode also an
offset inside 0 to FFFFH (R56). -/
def segCheck (s : State) (seg : SegName) (ea : Word64) (k : Nat) : Bool :=
  segParam s seg (ea.toNat + k) && (!s.realOrVm || decide (ea.toNat + k ≤ 0xFFFF))

/-- The check `Linear` makes of byte `k` (R56): a canonical address in Mode64, SegCheck otherwise. -/
def byteAllowed (s : State) (seg : SegName) (ea : Word64) (k : Nat) : Bool :=
  match s.cfg.mode with
  | .mode64 => canonical s.cfg.vaBits (linear s seg ea k)
  | .mode32 => segCheck s seg ea k
  | .mode16 => segCheck s seg ea k

/-! ### Physical addresses (R57) -/

/-- Does the range hold the address? -/
def XlatRange.holds (r : XlatRange) (a : Word64) : Bool :=
  decide (r.first.toNat ≤ a.toNat) && decide (a.toNat ≤ r.last.toNat)

/-- Does the range hold the address? -/
def PhysRange.holds (r : PhysRange) (a : Word64) : Bool :=
  decide (r.first.toNat ≤ a.toNat) && decide (a.toNat ≤ r.last.toNat)

/-- The error code of a failing data read: bit 0 is P, bit 1 (W/R) is 0, bit 2 (U/S) is 1 at CPL 3, bit 4 (I/D) is 0;
the other bits are Translate's (R57). R57 gives the code no width: 32 bits are PRESUMED (log 34). -/
def pfCode (cpl : BitVec 2) (present : Bool) (other : BitVec 32) : BitVec 32 :=
  (other &&& ~~~(0x17#32)) ||| (if present then 1#32 else 0#32) ||| (if cpl = 3#2 then 4#32 else 0#32)

/-- `Translate(lin, read, CPL)`: the identity while CR0.PG = 0, otherwise what the parameter says; the error is #PF's
error code (R57, log 5). Physical addresses are held at 64 bits (PRESUMED, log 34). -/
def translateAddr (s : State) (lin : Word64) : Except (BitVec 32) Word64 :=
  if s.pg then
    match s.cfg.xlat.find? (XlatRange.holds · lin) with
    | none => .error (pfCode s.cpl false 0#32)
    | some r =>
      match (if s.cpl = 3#2 then r.user else r.super) with
      | .mapped p => .ok (p + (lin - r.first))
      | .denied present other => .error (pfCode s.cpl present other)
  else .ok lin

/-- The physical address of a byte whose translation succeeds. -/
def physical (s : State) (lin : Word64) : Word64 :=
  match translateAddr s lin with
  | .ok p => p
  | .error _ => lin

/-! ### The read primitive MemRead (R52) -/

/-- A data access: its segment, whether a prefix named it, the effective address, the operand's size in bytes (R53), and
the offsets of the bytes that are checked and read (all of the operand, or those of the enabled elements, R64). -/
structure Access where
  seg        : SegName
  overridden : Bool
  ea         : Word64
  size       : Nat
  bytes      : List Nat
deriving DecidableEq, Repr

/-- The alignment rule of a form (R54, R55): none, 16 bytes else #GP(0), 8 bytes else #AC(0) under alignment
checking. -/
inductive AlignRule where
  | none
  | gp16
  | ac8
deriving DecidableEq, Repr

/-- Is the override one whose base Mode64 ignores (R82, U6)? -/
def Access.ignoredOverride (a : Access) : Bool := a.overridden && a.seg != .fs && a.seg != .gs

/-- #SS(0) or #GP(0) when a byte fails the check of `Linear`: #SS for the SS segment, #GP for any other, either of the
two in Mode64 under an ignored override (R56, U6). -/
def segFault (s : State) (a : Access) : Option (Word64 → Fault) :=
  if a.bytes.all (byteAllowed s a.seg a.ea) then none
  else if s.cfg.mode = .mode64 ∧ a.ignoredOverride = true then
    (if Config.freeOverrideSs s.draws then some .ss else some .gp)
  else if a.seg = .ss then some .ss
  else some .gp

/-- The bytes whose translation fails, each as #PF's error code and linear address (R57). -/
def pageFaults (s : State) (a : Access) : List (BitVec 32 × Word64) :=
  a.bytes.filterMap fun k =>
    match translateAddr s (linear s a.seg a.ea k) with
    | .ok _ => none
    | .error ec => some (ec, linear s a.seg a.ea k)

/-- #PF for one of the faulting bytes, drawn (R57, U5). -/
def pageFault (s : State) (a : Access) : Option (Word64 → Fault) :=
  match (pageFaults s a)[Config.freePageByte s.draws % (pageFaults s a).length]? with
  | none => none
  | some (ec, lin) => some (.pf ec lin)

/-- Is the linear address no multiple of `n`? -/
def misaligned (s : State) (a : Access) (n : Nat) : Bool := (linear s a.seg a.ea 0).toNat % n != 0

/-- The operand's fault, in the order of R187: segment or canonical, 16-byte alignment and #PF (either when both hold,
U4 b), then #AC. -/
def operandFault (s : State) (al : AlignRule) (a : Access) : Option (Word64 → Fault) :=
  match segFault s a with
  | some x => some x
  | none =>
    let gp16 := al = .gp16 ∧ misaligned s a 16 = true
    match pageFault s a with
    | some pf => if gp16 ∧ Config.freeAlignFirst s.draws = true then some .gp else some pf
    | none =>
      if gp16 then some .gp
      else if al = .ac8 ∧ s.alignCheck = true ∧ misaligned s a 8 = true then some .ac
      else none

/-- Does byte `k` of the operand lie in memory that is not ordinary (R63)? A byte that the segment or canonical check
or the translation turns away has no place in memory. -/
def byteInDevice (s : State) (a : Access) (k : Nat) : Bool :=
  byteAllowed s a.seg a.ea k &&
    match translateAddr s (linear s a.seg a.ea k) with
    | .ok p => s.cfg.devices.any (PhysRange.holds · p)
    | .error _ => false

/-- Does some byte of the operand, one of a masked-off element included, lie in memory that is not ordinary (R63,
U10)? -/
def inDevice (s : State) (a : Access) : Bool := (List.range a.size).any (byteInDevice s a)

/-- The byte at offset `k` of the operand. -/
def readByte (s : State) (a : Access) (k : Nat) : Byte :=
  Memory.read s.mem (physical s (linear s a.seg a.ea k)).toNat

/-- The operand, little-endian: the byte at offset `k` is bits 8k+7:8k (R51). Bytes that are not read stand as 0, and
nothing is computed from them. -/
def assemble (s : State) (a : Access) : Vec :=
  a.bytes.foldr (fun k v => setSlice v (8 * k) (readByte s a k)) 0#512

/-- The read once no fault stands in its way (R52, R63). -/
def readChecked (s : State) (a : Access) : Except Stop Vec :=
  if inDevice s a then refuse .deviceMemory else .ok (assemble s a)

/-- `MemRead` (R52): all checks of all bytes, then the bytes. -/
def memRead (s : State) (al : AlignRule) (a : Access) : Except Stop Vec :=
  match operandFault s al a with
  | some x => raise x s
  | none => readChecked s a

/-- The check for a pending x87 exception (60_exceptions.md R182): #MF when FSW.ES = 1; when the operand faults as
well, either of the two (R187, U4 a); with CR0.NE = 0 the platform reports it and the model refuses (U9). -/
def x87Check (s : State) (operand : Option (Word64 → Fault)) : Except Stop Unit :=
  if s.fswEs then
    if s.ne then
      match operand with
      | none => raise .mf s
      | some x => if Config.freeMfFirst s.draws then raise .mf s else raise x s
    else refuse .externalX87
  else .ok ()

/-! ### Enabling (R182 to R185) and completing -/

/-- #UD before #NM (R187): `ud` is the form's #UD condition, #NM is CR0.TS = 1. -/
def checkEnabled (ud : Bool) (s : State) : Except Stop Unit :=
  if ud then raise .ud s
  else if s.ts then raise .nm s
  else .ok ()

/-- The #UD condition of form 1 (R182). -/
def udMmx (s : State) : Bool := s.em || !s.cfg.feat.mmx

/-- The #UD condition of form 2 (R183). -/
def udSse2 (s : State) : Bool := s.em || !s.osfxsr || !s.cfg.feat.sse2

/-- The CPUID feature of forms 3 and 4 (R184): AVX at 128 bits, AVX2 at 256; no VEX form has 512. -/
def vexFeature (f : Features) : VecLen → Bool
  | .v128 => f.avx
  | .v256 => f.avx2
  | .v512 => false

/-- The #UD condition of forms 3 and 4 (R184, 30_encoding.md R90); a form longer than MAXVL has a false feature
condition (00_scope.md R6, D8). -/
def udVex (s : State) (vl : VecLen) : Bool :=
  s.vexBarred || !s.osxsave || s.xcr0SseAvx != 3#2 || !vexFeature s.cfg.feat vl ||
    decide (s.cfg.maxvl.bits < vl.bits)

/-- The AVX-512 side of a form's feature expression (R185). -/
def evexNative (f : Features) : VecLen → Bool
  | .v128 => f.avx512vl && f.avx512f
  | .v256 => f.avx512vl && f.avx512f
  | .v512 => f.avx512f

/-- The feature condition of forms 5 to 10 (R185): the AVX-512 features, or AVX10.1 up to AVX10_MAXVL; and no length
above MAXVL (R6, D8). -/
def evexFeature (c : Config) (vl : VecLen) : Bool :=
  (evexNative c.feat vl || (c.feat.avx10_1 && decide (vl.bits ≤ c.avx10Max.bits))) &&
    decide (vl.bits ≤ c.maxvl.bits)

/-- The #UD condition of forms 5 to 10 that the state decides (R185, 30_encoding.md R90). -/
def udEvex (s : State) (vl : VecLen) : Bool :=
  s.vexBarred || !s.osxsave || s.xcr0Avx512 != 7#3 || s.xcr0SseAvx != 3#2 || !evexFeature s.cfg vl

/-- May pc advance by `len`? In Mode64 the sum neither wraps nor leaves the canonical range; otherwise it stays below
2^32 (10_state.md R27, D4, log 13). -/
def pcAdvances (s : State) (len : Nat) : Bool :=
  match s.cfg.mode with
  | .mode64 => decide (s.pc.toNat + len < 2 ^ 64) && canonical s.cfg.vaBits (s.pc + BitVec.ofNat 64 len)
  | .mode32 => decide (s.pc.toNat + len < 2 ^ 32)
  | .mode16 => decide (s.pc.toNat + len < 2 ^ 32)

/-- `pc <- pc + len`; the model's own count of completed instructions moves on (log 10). -/
def State.advance (s : State) (len : Nat) : State :=
  { s with pc := s.pc + BitVec.ofNat 64 len, draws := s.draws + 1 }

/-- The last act of every form (R27). -/
def retire (len : Nat) (s : State) : Except Stop State :=
  if pcAdvances s len then .ok (s.advance len) else refuse .pcRange

end Sys2Proof.Machine
end

