-- ==== Sys2Proof/Machine/Operands.lean ====
section
/-! DEFINITION. Operands: register numbers (30_encoding.md R85, R86, R100), effective addresses and segments (R87 to
R92, R101), and the second source of each class of form (20_memory.md R53, R64). -/

namespace Sys2Proof.Machine

/-- A general register number: an extension bit over three bits (R87 to R89). -/
def gprNum (e : Bool) (n : BitVec 3) : BitVec 4 := BitVec.ofBool e ++ n

/-- A vector register number: two extension bits over three bits (R85, R86, R100). -/
def vecNum (e' e : Bool) (n : BitVec 3) : BitVec 5 := BitVec.ofBool e' ++ (BitVec.ofBool e ++ n)

/-- The register number of a vvvv operand (R96, R100). -/
def vvvvNum (v' : Bool) (vvvv : BitVec 4) : BitVec 5 := BitVec.ofBool v' ++ vvvv

/-! ### Effective addresses -/

/-- What an address is computed from: the address size, the extension bits X and B, the scale N of a disp8 (1 but for
EVEX forms, R101), and the address of the next instruction (R89). -/
structure AddrCtx where
  size : AddrSize
  x    : Bool
  b    : Bool
  n    : Nat
  next : Word64
deriving DecidableEq, Repr

/-- Truncation to the address size. Addition modulo 2^64 and then truncation is addition modulo the address size of
the registers' low bits (R87, R89, R90). -/
def truncAddr : AddrSize → Word64 → Word64
  | .a16, v => (v.setWidth 16).setWidth 64
  | .a32, v => (v.setWidth 32).setWidth 64
  | .a64, v => v

/-- A displacement's value, sign-extended, a disp8 scaled by N (R91, R101). -/
def dispValue (n : Nat) : Disp → Word64
  | .none => 0#64
  | .d8 v => v.signExtend 64 * BitVec.ofNat 64 n
  | .d32 v => v.signExtend 64

/-- A 16-bit-addressing displacement's value (R90, R91, R101). -/
def disp16Value (n : Nat) : Disp16 → Word64
  | .none => 0#64
  | .d8 v => v.signExtend 64 * BitVec.ofNat 64 n
  | .d16 v => v.signExtend 64

/-- The index of a SIB byte times its factor; X:index = 0100 means no index (R88). -/
def indexValue (s : State) (x : Bool) (ss : BitVec 2) (index : BitVec 3) : Word64 :=
  if gprNum x index = 4#4 then 0#64 else s.getGpr (gprNum x index) <<< ss.toNat

/-- The register sum of a row of the 16-bit table: BX 3, BP 5, SI 6, DI 7 (R90). -/
def base16Value (s : State) (rm : BitVec 3) : Word64 :=
  if rm = 0#3 then s.getGpr 3#4 + s.getGpr 6#4
  else if rm = 1#3 then s.getGpr 3#4 + s.getGpr 7#4
  else if rm = 2#3 then s.getGpr 5#4 + s.getGpr 6#4
  else if rm = 3#3 then s.getGpr 5#4 + s.getGpr 7#4
  else if rm = 4#3 then s.getGpr 6#4
  else if rm = 5#3 then s.getGpr 7#4
  else if rm = 6#3 then s.getGpr 5#4
  else s.getGpr 3#4

/-- The sum an address form names, before truncation (R87 to R90). -/
def addrSum (s : State) (c : AddrCtx) : Mem → Word64
  | .base rm d => s.getGpr (gprNum c.b rm) + dispValue c.n d
  | .disp v => (if s.cfg.mode = .mode64 then c.next else 0#64) + v.signExtend 64
  | .sib ss index b d => s.getGpr (gprNum c.b b) + indexValue s c.x ss index + dispValue c.n d
  | .sibNoBase ss index v => indexValue s c.x ss index + v.signExtend 64
  | .base16 rm d => base16Value s rm + disp16Value c.n d
  | .disp16 v => v.signExtend 64

/-- The effective address `ea`. -/
def effAddr (s : State) (c : AddrCtx) (m : Mem) : Word64 := truncAddr c.size (addrSum s c m)

/-- The default segment: SS when the base is register 4 or 5 with B = 0, or BP in the 16-bit table; DS otherwise
(R92). -/
def defaultSeg (b : Bool) : Mem → SegName
  | .base rm _ => if b = false ∧ (rm = 4#3 ∨ rm = 5#3) then .ss else .ds
  | .disp _ => .ds
  | .sib _ _ bs _ => if b = false ∧ (bs = 4#3 ∨ bs = 5#3) then .ss else .ds
  | .sibNoBase _ _ _ => .ds
  | .base16 rm _ => if rm = 2#3 ∨ rm = 3#3 ∨ rm = 6#3 then .ss else .ds
  | .disp16 _ => .ds

/-- The access a memory operand of `size` bytes makes to the bytes at the given offsets. -/
def access (s : State) (p : Pfx) (c : AddrCtx) (size : Nat) (bytes : List Nat) (m : Mem) : Access where
  seg        := p.seg.getD (defaultSeg c.b m)
  overridden := p.seg.isSome
  ea         := effAddr s c m
  size       := size
  bytes      := bytes

/-- The address of the next instruction. -/
def nextPc (s : State) (len : Nat) : Word64 := s.pc + BitVec.ofNat 64 len

/-! ### Second sources -/

/-- The extension bits REX.X and REX.B, 0 with no REX (R83). -/
def LegacyOp.xBit (o : LegacyOp) : Bool := (o.rex.map Rex.x).getD false
/-- REX.B. -/
def LegacyOp.bBit (o : LegacyOp) : Bool := (o.rex.map Rex.b).getD false
/-- REX.R. -/
def LegacyOp.rBit (o : LegacyOp) : Bool := (o.rex.map Rex.r).getD false

/-- What a legacy form's address is computed from. -/
def LegacyOp.ctx (o : LegacyOp) (s : State) (len : Nat) : AddrCtx :=
  ⟨addrSize s.cfg.mode o.pfx.a67, LegacyOp.xBit o, LegacyOp.bBit o, 1, nextPc s len⟩

/-- The 8-byte access of form 1's memory operand (20_memory.md R53). -/
def mmAccess (s : State) (o : LegacyOp) (m : Mem) : Access :=
  access s o.pfx (LegacyOp.ctx o s (o.len false)) 8 (List.range 8) m

/-- Form 1's second source, mm/m64, with the #MF check before it (R130, 60_exceptions.md R182, R187). REX.B names no
MMX register (R86). -/
def mmSource (s : State) (o : LegacyOp) : Except Stop Word64 :=
  match o.rm with
  | .reg r => do
    x87Check s none
    .ok (s.getMm r)
  | .mem m => do
    x87Check s (operandFault s .ac8 (mmAccess s o m))
    let v ← memRead s .ac8 (mmAccess s o m)
    .ok (slice v 0 64)

/-- The 16-byte access of form 2's memory operand. -/
def xmmAccess (s : State) (o : LegacyOp) (m : Mem) : Access :=
  access s o.pfx (LegacyOp.ctx o s (o.len true)) 16 (List.range 16) m

/-- Form 2's second source, xmm2/m128, the memory operand 16-byte aligned (R140, 20_memory.md R54). -/
def xmmSource (s : State) (o : LegacyOp) : Except Stop Vec :=
  match o.rm with
  | .reg r => .ok (s.getZ (vecNum false (LegacyOp.bBit o) r))
  | .mem m => memRead s .gp16 (xmmAccess s o m)

/-- The access of a VEX form's memory operand: 16 or 32 bytes (20_memory.md R53). -/
def vexAccess (s : State) (p : Pfx) (x b : Bool) (len : Nat) (vl : VecLen) (m : Mem) : Access :=
  access s p ⟨addrSize s.cfg.mode p.a67, x, b, 1, nextPc s len⟩ vl.bytes (List.range vl.bytes) m

/-- The second source of forms 3 and 4, with no alignment rule (R150, R151). -/
def vexSource (s : State) (p : Pfx) (x b : Bool) (len : Nat) (vl : VecLen) : Rm → Except Stop Vec
  | .reg r => .ok (s.getZ (vecNum false b r))
  | .mem m => memRead s .none (vexAccess s p x b len vl m)

/-- Is element `j` enabled? `aaa = 000` is no writemask (43_vpandd_vpandq_evex.md R166, 10_state.md R25). -/
def enabled (s : State) (o : EvexOp) (j : Nat) : Bool := o.aaa == 0#3 || (s.getK o.aaa).getLsbD j

/-- Is some element enabled? -/
def someEnabled (s : State) (o : EvexOp) (es : ElemSize) (vl : VecLen) : Bool :=
  (List.range (vl.elems es)).any (enabled s o)

/-- The offsets an EVEX form's memory operand is read at: one element when it is broadcast and some element is
enabled; otherwise the bytes of the enabled elements (20_memory.md R53, R64). -/
def evexBytes (s : State) (o : EvexOp) (es : ElemSize) (vl : VecLen) : List Nat :=
  if o.bc then (if someEnabled s o es vl then List.range es.bytes else [])
  else (List.range vl.bytes).filter fun k => enabled s o (k / es.bytes)

/-- The size of an EVEX form's memory operand: the vector's bytes, or the element's with broadcast (20_memory.md R53). -/
def evexSize (o : EvexOp) (es : ElemSize) (vl : VecLen) : Nat := if o.bc then es.bytes else vl.bytes

/-- The scale N of a disp8, tuple type Full: the vector's bytes, or the element's with broadcast (R101). -/
def disp8Scale (o : EvexOp) (es : ElemSize) (vl : VecLen) : Nat := if o.bc then es.bytes else vl.bytes

/-- The access of an EVEX form's memory operand. -/
def evexAccess (s : State) (o : EvexOp) (es : ElemSize) (vl : VecLen) (m : Mem) : Access :=
  access s o.pfx ⟨addrSize s.cfg.mode o.pfx.a67, o.x, o.b, disp8Scale o es vl, nextPc s o.len⟩
    (evexSize o es vl) (evexBytes s o es vl) m

/-- The second source of an EVEX form: a vector, or one broadcast element (R166). -/
inductive Src2 where
  | vector (v : Vec)
  | broadcast (v : Vec)
deriving DecidableEq, Repr

/-- Element `j` of it: "SRC2[i+31:i]", or "SRC2[31:0]" when it is broadcast (R166). -/
def Src2.elem (es : ElemSize) (j : Nat) : Src2 → BitVec es.bits
  | .vector v => slice v (j * es.bits) es.bits
  | .broadcast v => slice v 0 es.bits

/-- The second source of forms 5 to 10, with no alignment rule (R166). -/
def evexSource (s : State) (o : EvexOp) (es : ElemSize) (vl : VecLen) : Except Stop Src2 :=
  match o.rm with
  | .reg r => .ok (.vector (s.getZ (vecNum o.x o.b r)))
  | .mem m => do
    let v ← memRead s .none (evexAccess s o es vl m)
    .ok (if o.bc then .broadcast v else .vector v)

end Sys2Proof.Machine
end

