-- ==== Sys2Proof/Machine/Pand.lean ====
section
/-! DEFINITION. The legacy forms: form 1, PAND mm, mm/m64 (40_pand_mmx.md R130), and form 2, PAND xmm1, xmm2/m128
(41_pand_sse2.md R140). -/

namespace Sys2Proof.Machine

/-- PAND mm, mm/m64 (R130): MM[d] <- MM[d] AND src, with the x87 effects of R22. -/
def execPandMm (o : LegacyOp) (s : State) : Host.Outcome State Fault Refusal :=
  finish do
    checkEnabled (udMmx s) s
    let src ← mmSource s o
    retire (o.len false) (s.writeMm o.reg (s.getMm o.reg &&& src))

/-- The destination of form 2, `Z[REX.R:ModRM.reg]` (R85). -/
def xmmDest (o : LegacyOp) : BitVec 5 := vecNum false (LegacyOp.rBit o) o.reg

/-- PAND xmm1, xmm2/m128 (R140): Z[d][127:0] <- Z[d][127:0] AND src, the upper bits kept. -/
def execPandXmm (o : LegacyOp) (s : State) : Host.Outcome State Fault Refusal :=
  finish do
    checkEnabled (udSse2 s) s
    let src ← xmmSource s o
    let old := s.getZ (xmmDest o)
    retire (o.len true) (s.writeZ (xmmDest o) (setSlice old 0 (slice old 0 128 &&& slice src 0 128)))

end Sys2Proof.Machine
end

