-- ==== Sys2Proof/Machine/Vpand.lean ====
section
/-! DEFINITION. The VEX forms: form 3, VPAND xmm, and form 4, VPAND ymm, each in its two-byte and its three-byte
encoding (42_vpand_vex.md R150, R151). -/

namespace Sys2Proof.Machine

/-- VPAND at a vector length: Z[d][VL-1:0] <- SRC1 AND SRC2, the upper bits zeroed (R150, R151). -/
def vpand (vl : VecLen) (d v : BitVec 5) (p : Pfx) (x b : Bool) (len : Nat) (rm : Rm) (s : State) :
    Except Stop State := do
  checkEnabled (udVex s vl) s
  let src2 ← vexSource s p x b len vl rm
  retire len (s.writeZ d (zext (slice (s.getZ v) 0 vl.bits &&& slice src2 0 vl.bits)))

/-- VPAND xmm1, xmm2, xmm3/m128, two-byte VEX (R150, 30_encoding.md R93). -/
def execVpandXmmVex2 (o : Vex2Op) (s : State) : Host.Outcome State Fault Refusal :=
  finish (vpand .v128 (vecNum false o.r o.reg) (vvvvNum false o.vvvv) o.pfx false false o.len o.rm s)

/-- VPAND xmm1, xmm2, xmm3/m128, three-byte VEX (R150, R94); W is ignored (R96). -/
def execVpandXmmVex3 (o : Vex3Op) (s : State) : Host.Outcome State Fault Refusal :=
  finish (vpand .v128 (vecNum false o.r o.reg) (vvvvNum false o.vvvv) o.pfx o.x o.b o.len o.rm s)

/-- VPAND ymm1, ymm2, ymm3/m256, two-byte VEX (R151, R93). -/
def execVpandYmmVex2 (o : Vex2Op) (s : State) : Host.Outcome State Fault Refusal :=
  finish (vpand .v256 (vecNum false o.r o.reg) (vvvvNum false o.vvvv) o.pfx false false o.len o.rm s)

/-- VPAND ymm1, ymm2, ymm3/m256, three-byte VEX (R151, R94); W is ignored (R96). -/
def execVpandYmmVex3 (o : Vex3Op) (s : State) : Host.Outcome State Fault Refusal :=
  finish (vpand .v256 (vecNum false o.r o.reg) (vvvvNum false o.vvvv) o.pfx o.x o.b o.len o.rm s)

end Sys2Proof.Machine
end

