-- ==== Sys2Proof/Machine/VpandEvex.lean ====
section
/-! DEFINITION. The EVEX forms: VPANDD (forms 5 to 7, R160 to R162) and VPANDQ (forms 8 to 10, R163 to R165), which
share the algorithm of 43_vpandd_vpandq_evex.md R166. -/

namespace Sys2Proof.Machine

/-- The loop of R166 over elements 0 to `n - 1` of the destination: an enabled element is the AND of its sources, a
disabled one stays under merging-masking (`z` false) and is 0 under zeroing-masking. -/
def maskedAnd (es : ElemSize) (en : Nat → Bool) (z : Bool) (a : Vec) (b : Src2) (old : Vec) : Nat → Vec
  | 0 => old
  | j + 1 =>
    setSlice (maskedAnd es en z a b old j) (j * es.bits)
      (if en j then slice a (j * es.bits) es.bits &&& b.elem es j
       else if z then 0#es.bits
       else slice old (j * es.bits) es.bits)

/-- The destination of an EVEX form, `Z[R':R:ModRM.reg]` (30_encoding.md R100). -/
def evexDest (o : EvexOp) : BitVec 5 := vecNum o.r' o.r o.reg

/-- The first source of an EVEX form, `Z[V':vvvv]` (R100). -/
def evexSrc1 (o : EvexOp) : BitVec 5 := vvvvNum o.v' o.vvvv

/-- EVEX_AND(ES, VL, …) of R166, DEST[MAXVL-1:VL] zeroed. -/
def evexAnd (es : ElemSize) (vl : VecLen) (o : EvexOp) (s : State) : Except Stop State := do
  checkEnabled (udEvex s vl || o.violation) s
  let src2 ← evexSource s o es vl
  let dest := maskedAnd es (enabled s o) o.z (s.getZ (evexSrc1 o)) src2 (s.getZ (evexDest o)) (vl.elems es)
  retire o.len (s.writeZ (evexDest o) (zext (slice dest 0 vl.bits)))

/-- VPANDD xmm1 {k1}{z}, xmm2, xmm3/m128/m32bcst (R160). -/
def execVpanddXmm (o : EvexOp) (s : State) : Host.Outcome State Fault Refusal := finish (evexAnd .e32 .v128 o s)

/-- VPANDD ymm1 {k1}{z}, ymm2, ymm3/m256/m32bcst (R161). -/
def execVpanddYmm (o : EvexOp) (s : State) : Host.Outcome State Fault Refusal := finish (evexAnd .e32 .v256 o s)

/-- VPANDD zmm1 {k1}{z}, zmm2, zmm3/m512/m32bcst (R162). -/
def execVpanddZmm (o : EvexOp) (s : State) : Host.Outcome State Fault Refusal := finish (evexAnd .e32 .v512 o s)

/-- VPANDQ xmm1 {k1}{z}, xmm2, xmm3/m128/m64bcst (R163). -/
def execVpandqXmm (o : EvexOp) (s : State) : Host.Outcome State Fault Refusal := finish (evexAnd .e64 .v128 o s)

/-- VPANDQ ymm1 {k1}{z}, ymm2, ymm3/m256/m64bcst (R164). -/
def execVpandqYmm (o : EvexOp) (s : State) : Host.Outcome State Fault Refusal := finish (evexAnd .e64 .v256 o s)

/-- VPANDQ zmm1 {k1}{z}, zmm2, zmm3/m512/m64bcst (R165). -/
def execVpandqZmm (o : EvexOp) (s : State) : Host.Outcome State Fault Refusal := finish (evexAnd .e64 .v512 o s)

end Sys2Proof.Machine
end

