-- ==== Sys2Proof/Machine/Dispatch.lean ====
section
/-! DEFINITION. One arm for each constructor of Instr. -/

namespace Sys2Proof.Machine

/-- The effect of an instruction on a state in whose mode it is well formed (`step` gives it no other). -/
def exec (i : Instr) (s : State) : Host.Outcome State Fault Refusal :=
  match i with
  | .pandMm o => Sys2Proof.Machine.execPandMm o s
  | .pandXmm o => Sys2Proof.Machine.execPandXmm o s
  | .vpandXmmVex2 o => Sys2Proof.Machine.execVpandXmmVex2 o s
  | .vpandXmmVex3 o => Sys2Proof.Machine.execVpandXmmVex3 o s
  | .vpandYmmVex2 o => Sys2Proof.Machine.execVpandYmmVex2 o s
  | .vpandYmmVex3 o => Sys2Proof.Machine.execVpandYmmVex3 o s
  | .vpanddXmm o => Sys2Proof.Machine.execVpanddXmm o s
  | .vpanddYmm o => Sys2Proof.Machine.execVpanddYmm o s
  | .vpanddZmm o => Sys2Proof.Machine.execVpanddZmm o s
  | .vpandqXmm o => Sys2Proof.Machine.execVpandqXmm o s
  | .vpandqYmm o => Sys2Proof.Machine.execVpandqYmm o s
  | .vpandqZmm o => Sys2Proof.Machine.execVpandqZmm o s

end Sys2Proof.Machine
end

