-- ==== Sys2Proof/Machine/Fetch.lean ====
section
/-! DEFINITION. Fetching an instruction's bytes, and placing them for the next fetch. The bytes of a program stand in
memory (20_memory.md R50, R51); faults of the fetch are outside the spec (60_exceptions.md R187 item 1), so a byte
that cannot be fetched ends the bytes (log 7). -/

namespace Sys2Proof.Machine

/-- The linear address of byte `k` from pc: CS:pc (10_state.md R27, R35). -/
def fetchLinear (s : State) (k : Nat) : Word64 := linear s .cs s.pc k

/-- May byte `k` from pc be fetched? Canonical in Mode64, inside the CS limit otherwise (R27). -/
def fetchAllowed (s : State) (k : Nat) : Bool :=
  match s.cfg.mode with
  | .mode64 => canonical s.cfg.vaBits (fetchLinear s k)
  | .mode32 => decide (s.pc.toNat + k ≤ s.cs.limit.toNat)
  | .mode16 => decide (s.pc.toNat + k ≤ s.cs.limit.toNat)

/-- Byte `k` from pc, if it can be fetched. -/
def fetchByte (s : State) (k : Nat) : Option Byte :=
  if fetchAllowed s k then
    match translateAddr s (fetchLinear s k) with
    | .ok p => some (Memory.read s.mem p.toNat)
    | .error _ => none
  else none

/-- At most `fuel` bytes from byte `k` on, up to the first that cannot be fetched. -/
def fetchFrom (s : State) : Nat → Nat → List Byte
  | 0, _ => []
  | fuel + 1, k =>
    match fetchByte s k with
    | none => []
    | some b => b :: fetchFrom s fuel (k + 1)

/-- The bytes at pc, at most 15 (30_encoding.md R80). -/
def fetchBytes (s : State) : List Byte := fetchFrom s maxLen 0

/-- Memory with bytes `f 0` to `f (n - 1)` stored where `s` fetches them. -/
def placeBytes (s : State) (f : Nat → Byte) : Nat → List Host.Cell
  | 0 => s.mem
  | n + 1 =>
    match translateAddr s (fetchLinear s n) with
    | .ok p => Memory.write (placeBytes s f n) p.toNat (f n)
    | .error _ => placeBytes s f n

/-- The outcome of a decoded #UD: the same as any other #UD (60_exceptions.md R188). -/
def decodeUd (s : State) : Host.Outcome State Fault Refusal := finish (raise .ud s)

/-- The outcome of an instruction of more than 15 bytes, #GP(0) (30_encoding.md R102, 60_exceptions.md R187). -/
def decodeTooLong (s : State) : Host.Outcome State Fault Refusal := finish (raise .gp s)

end Sys2Proof.Machine
end

