-- ==== Sys2Proof/Machine/Reset.lean ====
section
/-! DEFINITION. INIT, the second column of the reset table (10_state.md R35): an act from outside, which no step of the
model performs (log 25). RESET is `State.resetOf` in Machine/State.lean. -/

namespace Sys2Proof.Machine

/-- CR0 after INIT: 60000010H, but CD (bit 30) and NW (bit 29) keep their values (R35). -/
def cr0AfterInit (cr0 : Word64) : Word64 := 0x10#64 ||| (cr0 &&& 0x60000000#64)

/-- XCR0 after INIT: unspecified (U13), so a free value, but for bit 0, which is always 1 (R30). -/
def xcr0AfterInit (draws : Nat) : Word64 := Config.freeXcr0 draws ||| 1#64

/-- The state after INIT (R35): the x87, MMX, vector and opmask state, MXCSR and memory unchanged, the rest as after
RESET. -/
def State.afterInit (s : State) : State :=
  { State.resetOf s.cfg with
    mm    := s.mm
    stExp := s.stExp
    fsw   := s.fsw
    ftw   := s.ftw
    fcw   := s.fcw
    fip   := s.fip
    fdp   := s.fdp
    z     := s.z
    k     := s.k
    mxcsr := s.mxcsr
    cr0   := cr0AfterInit s.cr0
    xcr0  := xcr0AfterInit s.draws
    mem   := s.mem
    draws := s.draws + 1 }

end Sys2Proof.Machine
end

