-- ==== Sys2Proof/Machine/Step.lean ====
section
/-! DEFINITION. One step: fetch the bytes at pc, decode them in the mode, execute (20_memory.md R67). -/

namespace Sys2Proof.Machine

/-- One step of the processor (R67, 60_exceptions.md R187, R188). -/
def step (s : State) : Host.Outcome State Fault Refusal :=
  match decode s.cfg.mode (fetchBytes s) with
  | .instr i _ => exec i s
  | .ud _ => decodeUd s
  | .tooLong => decodeTooLong s
  | .reject r => .refused (.undecoded r)

/-- `s` with a table word stored where the next fetch reads, in the mode table words are read in, Mode64 (log 21, log
22). -/
def State.withFetchWord (s : State) (nbits w : Nat) : State :=
  let t := { s with cfg := { s.cfg with mode := .mode64 } }
  { t with mem := placeBytes t (wordByte nbits w) maxLen }

end Sys2Proof.Machine
end

