-- ==== Sys2Proof/Safety.lean ====
section
/-! DEFINITION. The terms statements are made in: the invariant of the machine, what each instruction writes, when it is
enabled, what its memory operand touches, and when that operand can be read. -/

namespace Sys2Proof.Machine

/-! ### The invariant -/

/-- Registers 16 to 31 exist (10_state.md R24). -/
def Config.hasHighVecs (c : Config) : Bool := c.maxvl == .v512 || c.feat.avx512vl || c.feat.avx10_1

/-- No admitted form is longer than MAXVL (00_scope.md R6, D8; A13 and E16 of 95_test_vectors.md). -/
abbrev Config.LengthsFit (c : Config) : Prop :=
  ((c.feat.avx = true ∨ c.feat.avx2 = true ∨ c.feat.avx10_1 = true) → 256 ≤ c.maxvl.bits) ∧
  (c.feat.avx512f = true → c.maxvl = .v512) ∧
  (c.feat.avx10_1 = true → c.avx10Max.bits ≤ c.maxvl.bits)

/-- The parameter `mode` agrees with the registers that select it (10_state.md R30): with IA32_EFER.LMA and CS.L in
protected mode, 64-bit mode; otherwise CS.D selects 32 or 16 bits; real-address and virtual-8086 mode are 16-bit. R30
says nothing of CS.L = 1 with IA32_EFER.LMA = 0: CS.L is ignored there and CS.D decides (log 3). -/
abbrev State.ModeAgrees (s : State) : Prop :=
  s.cfg.mode =
    if s.realOrVm then .mode16
    else if s.lma && s.cs.l then .mode64
    else if s.cs.d then .mode32
    else .mode16

/-- pc is a 32-bit value outside Mode64, and canonical in it (10_state.md R27). -/
abbrev State.PcFits (s : State) : Prop :=
  match s.cfg.mode with
  | .mode64 => canonical s.cfg.vaBits s.pc = true
  | .mode32 => s.pc.toNat < 2 ^ 32
  | .mode16 => s.pc.toNat < 2 ^ 32

/-- What every reachable state keeps: memory canonical, register bits and registers the processor lacks at zero
(R23 to R25), pc within its width (R27), XCR0 bit 0 set (R30). -/
structure State.Inv (s : State) : Prop where
  mem       : Memory.wf s.mem = true
  vecBits   : ∀ d : BitVec 5, ∀ i, s.cfg.maxvl.bits ≤ i → (s.getZ d).getLsbD i = false
  highVecs  : Config.hasHighVecs s.cfg = false → ∀ d : BitVec 5, 16 ≤ d.toNat → s.getZ d = 0#512
  opmasks   : ∀ j : BitVec 3, ∀ i, s.cfg.kw.bits ≤ i → (s.getK j).getLsbD i = false
  pc        : s.PcFits
  xcr0      : s.xcr0.getLsbD 0 = true

/-! ### What an instruction is about -/

/-- The physical x87 data register R[i]: `MM[i]` is its bits 63:0, ST_EXP[i] its bits 79:64 (10_state.md R22 a). -/
def State.x87Reg (s : State) (i : BitVec 3) : BitVec 80 := (s.stExp[i.toNat]'i.isLt) ++ s.getMm i

/-- The ModRM:reg field of an instruction (30_encoding.md R85). -/
def regField : Instr → BitVec 3
  | .pandMm o       => o.reg
  | .pandXmm o      => o.reg
  | .vpandXmmVex2 o => o.reg
  | .vpandXmmVex3 o => o.reg
  | .vpandYmmVex2 o => o.reg
  | .vpandYmmVex3 o => o.reg
  | .vpanddXmm o    => o.reg
  | .vpanddYmm o    => o.reg
  | .vpanddZmm o    => o.reg
  | .vpandqXmm o    => o.reg
  | .vpandqYmm o    => o.reg
  | .vpandqZmm o    => o.reg

/-- The ModRM:r/m operand of an instruction (R86). -/
def rmField : Instr → Rm
  | .pandMm o       => o.rm
  | .pandXmm o      => o.rm
  | .vpandXmmVex2 o => o.rm
  | .vpandXmmVex3 o => o.rm
  | .vpandYmmVex2 o => o.rm
  | .vpandYmmVex3 o => o.rm
  | .vpanddXmm o    => o.rm
  | .vpanddYmm o    => o.rm
  | .vpanddZmm o    => o.rm
  | .vpandqXmm o    => o.rm
  | .vpandqYmm o    => o.rm
  | .vpandqZmm o    => o.rm

/-- The prefixes of an instruction (R82). -/
def pfxField : Instr → Pfx
  | .pandMm o       => o.pfx
  | .pandXmm o      => o.pfx
  | .vpandXmmVex2 o => o.pfx
  | .vpandXmmVex3 o => o.pfx
  | .vpandYmmVex2 o => o.pfx
  | .vpandYmmVex3 o => o.pfx
  | .vpanddXmm o    => o.pfx
  | .vpanddYmm o    => o.pfx
  | .vpanddZmm o    => o.pfx
  | .vpandqXmm o    => o.pfx
  | .vpandqYmm o    => o.pfx
  | .vpandqZmm o    => o.pfx

/-- The extension bit B of a base register: REX.B, VEX.B (0 with two bytes) or EVEX.B (R83, R93, R94, R100). -/
def bField : Instr → Bool
  | .pandMm o       => (o.rex.map Rex.b).getD false
  | .pandXmm o      => (o.rex.map Rex.b).getD false
  | .vpandXmmVex2 _ => false
  | .vpandXmmVex3 o => o.b
  | .vpandYmmVex2 _ => false
  | .vpandYmmVex3 o => o.b
  | .vpanddXmm o    => o.b
  | .vpanddYmm o    => o.b
  | .vpanddZmm o    => o.b
  | .vpandqXmm o    => o.b
  | .vpandqYmm o    => o.b
  | .vpandqZmm o    => o.b

/-- The extension bit X of an index register. -/
def xField : Instr → Bool
  | .pandMm o       => (o.rex.map Rex.x).getD false
  | .pandXmm o      => (o.rex.map Rex.x).getD false
  | .vpandXmmVex2 _ => false
  | .vpandXmmVex3 o => o.x
  | .vpandYmmVex2 _ => false
  | .vpandYmmVex3 o => o.x
  | .vpanddXmm o    => o.x
  | .vpanddYmm o    => o.x
  | .vpanddZmm o    => o.x
  | .vpandqXmm o    => o.x
  | .vpandqYmm o    => o.x
  | .vpandqZmm o    => o.x

/-- The scale N of a disp8: 1 for legacy and VEX forms; for EVEX forms 16, 32 or 64 by length, or with broadcast 4
(VPANDD) or 8 (VPANDQ) (R101). -/
def scaleField : Instr → Nat
  | .pandMm _       => 1
  | .pandXmm _      => 1
  | .vpandXmmVex2 _ => 1
  | .vpandXmmVex3 _ => 1
  | .vpandYmmVex2 _ => 1
  | .vpandYmmVex3 _ => 1
  | .vpanddXmm o    => if o.bc then 4 else 16
  | .vpanddYmm o    => if o.bc then 4 else 32
  | .vpanddZmm o    => if o.bc then 4 else 64
  | .vpandqXmm o    => if o.bc then 8 else 16
  | .vpandqYmm o    => if o.bc then 8 else 32
  | .vpandqZmm o    => if o.bc then 8 else 64

/-- The vector register an instruction of forms 2 to 10 writes (30_encoding.md R85, R100). -/
def vecDest : Instr → Option (BitVec 5)
  | .pandMm _       => none
  | .pandXmm o      => some (xmmDest o)
  | .vpandXmmVex2 o => some (vecNum false o.r o.reg)
  | .vpandXmmVex3 o => some (vecNum false o.r o.reg)
  | .vpandYmmVex2 o => some (vecNum false o.r o.reg)
  | .vpandYmmVex3 o => some (vecNum false o.r o.reg)
  | .vpanddXmm o    => some (evexDest o)
  | .vpanddYmm o    => some (evexDest o)
  | .vpanddZmm o    => some (evexDest o)
  | .vpandqXmm o    => some (evexDest o)
  | .vpandqYmm o    => some (evexDest o)
  | .vpandqZmm o    => some (evexDest o)

/-- The six EVEX instructions, by element size and vector length (43_vpandd_vpandq_evex.md). -/
def evexInstr : ElemSize → VecLen → EvexOp → Instr
  | .e32, .v128 => .vpanddXmm
  | .e32, .v256 => .vpanddYmm
  | .e32, .v512 => .vpanddZmm
  | .e64, .v128 => .vpandqXmm
  | .e64, .v256 => .vpandqYmm
  | .e64, .v512 => .vpandqZmm

/-- The VEX instructions of a three-byte encoding, at 128 and 256 bits. -/
def vex3Instr (wide : Bool) : Vex3Op → Instr := if wide then .vpandYmmVex3 else .vpandXmmVex3

/-- The VEX instructions of a two-byte encoding, at 128 and 256 bits. -/
def vex2Instr (wide : Bool) : Vex2Op → Instr := if wide then .vpandYmmVex2 else .vpandXmmVex2

/-- Their vector length. -/
def vexLen (wide : Bool) : VecLen := if wide then .v256 else .v128

/-- The #UD condition of each form that the decoder does not answer, as the tables of 60_exceptions.md R182 to R185 give
it. -/
def udCondition (s : State) : Instr → Bool
  | .pandMm _       => udMmx s
  | .pandXmm _      => udSse2 s
  | .vpandXmmVex2 _ => udVex s .v128
  | .vpandXmmVex3 _ => udVex s .v128
  | .vpandYmmVex2 _ => udVex s .v256
  | .vpandYmmVex3 _ => udVex s .v256
  | .vpanddXmm o    => udEvex s .v128 || o.violation
  | .vpanddYmm o    => udEvex s .v256 || o.violation
  | .vpanddZmm o    => udEvex s .v512 || o.violation
  | .vpandqXmm o    => udEvex s .v128 || o.violation
  | .vpandqYmm o    => udEvex s .v256 || o.violation
  | .vpandqZmm o    => udEvex s .v512 || o.violation

/-- The memory operand's alignment rule and access, when the operand is memory (20_memory.md R53, R54, R64). -/
def memOperand (s : State) : Instr → Option (AlignRule × Access)
  | .pandMm o       => match o.rm with | .reg _ => none | .mem m => some (.ac8, mmAccess s o m)
  | .pandXmm o      => match o.rm with | .reg _ => none | .mem m => some (.gp16, xmmAccess s o m)
  | .vpandXmmVex2 o => match o.rm with
    | .reg _ => none
    | .mem m => some (.none, vexAccess s o.pfx false false o.len .v128 m)
  | .vpandXmmVex3 o => match o.rm with
    | .reg _ => none
    | .mem m => some (.none, vexAccess s o.pfx o.x o.b o.len .v128 m)
  | .vpandYmmVex2 o => match o.rm with
    | .reg _ => none
    | .mem m => some (.none, vexAccess s o.pfx false false o.len .v256 m)
  | .vpandYmmVex3 o => match o.rm with
    | .reg _ => none
    | .mem m => some (.none, vexAccess s o.pfx o.x o.b o.len .v256 m)
  | .vpanddXmm o    => match o.rm with | .reg _ => none | .mem m => some (.none, evexAccess s o .e32 .v128 m)
  | .vpanddYmm o    => match o.rm with | .reg _ => none | .mem m => some (.none, evexAccess s o .e32 .v256 m)
  | .vpanddZmm o    => match o.rm with | .reg _ => none | .mem m => some (.none, evexAccess s o .e32 .v512 m)
  | .vpandqXmm o    => match o.rm with | .reg _ => none | .mem m => some (.none, evexAccess s o .e64 .v128 m)
  | .vpandqYmm o    => match o.rm with | .reg _ => none | .mem m => some (.none, evexAccess s o .e64 .v256 m)
  | .vpandqZmm o    => match o.rm with | .reg _ => none | .mem m => some (.none, evexAccess s o .e64 .v512 m)

/-- A pending x87 exception stands in the way of form 1 and of no other (60_exceptions.md R182 to R185). -/
def x87Stops (s : State) : Instr → Bool
  | .pandMm _       => s.fswEs
  | .pandXmm _      => false
  | .vpandXmmVex2 _ => false
  | .vpandXmmVex3 _ => false
  | .vpandYmmVex2 _ => false
  | .vpandYmmVex3 _ => false
  | .vpanddXmm _    => false
  | .vpanddYmm _    => false
  | .vpanddZmm _    => false
  | .vpandqXmm _    => false
  | .vpandqYmm _    => false
  | .vpandqZmm _    => false

/-! ### What an address is computed from -/

/-- The address size in bits: the mode's default, or the other one under the prefix 67 (30_encoding.md R82, R87, R89,
R90). -/
def addrWidth (s : State) (i : Instr) : Nat :=
  match s.cfg.mode with
  | .mode64 => if (pfxField i).a67 then 32 else 64
  | .mode32 => if (pfxField i).a67 then 16 else 32
  | .mode16 => if (pfxField i).a67 then 32 else 16

/-- The low `w` bits of the general register an extension bit and three bits name (R87 to R90). -/
def gprLow (s : State) (w : Nat) (e : Bool) (n : BitVec 3) : BitVec w :=
  (s.getGpr (BitVec.ofBool e ++ n)).setWidth w

/-- A displacement sign-extended to the address size, a disp8 times `n` (R91, R101). -/
def dispLow (w n : Nat) : Disp → BitVec w
  | .none => 0#w
  | .d8 v => v.signExtend w * BitVec.ofNat w n
  | .d32 v => v.signExtend w

/-- A displacement of 16-bit addressing, a disp8 times `n` (R90, R91, R101). -/
def disp16Low (n : Nat) : Disp16 → BitVec 16
  | .none => 0#16
  | .d8 v => v.signExtend 16 * BitVec.ofNat 16 n
  | .d16 v => v

/-- An index times its factor; X:index = 0100 is no index (R88). -/
def indexLow (s : State) (w : Nat) (x : Bool) (ss : BitVec 2) (index : BitVec 3) : BitVec w :=
  if x = false ∧ index = 4#3 then 0#w else gprLow s w x index * BitVec.ofNat w (2 ^ ss.toNat)

/-- The segment of an instruction's memory operand: the override's, or SS where the form's base is the stack or frame
pointer and DS where not (R82, R92). -/
def segOf (i : Instr) (stackBase : Bool) : SegName := (pfxField i).seg.getD (if stackBase then .ss else .ds)

/-- A base register of number 4 or 5 with extension bit 0: (E/R)SP or (E/R)BP (R92). -/
def stackBase (i : Instr) (base : BitVec 3) : Bool := !bField i && (base == 4#3 || base == 5#3)

/-- What the decoder answers for an instruction that is #UD, in the bytes `bs` from pc, `tail` being those from its ModRM
byte on (R102, 60_exceptions.md R187 items 1 and 2): #UD when all its bytes are there, #GP(0) when they are more than
15, and a refusal when the bytes end, before the 15th, inside it. -/
def udAnswer (sz : AddrSize) (bs tail : List Byte) : Decoded :=
  match takeModRM sz tail with
  | some (_, _, rest) => if 15 < bs.length - rest.length then .tooLong else .ud rest
  | none => if 15 ≤ bs.length then .tooLong else .reject .truncated

/-- The bytes of one group of legacy prefixes, no two of which a model takes (R82, D16; LOCK stands alone, log 15). -/
def pfxGroups : List (List Byte) :=
  [[0x26#8, 0x2E#8, 0x36#8, 0x3E#8, 0x64#8, 0x65#8], [0x66#8], [0x67#8], [0xF2#8, 0xF3#8], [0xF0#8]]

/-! ### When a memory operand can be read -/

/-- Every byte of the access passes the segment or canonical check (20_memory.md R56). -/
def AllAllowed (s : State) (a : Access) : Prop :=
  ∀ k ∈ a.bytes, byteAllowed s a.seg a.ea k = true

/-- Every byte of the access translates (R57). -/
def AllMapped (s : State) (a : Access) : Prop :=
  ∀ k ∈ a.bytes, ∃ p, translateAddr s (linear s a.seg a.ea k) = .ok p

/-- No byte of the operand, one of a masked-off element included, lies in memory that is not ordinary (R63, U10); a
byte that the check or the translation turns away has no place in memory. -/
def AllOrdinary (s : State) (a : Access) : Prop :=
  ∀ k < a.size, byteAllowed s a.seg a.ea k = true → ∀ p, translateAddr s (linear s a.seg a.ea k) = .ok p →
    ∀ r ∈ s.cfg.devices, PhysRange.holds r p = false

/-- The access reads ordinary memory with no fault, alignment apart. -/
def Readable (s : State) (a : Access) : Prop := AllAllowed s a ∧ AllMapped s a ∧ AllOrdinary s a

/-- The alignment rule holds of the access (R54, R55). -/
def Aligned (s : State) (a : Access) : AlignRule → Prop
  | .none => True
  | .gp16 => (linear s a.seg a.ea 0).toNat % 16 = 0
  | .ac8 => s.alignCheck = true → (linear s a.seg a.ea 0).toNat % 8 = 0

end Sys2Proof.Machine
end

