-- ==== Sys2Proof/Certificates/Slice0/Obligations.lean ====
section
/-! DEFINITION. The statements for the provers. Values of vector registers are said bit by bit (00_scope.md R9); bit `i`
of a memory operand is bit `i % 8` of its byte `i / 8` (20_memory.md R51). -/

open Sys2Proof Sys2Proof.Machine

/-! ### Encoding -/

/-- R80 to R103: in every mode the bytes of a well-formed instruction, whatever follows them, decode to that
instruction and leave what follows. -/
def Obligations.DecodeEncodeRoundTrip : Prop :=
  ∀ (m : Mode) (i : Instr) (rest : List Byte), i.wellFormed m = true → decode m (encode i ++ rest) = .instr i rest

/-- R102, R103: whatever bytes decode to an instruction, it is well formed in that mode and took `len` bytes from the
front, at least 3 and at most 15. -/
def Obligations.DecodedIsWellFormed : Prop :=
  ∀ (m : Mode) (bs rest : List Byte) (i : Instr), decode m bs = .instr i rest →
    i.wellFormed m = true ∧ 3 ≤ i.len ∧ i.len ≤ 15 ∧ ∃ front, bs = front ++ rest ∧ front.length = i.len

/-- Words of 30_encoding.md's worked examples, one or more of each family, decode to the instructions they are said to
be. -/
def Obligations.WordsDecodeAsWritten : Prop :=
  decode .mode64 [0x0F#8, 0xDB#8, 0x48#8, 0xF8#8] =
    .instr (.pandMm ⟨⟨none, false⟩, none, 1#3, .mem (.base 0#3 (.d8 0xF8#8))⟩) [] ∧
  decode .mode64 [0x66#8, 0x44#8, 0x0F#8, 0xDB#8, 0xCA#8] =
    .instr (.pandXmm ⟨⟨none, false⟩, some ⟨false, true, false, false⟩, 1#3, .reg 2#3⟩) [] ∧
  decode .mode64 [0xC5#8, 0xE9#8, 0xDB#8, 0xCB#8] =
    .instr (.vpandXmmVex2 ⟨⟨none, false⟩, false, 2#4, 1#3, .reg 3#3⟩) [] ∧
  decode .mode64 [0xC4#8, 0x41#8, 0x6D#8, 0xDB#8, 0xCB#8] =
    .instr (.vpandYmmVex3 ⟨⟨none, false⟩, true, false, true, false, 2#4, 1#3, .reg 3#3⟩) [] ∧
  decode .mode64 [0x62#8, 0xF1#8, 0x6D#8, 0xD9#8, 0xDB#8, 0x08#8] =
    .instr (.vpanddZmm ⟨⟨none, false⟩, false, false, false, false, 2#4, false, 1#3, true, true, 1#3,
      .mem (.base 0#3 .none)⟩) [] ∧
  decode .mode64 [0x62#8, 0xE1#8, 0xED#8, 0xA3#8, 0xDB#8, 0x48#8, 0x02#8] =
    .instr (.vpandqYmm ⟨⟨none, false⟩, false, false, false, true, 2#4, true, 3#3, true, false, 1#3,
      .mem (.base 0#3 (.d8 2#8))⟩) []

/-- R85, R86, R100: in Mode64 an EVEX encoding with a register second source names destination R':R:reg, first source
V':vvvv and second source X:B:rm, each stored bit inverted; W and L'L select the form; aaa and z are its masking. -/
def Obligations.EvexFieldsAreRead : Prop :=
  ∀ (p0 p1 p2 modrm : Byte) (rest : List Byte),
    p0.extractLsb' 0 4 = 1#4 → p1.extractLsb' 0 3 = 5#3 → modrm.extractLsb' 6 2 = 3#2 →
    p2.extractLsb' 5 2 ≠ 3#2 → p2.getLsbD 4 = false → (p2.getLsbD 7 = true → p2.extractLsb' 0 3 ≠ 0#3) →
    ∃ o rm, decode .mode64 (0x62#8 :: p0 :: p1 :: p2 :: 0xDB#8 :: modrm :: rest) =
        .instr (evexInstr (if p1.getLsbD 7 then .e64 else .e32)
          (if p2.extractLsb' 5 2 = 0#2 then .v128 else if p2.extractLsb' 5 2 = 1#2 then .v256 else .v512) o) rest ∧
      o.rm = .reg rm ∧
      evexDest o = BitVec.ofBool (!p0.getLsbD 4) ++ (BitVec.ofBool (!p0.getLsbD 7) ++ modrm.extractLsb' 3 3) ∧
      evexSrc1 o = BitVec.ofBool (!p2.getLsbD 3) ++ ~~~(p1.extractLsb' 3 4) ∧
      vecNum o.x o.b rm =
        BitVec.ofBool (!p0.getLsbD 6) ++ (BitVec.ofBool (!p0.getLsbD 5) ++ modrm.extractLsb' 0 3) ∧
      o.aaa = p2.extractLsb' 0 3 ∧ o.z = p2.getLsbD 7 ∧ o.bc = false

/-- R85, R86, R93, R94, R96: in Mode64 the two VEX encodings with a register second source name destination R:reg,
first source vvvv and second source B:rm (B = 0 with two bytes), each stored bit inverted; L selects the form, W is
ignored. -/
def Obligations.VexFieldsAreRead : Prop :=
  ∀ (v1 v2 modrm : Byte) (rest : List Byte), modrm.extractLsb' 6 2 = 3#2 →
    (v1.extractLsb' 0 2 = 1#2 →
      ∃ o rm, decode .mode64 (0xC5#8 :: v1 :: 0xDB#8 :: modrm :: rest) = .instr (vex2Instr (v1.getLsbD 2) o) rest ∧
        o.rm = .reg rm ∧
        vecNum false o.r o.reg = BitVec.ofBool false ++ (BitVec.ofBool (!v1.getLsbD 7) ++ modrm.extractLsb' 3 3) ∧
        vvvvNum false o.vvvv = BitVec.ofBool false ++ ~~~(v1.extractLsb' 3 4) ∧ rm = modrm.extractLsb' 0 3) ∧
    (v1.extractLsb' 0 5 = 1#5 → v2.extractLsb' 0 2 = 1#2 →
      ∃ o rm, decode .mode64 (0xC4#8 :: v1 :: v2 :: 0xDB#8 :: modrm :: rest) =
          .instr (vex3Instr (v2.getLsbD 2) o) rest ∧
        o.rm = .reg rm ∧
        vecNum false o.r o.reg = BitVec.ofBool false ++ (BitVec.ofBool (!v1.getLsbD 7) ++ modrm.extractLsb' 3 3) ∧
        vvvvNum false o.vvvv = BitVec.ofBool false ++ ~~~(v2.extractLsb' 3 4) ∧
        vecNum false o.b rm = BitVec.ofBool false ++ (BitVec.ofBool (!v1.getLsbD 5) ++ modrm.extractLsb' 0 3))

/-- R83, R85, R86: in Mode64 `0F DB` with a REX prefix and a register operand is form 1 of MMX registers reg and rm,
and with 66 before the REX it is form 2 with destination R:reg and second source B:rm. -/
def Obligations.RexFieldsAreRead : Prop :=
  ∀ (rex modrm : Byte) (rest : List Byte), rex.extractLsb' 4 4 = 4#4 → modrm.extractLsb' 6 2 = 3#2 →
    (∃ o, decode .mode64 (rex :: 0x0F#8 :: 0xDB#8 :: modrm :: rest) = .instr (.pandMm o) rest ∧
      o.reg = modrm.extractLsb' 3 3 ∧ o.rm = .reg (modrm.extractLsb' 0 3)) ∧
    ∃ o rm, decode .mode64 (0x66#8 :: rex :: 0x0F#8 :: 0xDB#8 :: modrm :: rest) = .instr (.pandXmm o) rest ∧
      o.rm = .reg rm ∧
      xmmDest o = BitVec.ofBool false ++ (BitVec.ofBool (rex.getLsbD 2) ++ modrm.extractLsb' 3 3) ∧
      vecNum false (LegacyOp.bBit o) rm =
        BitVec.ofBool false ++ (BitVec.ofBool (rex.getLsbD 0) ++ modrm.extractLsb' 0 3)

/-- R82, R95 a, R98 a: whatever prefixes precede it, `0F DB` with LOCK among them (F2 or F3 beside it or not, log 15) is
#UD, and a VEX or EVEX prefix (one that its mode reads as such) after LOCK, 66, F2, F3 or REX is #UD; `udAnswer` gives
the two faults that come before #UD, a byte that cannot be fetched and a 16th byte (R187 items 1 and 2; their place
here is log 16, log 33). -/
def Obligations.IllegalPrefixesAreInvalidOpcode : Prop :=
  ∀ (m : Mode) (bs r : List Byte) (p : Seen) (rex : Option Rex),
    scanPfx .start bs = some (p, r) → ∀ rest v : List Byte, ∀ b1 : Byte,
      (takeRex m r = (rex, 0x0F#8 :: 0xDB#8 :: rest) → p.lock = true →
        decode m bs = udAnswer (addrSize m p.a67) bs rest) ∧
      (∀ op ∈ [(0xC5#8, 1), (0xC4#8, 2), (0x62#8, 3)], takeRex m r = (rex, op.1 :: b1 :: v) →
        (m = .mode64 ∨ b1.extractLsb' 6 2 = 3#2) →
        (p.lock = true ∨ p.p66 = true ∨ p.rep = true ∨ rex ≠ none) →
        decode m bs = udAnswer (addrSize m p.a67) bs (v.drop op.2))

/-- R98 b to e: in Mode64 an EVEX encoding of PAND (P0[3:0] = 0001, pp = 01, opcode DB) with P1[2] = 0, with L'L = 11,
with z = 1 and aaa = 000, or with b = 1 and ModRM.mod = 11 is #UD, once its bytes are all there (R187 item 1, log
33). -/
def Obligations.EvexViolationsAreInvalidOpcode : Prop :=
  ∀ (p0 p1 p2 modrm : Byte) (rest : List Byte), p0.extractLsb' 0 4 = 1#4 → p1.extractLsb' 0 2 = 1#2 →
    (p1.getLsbD 2 = false ∨ p2.extractLsb' 5 2 = 3#2 ∨ (p2.getLsbD 7 = true ∧ p2.extractLsb' 0 3 = 0#3) ∨
      (p2.getLsbD 4 = true ∧ modrm.extractLsb' 6 2 = 3#2)) →
    (∀ reg rm r, takeModRM .a64 (modrm :: rest) = some (reg, rm, r) →
      decode .mode64 (0x62#8 :: p0 :: p1 :: p2 :: 0xDB#8 :: modrm :: rest) = .ud r) ∧
    (takeModRM .a64 (modrm :: rest) = none →
      decode .mode64 (0x62#8 :: p0 :: p1 :: p2 :: 0xDB#8 :: modrm :: rest) = .reject .truncated)

/-- R83, R95 c, R98 f: outside Mode64 the bytes C4, C5 and 62 before a byte whose bits 7:6 are not 11, and the bytes 40
to 4F, start some other instruction. -/
def Obligations.OutsideMode64OtherInstructions : Prop :=
  ∀ (m : Mode) (b : Byte) (rest : List Byte), m ≠ .mode64 →
    (∀ op ∈ [0xC5#8, 0xC4#8, 0x62#8], b.extractLsb' 6 2 ≠ 3#2 → decode m (op :: b :: rest) = .reject .notPand) ∧
    (b.extractLsb' 4 4 = 4#4 → decode m (b :: rest) = .reject .notPand)

/-- The encodings the spec has a model refuse by decision: F2 or F3 with 0F DB, whatever other prefixes stand with it
(D14, U1; with LOCK it is #UD, log 15), two prefixes of one group, adjacent or not, the same byte or not, and a REX
before a prefix (D16, U11), EVEX P0[3] = 1 in every mode (R98 b, U16), and outside Mode64 a VEX or EVEX extension bit
that is ignored there stored as 0 (D23, U12). -/
def Obligations.EncodingsRefusedByDecision : Prop :=
  ∀ (m : Mode) (b p0 p1 p2 : Byte) (bs pre r rest : List Byte) (p : Seen) (rex : Option Rex),
    (scanPfx .start bs = some (p, r) → takeRex m r = (rex, 0x0F#8 :: 0xDB#8 :: rest) → p.rep = true →
      p.lock = false → decode m bs = .reject .repPfx) ∧
    (∀ g ∈ pfxGroups, (∀ x ∈ pre, ∃ h ∈ pfxGroups, x ∈ h) → (∃ x ∈ pre, x ∈ g) → b ∈ g →
      decode m (pre ++ b :: rest) = .reject .repeatedPfx) ∧
    (scanPfx .start bs = some (p, b :: p0 :: rest) → b.extractLsb' 4 4 = 4#4 → (∃ g ∈ pfxGroups, p0 ∈ g) →
      decode .mode64 bs = .reject .rexMisplaced) ∧
    ((m = .mode64 ∨ p0.extractLsb' 6 2 = 3#2) → p0.getLsbD 3 = true →
      decode m (0x62#8 :: p0 :: p1 :: p2 :: 0xDB#8 :: rest) = .reject .evexP0Bit3) ∧
    (m ≠ .mode64 → p0.extractLsb' 6 2 = 3#2 → p0.extractLsb' 0 5 = 1#5 → p1.extractLsb' 0 2 = 1#2 →
      (p0.getLsbD 5 = false ∨ p1.getLsbD 6 = false) →
      decode m (0xC4#8 :: p0 :: p1 :: 0xDB#8 :: rest) = .reject .ignoredBitClear) ∧
    (m ≠ .mode64 → p0.extractLsb' 6 2 = 3#2 → p0.extractLsb' 0 4 = 1#4 → p1.extractLsb' 0 3 = 5#3 →
      p2.extractLsb' 5 2 ≠ 3#2 → (p2.getLsbD 7 = true → p2.extractLsb' 0 3 ≠ 0#3) →
      (p0.getLsbD 5 = false ∨ p0.getLsbD 4 = false ∨ p2.getLsbD 3 = false ∨ p1.getLsbD 6 = false) →
      decode m (0x62#8 :: p0 :: p1 :: p2 :: 0xDB#8 :: rest) = .reject .ignoredBitClear)

/-! ### The step -/

/-- A step decodes the bytes at pc in the mode and does what `exec` does to the state with the instruction they spell;
bytes that are a decode-phase #UD raise #UD and an instruction of more than 15 bytes raises #GP(0), with nothing changed
(R102, R187, R188), and rejected bytes are refused by name. -/
def Obligations.StepRunsDecodedInstruction : Prop :=
  ∀ (s : State),
    (∀ i rest, decode s.cfg.mode (fetchBytes s) = .instr i rest → step s = exec i s) ∧
    (∀ rest, decode s.cfg.mode (fetchBytes s) = .ud rest → step s = .fault (.ud s.pc)) ∧
    (decode s.cfg.mode (fetchBytes s) = .tooLong → step s = .fault (.gp s.pc)) ∧
    (∀ r, decode s.cfg.mode (fetchBytes s) = .reject r → step s = .refused (.undecoded r))

/-- Placing an encoded instruction (log 21, log 22): with paging off and the 15 bytes from pc canonical, the step after
`withFetchWord` runs exactly the instruction the table word decodes to, and only memory and the mode differ from the
state before. -/
def Obligations.PlacedWordIsRunNext : Prop :=
  ∀ (s : State) (nbits w : Nat) (i : Instr), s.pg = false → Memory.wf s.mem = true →
    (∀ k < 15, canonical s.cfg.vaBits (s.pc + BitVec.ofNat 64 k) = true) →
    decodeTableWord nbits w = some i →
    step (s.withFetchWord nbits w) = exec i (s.withFetchWord nbits w) ∧
    s.withFetchWord nbits w =
      { s with cfg := { s.cfg with mode := .mode64 }, mem := (s.withFetchWord nbits w).mem } ∧
    ∀ a : Nat, (∀ k < 15, a ≠ (s.pc + BitVec.ofNat 64 k).toNat) →
      Memory.read (s.withFetchWord nbits w).mem a = Memory.read s.mem a

/-! ### Results: form 1 -/

/-- R130, R22 (b), (c): PAND mm, mm completes; MM[reg] is the AND of MM[reg] and MM[rm], bits 79:64 of its x87 register
are FFFFH, FSW.TOP and FTW are 0, pc advances by `len`, and nothing else changes (`draws` is the model's own count). -/
def Obligations.PandMmOfRegisters : Prop :=
  ∀ (s : State) (o : LegacyOp) (r : BitVec 3), o.rm = .reg r →
    udCondition s (.pandMm o) = false → s.ts = false → s.fswEs = false → pcAdvances s (o.len false) = true →
    exec (.pandMm o) s = .next { s with
      mm := s.mm.set o.reg.toNat (s.getMm o.reg &&& s.getMm r) o.reg.isLt
      stExp := s.stExp.set o.reg.toNat 0xFFFF#16 o.reg.isLt
      fsw := s.fsw &&& ~~~(0x3800#16)
      ftw := 0#16
      pc := s.pc + BitVec.ofNat 64 (o.len false)
      draws := s.draws + 1 }

/-- R130, R51, R53, R55: PAND mm, m64 with a readable operand, 8-byte aligned where alignment checking asks for it,
completes like the register form, its second source the 8 bytes of the operand, little-endian. -/
def Obligations.PandMmOfMemory : Prop :=
  ∀ (s : State) (o : LegacyOp) (m : Mem) (v : Word64), o.rm = .mem m →
    udCondition s (.pandMm o) = false → s.ts = false → s.fswEs = false → pcAdvances s (o.len false) = true →
    Readable s (mmAccess s o m) → Aligned s (mmAccess s o m) .ac8 →
    (∀ i < 64, v.getLsbD i = (readByte s (mmAccess s o m) (i / 8)).getLsbD (i % 8)) →
    exec (.pandMm o) s = .next { s with
      mm := s.mm.set o.reg.toNat (s.getMm o.reg &&& v) o.reg.isLt
      stExp := s.stExp.set o.reg.toNat 0xFFFF#16 o.reg.isLt
      fsw := s.fsw &&& ~~~(0x3800#16)
      ftw := 0#16
      pc := s.pc + BitVec.ofNat 64 (o.len false)
      draws := s.draws + 1 }

/-- R22: MM[i] is bits 63:0 of the physical x87 register R[i] (`State.x87Reg`); whenever form 1 completes, FSW.TOP is
000, FTW is 0000H, bits 79:64 of the written register's R[d] are FFFFH, every other R[j], a register only read among
them, keeps its 80 bits, and the other bits of FSW keep their value; when it raises an exception none of this happens,
the state being the one before but for CR2. -/
def Obligations.X87EffectsOfForm1 : Prop :=
  ∀ (s : State) (o : LegacyOp),
    (∀ j : BitVec 3, (s.x87Reg j).extractLsb' 0 64 = s.getMm j) ∧
    (∀ t, exec (.pandMm o) s = .next t →
      t.fsw.extractLsb' 11 3 = 0#3 ∧ t.ftw = 0#16 ∧ (t.x87Reg o.reg).extractLsb' 64 16 = 0xFFFF#16 ∧
      (∀ j : BitVec 3, j ≠ o.reg → t.x87Reg j = s.x87Reg j) ∧
      ∀ i < 16, (i < 11 ∨ 13 < i) → t.fsw.getLsbD i = s.fsw.getLsbD i) ∧
    ∀ f, exec (.pandMm o) s = .fault f → s.atFault f = { s with cr2 := (s.atFault f).cr2 }

/-! ### Results: form 2 -/

/-- R140: PAND xmm, xmm completes; bits 127:0 of Z[R:reg] are the AND, its upper bits keep their value, pc advances,
and nothing else changes. -/
def Obligations.PandXmmOfRegisters : Prop :=
  ∀ (s : State) (o : LegacyOp) (r : BitVec 3), o.rm = .reg r →
    udCondition s (.pandXmm o) = false → s.ts = false → pcAdvances s (o.len true) = true →
    ∃ v : Vec, exec (.pandXmm o) s = .next { s with
        z := s.z.set (xmmDest o).toNat v (xmmDest o).isLt
        pc := s.pc + BitVec.ofNat 64 (o.len true)
        draws := s.draws + 1 } ∧
      ∀ i < 512, v.getLsbD i =
        if i < 128 then (s.getZ (xmmDest o)).getLsbD i && (s.getZ (vecNum false (LegacyOp.bBit o) r)).getLsbD i
        else (s.getZ (xmmDest o)).getLsbD i

/-- R140, R54: PAND xmm, m128 with a readable operand at a multiple of 16 completes like the register form, its second
source the 16 bytes of the operand. -/
def Obligations.PandXmmOfMemory : Prop :=
  ∀ (s : State) (o : LegacyOp) (m : Mem), o.rm = .mem m →
    udCondition s (.pandXmm o) = false → s.ts = false → pcAdvances s (o.len true) = true →
    Readable s (xmmAccess s o m) → (linear s (xmmAccess s o m).seg (xmmAccess s o m).ea 0).toNat % 16 = 0 →
    ∃ v : Vec, exec (.pandXmm o) s = .next { s with
        z := s.z.set (xmmDest o).toNat v (xmmDest o).isLt
        pc := s.pc + BitVec.ofNat 64 (o.len true)
        draws := s.draws + 1 } ∧
      ∀ i < 512, v.getLsbD i =
        if i < 128 then
          (s.getZ (xmmDest o)).getLsbD i && (readByte s (xmmAccess s o m) (i / 8)).getLsbD (i % 8)
        else (s.getZ (xmmDest o)).getLsbD i

/-! ### Results: forms 3 and 4 -/

/-- R150, R151, R96: VPAND of registers, xmm and ymm, in both encodings, completes; the low VL bits of Z[R:reg] are
the AND of Z[vvvv] and Z[B:rm] (B = 0 in the two-byte encoding), the bits above VL are 0, pc advances, and nothing
else changes. In 16-bit code they are #UD (R90, log 14). -/
def Obligations.VpandOfRegisters : Prop :=
  ∀ (s : State) (wide : Bool) (r : BitVec 3),
    (∀ o : Vex2Op, o.rm = .reg r → udCondition s (vex2Instr wide o) = false → s.ts = false →
      pcAdvances s o.len = true →
      ∃ v : Vec, exec (vex2Instr wide o) s = .next { s with
          z := s.z.set (vecNum false o.r o.reg).toNat v (vecNum false o.r o.reg).isLt
          pc := s.pc + BitVec.ofNat 64 o.len
          draws := s.draws + 1 } ∧
        ∀ i < 512, v.getLsbD i = (decide (i < (vexLen wide).bits) &&
          ((s.getZ (vvvvNum false o.vvvv)).getLsbD i && (s.getZ (vecNum false false r)).getLsbD i))) ∧
    ∀ o : Vex3Op, o.rm = .reg r → udCondition s (vex3Instr wide o) = false → s.ts = false →
      pcAdvances s o.len = true →
      ∃ v : Vec, exec (vex3Instr wide o) s = .next { s with
          z := s.z.set (vecNum false o.r o.reg).toNat v (vecNum false o.r o.reg).isLt
          pc := s.pc + BitVec.ofNat 64 o.len
          draws := s.draws + 1 } ∧
        ∀ i < 512, v.getLsbD i = (decide (i < (vexLen wide).bits) &&
          ((s.getZ (vvvvNum false o.vvvv)).getLsbD i && (s.getZ (vecNum false o.b r)).getLsbD i))

/-- R150, R151, R54: VPAND with a readable memory operand of 16 or 32 bytes, at any alignment, completes like the
register form, its second source the bytes of the operand. In 16-bit code they are #UD (R90, log 14). -/
def Obligations.VpandOfMemory : Prop :=
  ∀ (s : State) (wide : Bool) (m : Mem),
    (∀ o : Vex2Op, o.rm = .mem m → udCondition s (vex2Instr wide o) = false → s.ts = false →
      pcAdvances s o.len = true → Readable s (vexAccess s o.pfx false false o.len (vexLen wide) m) →
      ∃ v : Vec, exec (vex2Instr wide o) s = .next { s with
          z := s.z.set (vecNum false o.r o.reg).toNat v (vecNum false o.r o.reg).isLt
          pc := s.pc + BitVec.ofNat 64 o.len
          draws := s.draws + 1 } ∧
        ∀ i < 512, v.getLsbD i = (decide (i < (vexLen wide).bits) && ((s.getZ (vvvvNum false o.vvvv)).getLsbD i &&
          (readByte s (vexAccess s o.pfx false false o.len (vexLen wide) m) (i / 8)).getLsbD (i % 8)))) ∧
    ∀ o : Vex3Op, o.rm = .mem m → udCondition s (vex3Instr wide o) = false → s.ts = false →
      pcAdvances s o.len = true → Readable s (vexAccess s o.pfx o.x o.b o.len (vexLen wide) m) →
      ∃ v : Vec, exec (vex3Instr wide o) s = .next { s with
          z := s.z.set (vecNum false o.r o.reg).toNat v (vecNum false o.r o.reg).isLt
          pc := s.pc + BitVec.ofNat 64 o.len
          draws := s.draws + 1 } ∧
        ∀ i < 512, v.getLsbD i = (decide (i < (vexLen wide).bits) && ((s.getZ (vvvvNum false o.vvvv)).getLsbD i &&
          (readByte s (vexAccess s o.pfx o.x o.b o.len (vexLen wide) m) (i / 8)).getLsbD (i % 8)))

/-! ### Results: forms 5 to 10 -/

/-- R160 to R166: VPANDD and VPANDQ of registers, at 128, 256 and 512 bits, complete; a bit of an enabled element is
the AND of the sources' bits, a bit of a disabled element keeps its value (z = 0) or is 0 (z = 1), the bits above VL
are 0, pc advances, and nothing else changes. In 16-bit code they are #UD (R90, log 14). -/
def Obligations.EvexOfRegisters : Prop :=
  ∀ (s : State) (es : ElemSize) (vl : VecLen) (o : EvexOp) (r : BitVec 3), o.rm = .reg r →
    udCondition s (evexInstr es vl o) = false → s.ts = false → pcAdvances s o.len = true →
    ∃ v : Vec, exec (evexInstr es vl o) s = .next { s with
        z := s.z.set (evexDest o).toNat v (evexDest o).isLt
        pc := s.pc + BitVec.ofNat 64 o.len
        draws := s.draws + 1 } ∧
      ∀ i < 512, v.getLsbD i =
        if vl.bits ≤ i then false
        else if o.aaa = 0#3 ∨ (s.getK o.aaa).getLsbD (i / es.bits) = true then
          (s.getZ (evexSrc1 o)).getLsbD i && (s.getZ (vecNum o.x o.b r)).getLsbD i
        else !o.z && (s.getZ (evexDest o)).getLsbD i

/-- R160 to R166, R64, R54: with a vector in memory (b = 0) whose enabled elements are readable, at any alignment,
they complete likewise, the second source the bytes of the operand. In 16-bit code they are #UD (R90, log 14). -/
def Obligations.EvexOfMemoryVector : Prop :=
  ∀ (s : State) (es : ElemSize) (vl : VecLen) (o : EvexOp) (m : Mem), o.rm = .mem m → o.bc = false →
    udCondition s (evexInstr es vl o) = false → s.ts = false → pcAdvances s o.len = true →
    Readable s (evexAccess s o es vl m) →
    ∃ v : Vec, exec (evexInstr es vl o) s = .next { s with
        z := s.z.set (evexDest o).toNat v (evexDest o).isLt
        pc := s.pc + BitVec.ofNat 64 o.len
        draws := s.draws + 1 } ∧
      ∀ i < 512, v.getLsbD i =
        if vl.bits ≤ i then false
        else if o.aaa = 0#3 ∨ (s.getK o.aaa).getLsbD (i / es.bits) = true then
          (s.getZ (evexSrc1 o)).getLsbD i && (readByte s (evexAccess s o es vl m) (i / 8)).getLsbD (i % 8)
        else !o.z && (s.getZ (evexDest o)).getLsbD i

/-- R160 to R166, R64: with a broadcast element (b = 1), readable where some element is enabled, they complete
likewise, the one element the second source of every enabled element. In 16-bit code they are #UD (R90, log 14). -/
def Obligations.EvexOfBroadcast : Prop :=
  ∀ (s : State) (es : ElemSize) (vl : VecLen) (o : EvexOp) (m : Mem), o.rm = .mem m → o.bc = true →
    udCondition s (evexInstr es vl o) = false → s.ts = false → pcAdvances s o.len = true →
    Readable s (evexAccess s o es vl m) →
    ∃ v : Vec, exec (evexInstr es vl o) s = .next { s with
        z := s.z.set (evexDest o).toNat v (evexDest o).isLt
        pc := s.pc + BitVec.ofNat 64 o.len
        draws := s.draws + 1 } ∧
      ∀ i < 512, v.getLsbD i =
        if vl.bits ≤ i then false
        else if o.aaa = 0#3 ∨ (s.getK o.aaa).getLsbD (i / es.bits) = true then
          (s.getZ (evexSrc1 o)).getLsbD i &&
            (readByte s (evexAccess s o es vl m) (i % es.bits / 8)).getLsbD (i % 8)
        else !o.z && (s.getZ (evexDest o)).getLsbD i

/-- R64, R167, R63: with every mask bit of an element 0, a memory operand of VPANDD or VPANDQ, broadcast or not,
raises no memory fault wherever it lies: the instruction completes, its destination unchanged in the low VL bits (z =
0) or 0 there (z = 1), and 0 above; where a byte of the operand lies in memory that is not ordinary it is refused
(U10). In 16-bit code they are #UD (R90, log 14). -/
def Obligations.EvexNothingEnabledNeverFaults : Prop :=
  ∀ (s : State) (es : ElemSize) (vl : VecLen) (o : EvexOp) (m : Mem), o.rm = .mem m → o.aaa ≠ 0#3 →
    (∀ j < vl.elems es, (s.getK o.aaa).getLsbD j = false) →
    udCondition s (evexInstr es vl o) = false → s.ts = false → pcAdvances s o.len = true →
    (AllOrdinary s (evexAccess s o es vl m) →
      ∃ v : Vec, exec (evexInstr es vl o) s = .next { s with
          z := s.z.set (evexDest o).toNat v (evexDest o).isLt
          pc := s.pc + BitVec.ofNat 64 o.len
          draws := s.draws + 1 } ∧
        ∀ i < 512, v.getLsbD i = (decide (i < vl.bits) && (!o.z && (s.getZ (evexDest o)).getLsbD i))) ∧
    (¬ AllOrdinary s (evexAccess s o es vl m) → exec (evexInstr es vl o) s = .refused .deviceMemory)

/-- R53, R64: the bytes an EVEX form touches are those of the enabled elements of its vector, or, broadcast, those of
one element, and none when no element is enabled; the operand itself is the whole vector, or the one element. -/
def Obligations.EvexTouchesOnlyEnabledBytes : Prop :=
  ∀ (s : State) (es : ElemSize) (vl : VecLen) (o : EvexOp) (m : Mem) (k : Nat),
    (o.bc = false → (k ∈ (evexAccess s o es vl m).bytes ↔
      k < vl.bytes ∧ (o.aaa = 0#3 ∨ (s.getK o.aaa).getLsbD (k / es.bytes) = true))) ∧
    (o.bc = true → (k ∈ (evexAccess s o es vl m).bytes ↔
      k < es.bytes ∧ ∃ j < vl.elems es, o.aaa = 0#3 ∨ (s.getK o.aaa).getLsbD j = true)) ∧
    (evexAccess s o es vl m).size = if o.bc then es.bytes else vl.bytes

/-! ### Completion and frame, all forms -/

/-- Every form, on an enabled processor (no #UD condition, CR0.TS = 0), with no pending x87 exception in form 1's way,
a memory operand that is readable and aligned as its form asks, and pc able to advance, completes, with pc advanced by
`len`. In 16-bit code forms 3 to 10 are #UD (R90, log 14). -/
def Obligations.EveryFormCompletes : Prop :=
  ∀ (s : State) (i : Instr), udCondition s i = false → s.ts = false → x87Stops s i = false →
    (∀ al a, memOperand s i = some (al, a) → Readable s a ∧ Aligned s a al) → pcAdvances s i.len = true →
    ∃ t, exec i s = .next t ∧ t.pc = s.pc + BitVec.ofNat 64 i.len

/-- Frame of form 1, register and memory operand: MM, ST_EXP, FSW and FTW apart, with pc and the model's count, the
state is the one before, every byte of memory reads as before, and of MM and ST_EXP only element reg may differ, of FSW
only TOP. -/
def Obligations.MmxFormFrame : Prop :=
  ∀ (s t : State) (o : LegacyOp), exec (.pandMm o) s = .next t →
    t = { s with mm := t.mm, stExp := t.stExp, fsw := t.fsw, ftw := t.ftw, pc := t.pc, draws := t.draws } ∧
    (∀ j : BitVec 3, j ≠ o.reg →
      t.getMm j = s.getMm j ∧ t.stExp[j.toNat]'j.isLt = s.stExp[j.toNat]'j.isLt) ∧
    (∀ i < 16, (i < 11 ∨ 13 < i) → t.fsw.getLsbD i = s.fsw.getLsbD i) ∧
    ∀ a, Memory.read t.mem a = Memory.read s.mem a

/-- Frame of forms 2 to 10 (pandXmm, both encodings of VPAND xmm and ymm, VPANDD and VPANDQ at 128, 256 and 512 bits),
register and memory operands: the destination register, pc and the model's count apart, the state is the one before,
the x87 and MMX state included (10_state.md R23), and every byte of memory reads as before. -/
def Obligations.VectorFormsFrame : Prop :=
  ∀ (s t : State) (i : Instr) (d : BitVec 5), vecDest i = some d → exec i s = .next t →
    t = { s with z := t.z, pc := t.pc, draws := t.draws } ∧ (∀ e : BitVec 5, e ≠ d → t.getZ e = s.getZ e) ∧
    ∀ a, Memory.read t.mem a = Memory.read s.mem a

/-- R60: no form of PAND, and no step, writes memory: every byte reads as before. The memory operand, when there is
one, is ModRM:r/m; the destination is the register ModRM:reg names: a vector or MMX register whose low three number
bits are not that field keeps its value. -/
def Obligations.NoFormWritesMemory : Prop :=
  ∀ (s t : State),
    (∀ i, exec i s = .next t →
      t.mem = s.mem ∧ (∀ e : BitVec 5, e.extractLsb' 0 3 ≠ regField i → t.getZ e = s.getZ e) ∧
      ∀ j : BitVec 3, j ≠ regField i → t.getMm j = s.getMm j) ∧
    (∀ i, memOperand s i ≠ none ↔ ∃ m, rmField i = .mem m) ∧
    (step s = .next t → t.mem = s.mem ∧ ∀ a, Memory.read t.mem a = Memory.read s.mem a)

/-- R28: no form writes EFLAGS or MXCSR, or the x87 status word but for TOP, which form 1 clears; none reads a flag as
data: EFLAGS with the same VM and AC, and any MXCSR, give the same outcome, and whatever VM and AC are, if the form
completes it computes the same (they decide exceptions only). -/
def Obligations.NoFlagsAffected : Prop :=
  ∀ (s : State) (i : Instr),
    (∀ t, exec i s = .next t → t.eflags = s.eflags ∧ t.mxcsr = s.mxcsr ∧
      (∀ b < 16, (b < 11 ∨ 13 < b) → t.fsw.getLsbD b = s.fsw.getLsbD b) ∧
      t.fsw.extractLsb' 11 3 = match i with
        | .pandMm _ => 0#3
        | .pandXmm _ | .vpandXmmVex2 _ | .vpandXmmVex3 _ | .vpandYmmVex2 _ | .vpandYmmVex3 _ | .vpanddXmm _
        | .vpanddYmm _ | .vpanddZmm _ | .vpandqXmm _ | .vpandqYmm _ | .vpandqZmm _ => s.fsw.extractLsb' 11 3) ∧
    (∀ (e x : BitVec 32), e.getLsbD 17 = s.eflags.getLsbD 17 → e.getLsbD 18 = s.eflags.getLsbD 18 →
      (∀ t, exec i s = .next t → exec i { s with eflags := e, mxcsr := x } = .next { t with eflags := e, mxcsr := x }) ∧
      (∀ f, exec i s = .fault f → exec i { s with eflags := e, mxcsr := x } = .fault f) ∧
      ∀ r, exec i s = .refused r → exec i { s with eflags := e, mxcsr := x } = .refused r) ∧
    ∀ (e : BitVec 32) (t u : State), exec i s = .next t → exec i { s with eflags := e } = .next u →
      u = { t with eflags := e }

/-- R33: whatever form completes, memory, the general registers, the segment registers, EFLAGS, MXCSR, the opmask
registers, CR0, CR2, CR3, CR4, XCR0, IA32_EFER, CPL, the x87 control word and pointers, every vector register but its
destination and every MMX register but its destination keep their values, and forms 2 to 10 keep the x87 status and tag
words and bits 79:64 of the x87 registers (10_state.md R23); a form that raises an exception writes nothing at all, CR2
being the delivery's (R181). -/
def Obligations.NothingElseWritten : Prop :=
  ∀ (s : State) (i : Instr),
    (∀ t, exec i s = .next t →
      t.mem = s.mem ∧ t.gpr = s.gpr ∧ t.cs = s.cs ∧ t.ds = s.ds ∧ t.es = s.es ∧ t.fs = s.fs ∧ t.gs = s.gs ∧
      t.ss = s.ss ∧ t.eflags = s.eflags ∧ t.mxcsr = s.mxcsr ∧ t.k = s.k ∧ t.cr0 = s.cr0 ∧ t.cr2 = s.cr2 ∧
      t.cr3 = s.cr3 ∧ t.cr4 = s.cr4 ∧ t.xcr0 = s.xcr0 ∧ t.efer = s.efer ∧ t.cpl = s.cpl ∧ t.cfg = s.cfg ∧
      t.fcw = s.fcw ∧ t.fip = s.fip ∧ t.fdp = s.fdp ∧
      (∀ e : BitVec 5, vecDest i ≠ some e → t.getZ e = s.getZ e) ∧
      (∀ j : BitVec 3, (∀ o, i = .pandMm o → o.reg ≠ j) → t.getMm j = s.getMm j) ∧
      ((∀ o, i ≠ .pandMm o) → t.stExp = s.stExp ∧ t.fsw = s.fsw ∧ t.ftw = s.ftw)) ∧
    ∀ f, exec i s = .fault f → { s.atFault f with cr2 := s.cr2 } = s

/-! ### Exceptions -/

/-- R182: form 1 raises #UD exactly when CR0.EM = 1 or the processor lacks MMX. -/
def Obligations.InvalidOpcodeOfForm1 : Prop :=
  ∀ (s : State) (o : LegacyOp), exec (.pandMm o) s = .fault (.ud s.pc) ↔
    s.cr0.getLsbD 2 = true ∨ s.cfg.feat.mmx = false

/-- R183: form 2 raises #UD exactly when CR0.EM = 1, CR4.OSFXSR = 0, or the processor lacks SSE2. -/
def Obligations.InvalidOpcodeOfForm2 : Prop :=
  ∀ (s : State) (o : LegacyOp), exec (.pandXmm o) s = .fault (.ud s.pc) ↔
    s.cr0.getLsbD 2 = true ∨ s.cr4.getLsbD 9 = false ∨ s.cfg.feat.sse2 = false

/-- R184, R90, D8: forms 3 and 4, in both encodings, raise #UD exactly in real-address or virtual-8086 mode, in any
other 16-bit code (log 14), with CR4.OSXSAVE = 0, with XCR0[2:1] other than 11, without AVX (form 3) or AVX2 (form 4),
or with MAXVL below the form's length. -/
def Obligations.InvalidOpcodeOfVex : Prop :=
  ∀ (s : State) (wide : Bool) (i : Instr), (∃ o, i = vex2Instr wide o) ∨ (∃ o, i = vex3Instr wide o) →
    (exec i s = .fault (.ud s.pc) ↔
      s.cr0.getLsbD 0 = false ∨ s.eflags.getLsbD 17 = true ∨ s.cfg.mode = .mode16 ∨ s.cr4.getLsbD 18 = false ∨
      s.xcr0.getLsbD 1 = false ∨ s.xcr0.getLsbD 2 = false ∨
      (if wide then s.cfg.feat.avx2 else s.cfg.feat.avx) = false ∨
      s.cfg.maxvl.bits < (if wide then 256 else 128))

/-- R185, R90, R98 d, e, D8: forms 5 to 10 raise #UD exactly in real-address or virtual-8086 mode, in any other 16-bit
code (log 14), with CR4.OSXSAVE = 0, with XCR0[7:5] other than 111 or XCR0[2:1] other than 11, with the feature
expression false, the length above AVX10_MAXVL when only AVX10.1 supplies the form, or above MAXVL, with z = 1 and aaa
= 000, or with b = 1 and a register operand. -/
def Obligations.InvalidOpcodeOfEvex : Prop :=
  ∀ (s : State) (es : ElemSize) (vl : VecLen) (o : EvexOp),
    exec (evexInstr es vl o) s = .fault (.ud s.pc) ↔
      s.cr0.getLsbD 0 = false ∨ s.eflags.getLsbD 17 = true ∨ s.cfg.mode = .mode16 ∨ s.cr4.getLsbD 18 = false ∨
      s.xcr0.getLsbD 5 = false ∨ s.xcr0.getLsbD 6 = false ∨ s.xcr0.getLsbD 7 = false ∨
      s.xcr0.getLsbD 1 = false ∨ s.xcr0.getLsbD 2 = false ∨
      ¬ ((s.cfg.feat.avx512f = true ∧ (vl = .v512 ∨ s.cfg.feat.avx512vl = true)) ∨
        (s.cfg.feat.avx10_1 = true ∧ vl.bits ≤ s.cfg.avx10Max.bits)) ∨
      s.cfg.maxvl.bits < vl.bits ∨
      (o.z = true ∧ o.aaa = 0#3) ∨ (o.bc = true ∧ ∃ r, o.rm = .reg r)

/-- R182 to R185, R187: a form that does not raise #UD raises #NM exactly when CR0.TS = 1. -/
def Obligations.DeviceNotAvailable : Prop :=
  ∀ (s : State) (i : Instr), exec i s ≠ .fault (.ud s.pc) →
    (exec i s = .fault (.nm s.pc) ↔ s.cr0.getLsbD 3 = true)

/-- R182, R187, U4 a, U9: with a pending x87 exception (FSW.ES = 1) an enabled form 1 raises #MF when CR0.NE = 1 and
its operand has no fault of its own, #MF or the operand's fault when it has one, and is refused when CR0.NE = 0; the
other forms raise no #MF. -/
def Obligations.PendingX87Exception : Prop :=
  ∀ (s : State),
    (∀ o : LegacyOp, udCondition s (.pandMm o) = false → s.ts = false → s.fswEs = true →
      (s.cr0.getLsbD 5 = false → exec (.pandMm o) s = .refused .externalX87) ∧
      (s.cr0.getLsbD 5 = true →
        ((∀ m, o.rm = .mem m → operandFault s .ac8 (mmAccess s o m) = none) →
          exec (.pandMm o) s = .fault (.mf s.pc)) ∧
        ∀ m x, o.rm = .mem m → operandFault s .ac8 (mmAccess s o m) = some x →
          exec (.pandMm o) s = .fault (.mf s.pc) ∨ exec (.pandMm o) s = .fault (x s.pc))) ∧
    ∀ i pc, (∀ o, i ≠ .pandMm o) → exec i s ≠ .fault (.mf pc)

/-- R181: the vector and error code of each exception a form raises, #UD 6, #NM 7, #SS 12, #GP 13, #PF 14, #MF 16, #AC 17
and no other; every exception reports the pc of the PAND; 12, 13, 14 and 17 come only from a memory operand, 12 only
from one in SS or, in Mode64, under an ignored override (U6), 16 and 17 only from form 1; CR2 receives the address #PF
records, and no other state is changed, FIP and FDP among it. (The width of an error code, 32 bits, is log 34.) -/
def Obligations.ExceptionTable : Prop :=
  ∀ (s : State) (i : Instr) (f : Fault), exec i s = .fault f →
    f.pc = s.pc ∧
    f.vector = (match f with
      | .ud _ => 6
      | .nm _ => 7
      | .ss _ => 12
      | .gp _ => 13
      | .pf _ _ _ => 14
      | .mf _ => 16
      | .ac _ => 17) ∧
    (f.errorCode = if f.vector ∈ [12, 13, 17] then some 0#32 else
      match f with
      | .pf ec _ _ => some ec
      | .ud _ | .nm _ | .ss _ | .gp _ | .mf _ | .ac _ => none) ∧
    (f.vector ∈ [12, 13, 14, 17] → memOperand s i ≠ none) ∧
    (f.vector = 12 → ∃ al a, memOperand s i = some (al, a) ∧
      (a.seg = .ss ∨ (s.cfg.mode = .mode64 ∧ a.overridden = true ∧ a.seg ≠ .fs ∧ a.seg ≠ .gs))) ∧
    (f.vector ∈ [16, 17] → ∃ o, i = .pandMm o) ∧
    (s.atFault f).cr2 = (match f with
      | .pf _ lin _ => lin
      | .ud _ | .nm _ | .ss _ | .gp _ | .mf _ | .ac _ => s.cr2) ∧
    s.atFault f = { s with cr2 := (s.atFault f).cr2 }

/-- R188: whenever a step raises an exception, it reports the pc of the instruction, there is no next state, and the
state left for the handler is the one before but for CR2. -/
def Obligations.FaultsArePrecise : Prop :=
  ∀ (s : State) (f : Fault), step s = .fault f →
    f.pc = s.pc ∧ (∀ t, step s ≠ .next t) ∧ s.atFault f = { s with cr2 := (s.atFault f).cr2 }

/-- R56, R182 to R185, R187: an enabled form (form 1 with no pending x87 exception) some byte of whose memory operand
fails the canonical check in Mode64, or SegCheck otherwise, raises #SS(0) when the segment is SS and #GP(0) when not;
under an override Mode64 ignores, one of the two (U6). -/
def Obligations.SegmentFaults : Prop :=
  ∀ (s : State) (i : Instr) (al : AlignRule) (a : Access), memOperand s i = some (al, a) →
    udCondition s i = false → s.ts = false → x87Stops s i = false → ¬ AllAllowed s a →
    (exec i s = .fault (.ss s.pc) ∨ exec i s = .fault (.gp s.pc)) ∧
    (¬ (s.cfg.mode = .mode64 ∧ a.overridden = true ∧ a.seg ≠ .fs ∧ a.seg ≠ .gs) →
      exec i s = .fault (if a.seg = .ss then .ss s.pc else .gp s.pc))

/-- R54, R183, R187, U4 b: form 2 with a memory operand that passes the segment check and is not at a multiple of 16
raises #GP(0), or, when some byte also fails to translate, #GP(0) or #PF. -/
def Obligations.MisalignedForm2 : Prop :=
  ∀ (s : State) (o : LegacyOp) (m : Mem), o.rm = .mem m → udCondition s (.pandXmm o) = false → s.ts = false →
    AllAllowed s (xmmAccess s o m) → (linear s (xmmAccess s o m).seg (xmmAccess s o m).ea 0).toNat % 16 ≠ 0 →
    (AllMapped s (xmmAccess s o m) → exec (.pandXmm o) s = .fault (.gp s.pc)) ∧
    (exec (.pandXmm o) s = .fault (.gp s.pc) ∨ ∃ ec lin, exec (.pandXmm o) s = .fault (.pf ec lin s.pc))

/-- R55, R182: form 1 with a memory operand that passes the segment check and translates raises #AC(0) when CR0.AM = 1,
EFLAGS.AC = 1, CPL = 3 and the linear address is not a multiple of 8; no other form raises #AC, and form 2's
misalignment, to 16 bytes, is #GP(0) whatever these bits are (R54). -/
def Obligations.AlignmentCheck : Prop :=
  ∀ (s : State),
    (∀ (o : LegacyOp) (m : Mem), o.rm = .mem m → udCondition s (.pandMm o) = false → s.ts = false →
      s.fswEs = false → AllAllowed s (mmAccess s o m) → AllMapped s (mmAccess s o m) →
      (exec (.pandMm o) s = .fault (.ac s.pc) ↔
        s.cr0.getLsbD 18 = true ∧ s.eflags.getLsbD 18 = true ∧ s.cpl = 3#2 ∧
        (linear s (mmAccess s o m).seg (mmAccess s o m).ea 0).toNat % 8 ≠ 0)) ∧
    (∀ i pc, (∀ o, i ≠ .pandMm o) → exec i s ≠ .fault (.ac pc)) ∧
    ∀ (o : LegacyOp) (m : Mem), o.rm = .mem m → udCondition s (.pandXmm o) = false → s.ts = false →
      AllAllowed s (xmmAccess s o m) → AllMapped s (xmmAccess s o m) →
      (linear s (xmmAccess s o m).seg (xmmAccess s o m).ea 0).toNat % 16 ≠ 0 →
      exec (.pandXmm o) s = .fault (.gp s.pc)

/-- R57, R182 to R185, R187, U5: an enabled form (form 1 with no pending x87 exception) whose memory operand passes the
segment check and, in form 2, is aligned, and some byte of which fails to translate, raises #PF with the error code and
the linear address of such a byte. -/
def Obligations.PageFaults : Prop :=
  ∀ (s : State) (i : Instr) (al : AlignRule) (a : Access), memOperand s i = some (al, a) →
    udCondition s i = false → s.ts = false → x87Stops s i = false → AllAllowed s a → ¬ AllMapped s a →
    (al = .gp16 → (linear s a.seg a.ea 0).toNat % 16 = 0) →
    ∃ k ∈ a.bytes, ∃ ec, translateAddr s (linear s a.seg a.ea k) = .error ec ∧
      exec i s = .fault (.pf ec (linear s a.seg a.ea k) s.pc)

/-- R57: with CR0.PG = 0 translation is the identity; a failing one gives an error code whose W/R and I/D bits (1 and 4)
are 0 and whose U/S bit (2) is 1 exactly at CPL 3. (Its width, 32 bits, is log 34.) -/
def Obligations.TranslationRule : Prop :=
  ∀ (s : State) (lin : Word64),
    (s.cr0.getLsbD 31 = false → translateAddr s lin = .ok lin) ∧
    ∀ ec, translateAddr s lin = .error ec →
      ec.getLsbD 1 = false ∧ ec.getLsbD 4 = false ∧ (ec.getLsbD 2 = true ↔ s.cpl = 3#2)

/-- R63, U10, U14: an enabled form whose memory operand has no fault and some byte of which, a masked-off one included,
lies in memory that is not ordinary is refused. -/
def Obligations.DeviceOperandRefused : Prop :=
  ∀ (s : State) (i : Instr) (al : AlignRule) (a : Access), memOperand s i = some (al, a) →
    udCondition s i = false → s.ts = false → x87Stops s i = false → AllAllowed s a → AllMapped s a →
    Aligned s a al → ¬ AllOrdinary s a → exec i s = .refused .deviceMemory

/-- R27, D4: pc never wraps and, in Mode64, never leaves the canonical range: a form that completes has pc + len below
2^64 (Mode64) or 2^32, and canonical in Mode64; a form that would complete elsewhere is refused. -/
def Obligations.PcStaysInRange : Prop :=
  ∀ (s : State) (i : Instr),
    (∀ t, exec i s = .next t →
      t.pc.toNat = s.pc.toNat + i.len ∧
      (s.cfg.mode = .mode64 → canonical s.cfg.vaBits t.pc = true) ∧
      (s.cfg.mode ≠ .mode64 → t.pc.toNat < 2 ^ 32)) ∧
    (udCondition s i = false → s.ts = false → x87Stops s i = false →
      (∀ al a, memOperand s i = some (al, a) → Readable s a ∧ Aligned s a al) → pcAdvances s i.len = false →
      exec i s = .refused .pcRange)

/-- R192: every form executes identically at every CPL but for translation and the #AC condition: two levels at which
these agree give the same outcome, and no form changes CPL or the mode. -/
def Obligations.PrivilegeLevelDoesNotMatter : Prop :=
  ∀ (s : State) (i : Instr) (c : BitVec 2),
    (∀ lin, translateAddr { s with cpl := c } lin = translateAddr s lin) →
    ({ s with cpl := c } : State).alignCheck = s.alignCheck →
    (∀ t, exec i s = .next t →
      exec i { s with cpl := c } = .next { t with cpl := c } ∧ t.cpl = s.cpl ∧ t.cfg.mode = s.cfg.mode) ∧
    (∀ f, exec i s = .fault f → exec i { s with cpl := c } = .fault f) ∧
    ∀ r, exec i s = .refused r → exec i { s with cpl := c } = .refused r

/-! ### Addresses -/

/-- R89, R87: in every form, mod 00, rm 101 is RIP-relative in Mode64, from the address of the next instruction of that
form, truncated to 32 bits under a 67 prefix, and disp32 alone with 32-bit addressing elsewhere (Mode32, or Mode16 with
67); its segment is DS or the override's (R92). -/
def Obligations.RipRelativeAddress : Prop :=
  ∀ (s : State) (i : Instr) (al : AlignRule) (a : Access) (v : BitVec 32),
    memOperand s i = some (al, a) → rmField i = .mem (.disp v) →
    (s.cfg.mode = .mode64 → (pfxField i).a67 = false → a.ea = s.pc + BitVec.ofNat 64 i.len + v.signExtend 64) ∧
    (s.cfg.mode = .mode64 → (pfxField i).a67 = true →
      a.ea = ((s.pc + BitVec.ofNat 64 i.len + v.signExtend 64).setWidth 32).setWidth 64) ∧
    (s.cfg.mode ≠ .mode64 → addrWidth s i = 32 → a.ea = v.setWidth 64) ∧
    a.seg = segOf i false

/-- R88, R87, R89, R92: in every form, with 32- or 64-bit addressing in every mode, a SIB form is base + index * factor +
displacement at the address size, with any of the three displacements; an index of 0100 counts as none and 1100 is R12;
without a base it is index * factor + disp32. The segment is SS for (E/R)SP and (E/R)BP as base, R12 and R13 not among
them, and DS otherwise, or the override's. -/
def Obligations.SibAddress : Prop :=
  ∀ (s : State) (i : Instr) (al : AlignRule) (a : Access) (ss : BitVec 2) (index : BitVec 3),
    memOperand s i = some (al, a) → addrWidth s i ≠ 16 →
    (∀ base d, rmField i = .mem (.sib ss index base d) →
      a.ea = (gprLow s (addrWidth s i) (bField i) base + indexLow s (addrWidth s i) (xField i) ss index +
        dispLow (addrWidth s i) (scaleField i) d).setWidth 64 ∧
      a.seg = segOf i (stackBase i base)) ∧
    ∀ v, rmField i = .mem (.sibNoBase ss index v) →
      a.ea = (indexLow s (addrWidth s i) (xField i) ss index + v.signExtend (addrWidth s i)).setWidth 64 ∧
      a.seg = segOf i false

/-- R90: the 16-bit table, in every form, in Mode32 with a 67 prefix and in Mode16 without (where forms 3 to 10 are
#UD, log 14): each row is the sum of its registers' low 16 bits and of its displacement (none, disp8 or disp16) modulo
2^16, with segment SS for the rows with BP and DS for the others, or the override's; mod 00, rm 110 is disp16 alone,
in DS. (A disp8 of an EVEX form is scaled here too, log 29.) -/
def Obligations.SixteenBitTable : Prop :=
  ∀ (s : State) (i : Instr) (al : AlignRule) (a : Access), memOperand s i = some (al, a) → addrWidth s i = 16 →
    (∀ row ∈ ([(0#3, [3#4, 6#4], false), (1#3, [3#4, 7#4], false), (2#3, [5#4, 6#4], true),
        (3#3, [5#4, 7#4], true), (4#3, [6#4], false), (5#3, [7#4], false), (6#3, [5#4], true), (7#3, [3#4], false)] :
        List (BitVec 3 × List (BitVec 4) × Bool)), ∀ d, (row.1 = 6#3 → d ≠ .none) →
      rmField i = .mem (.base16 row.1 d) →
      a.ea.toNat = ((row.2.1.map fun g => (s.getGpr g).toNat % 2 ^ 16).sum +
        (disp16Low (scaleField i) d).toNat) % 2 ^ 16 ∧
      a.seg = segOf i row.2.2) ∧
    ∀ v, rmField i = .mem (.disp16 v) → a.ea = v.setWidth 64 ∧ a.seg = segOf i false

/-- R101, R91, R87, R89, R92: in every form, with 32- or 64-bit addressing in every mode, a plain base form is the base
register plus its displacement at the address size; in an EVEX form a disp8 is scaled by the vector's bytes, or by the
element's with broadcast, in the legacy and VEX forms by nothing, and a disp32 never (`scaleField`). The segment is SS
for (E/R)SP and (E/R)BP, and DS otherwise, or the override's. -/
def Obligations.CompressedDisplacement : Prop :=
  ∀ (s : State) (i : Instr) (al : AlignRule) (a : Access) (rm : BitVec 3) (d : Disp),
    memOperand s i = some (al, a) → addrWidth s i ≠ 16 → rmField i = .mem (.base rm d) →
    a.ea = (gprLow s (addrWidth s i) (bField i) rm + dispLow (addrWidth s i) (scaleField i) d).setWidth 64 ∧
    a.seg = segOf i (stackBase i rm)

/-- R56: the linear address of byte `k` is ea + k in Mode64 for CS, DS, ES and SS, base + ea + k for FS and GS, and
base + ea + k modulo 2^32 for every segment outside Mode64 (the wrap of a later byte is log 18). The check made of it: in
Mode64 bits 63 down to VA_BITS - 1 are all equal; outside it SegCheck, and 0 to FFFFH in real-address and virtual-8086
mode. SegCheck is a parameter (R6, D6): the first range given for the offset decides, and where none is given the
segment must be present, readable and not null and the offset inside its limit (log 6). -/
def Obligations.LinearAddressRule : Prop :=
  ∀ (s : State) (seg : SegName) (ea : Word64) (k : Nat),
    (s.cfg.mode = .mode64 → seg ≠ .fs → seg ≠ .gs → (linear s seg ea k).toNat = (ea.toNat + k) % 2 ^ 64) ∧
    (s.cfg.mode = .mode64 → (seg = .fs ∨ seg = .gs) →
      (linear s seg ea k).toNat = ((s.seg seg).base.toNat + ea.toNat + k) % 2 ^ 64) ∧
    (s.cfg.mode ≠ .mode64 → (linear s seg ea k).toNat = ((s.seg seg).base.toNat + ea.toNat + k) % 2 ^ 32) ∧
    (s.cfg.mode = .mode64 → (byteAllowed s seg ea k = true ↔ ∀ j, s.cfg.vaBits.bits - 1 ≤ j → j < 64 →
      (linear s seg ea k).getLsbD j = (linear s seg ea k).getLsbD 63)) ∧
    (s.cfg.mode ≠ .mode64 →
      (byteAllowed s seg ea k = true ↔
        segParam s seg (ea.toNat + k) = true ∧
        ((s.cr0.getLsbD 0 = false ∨ s.eflags.getLsbD 17 = true) → ea.toNat + k ≤ 0xFFFF))) ∧
    (∀ pre r post, s.cfg.segCheck = pre ++ r :: post →
      (r.seg = seg ∧ r.first ≤ ea.toNat + k ∧ ea.toNat + k ≤ r.last) →
      (∀ q ∈ pre, ¬ (q.seg = seg ∧ q.first ≤ ea.toNat + k ∧ ea.toNat + k ≤ q.last)) →
      segParam s seg (ea.toNat + k) = r.passes) ∧
    ((∀ q ∈ s.cfg.segCheck, ¬ (q.seg = seg ∧ q.first ≤ ea.toNat + k ∧ ea.toNat + k ≤ q.last)) →
      (s.seg seg).expandDown = false →
      (segParam s seg (ea.toNat + k) = true ↔
        (s.seg seg).present = true ∧ (s.seg seg).readable = true ∧ (s.seg seg).null = false ∧
        ea.toNat + k ≤ (s.seg seg).limit.toNat))

/-! ### Equalities between forms -/

/-- R131, R141, R152: with one register as every operand, form 1 keeps MM[d] and form 2 keeps Z[d] in all its bits,
while VPAND xmm keeps the low 128 bits and zeroes the rest. -/
def Obligations.SameRegisterOperands : Prop :=
  ∀ (s t : State),
    (∀ o : LegacyOp, o.rm = .reg o.reg → exec (.pandMm o) s = .next t → t.mm = s.mm) ∧
    (∀ o : LegacyOp, o.rm = .reg o.reg → LegacyOp.rBit o = LegacyOp.bBit o → exec (.pandXmm o) s = .next t →
      t.z = s.z) ∧
    ∀ o : Vex2Op, o.rm = .reg o.reg → o.r = false → vvvvNum false o.vvvv = vecNum false o.r o.reg →
      exec (.vpandXmmVex2 o) s = .next t → ∀ i < 512, (t.getZ (vecNum false o.r o.reg)).getLsbD i =
        (decide (i < 128) && (s.getZ (vecNum false o.r o.reg)).getLsbD i)

/-- R167: with no writemask, no broadcast and any operand, VPANDD and VPANDQ of the same length give the same outcome. -/
def Obligations.UnmaskedVpanddIsVpandq : Prop :=
  ∀ (s : State) (vl : VecLen) (o : EvexOp), o.aaa = 0#3 → o.bc = false →
    exec (evexInstr .e32 vl o) s = exec (evexInstr .e64 vl o) s

/-- R152, R167: form 2 and form 3 (two-byte VEX) on the same registers (destination also the first source) agree in bits
127:0 of the destination, form 3 zeroes the others and form 2 keeps them. -/
def Obligations.Form2AgainstForm3 : Prop :=
  ∀ (s t u : State) (o : LegacyOp) (v : Vex2Op) (r : BitVec 3), o.rm = .reg r → v.rm = .reg r →
    LegacyOp.bBit o = false → xmmDest o = vecNum false v.r v.reg → vvvvNum false v.vvvv = vecNum false v.r v.reg →
    exec (.pandXmm o) s = .next t → exec (.vpandXmmVex2 v) s = .next u →
    ∀ i < 512, (u.getZ (xmmDest o)).getLsbD i = (decide (i < 128) && (t.getZ (xmmDest o)).getLsbD i) ∧
      (128 ≤ i → (t.getZ (xmmDest o)).getLsbD i = (s.getZ (xmmDest o)).getLsbD i)

/-! ### Invariants and reset -/

/-- Every step keeps the invariant: memory canonical, the bits and registers the processor lacks zero (R23 to R25), pc
within its width (R27), XCR0 bit 0 set (R30); and it keeps the parameters, so that they stay ones whose lengths fit
(R6) and whose mode agrees with the registers (R30). -/
def Obligations.StepKeepsInvariant : Prop :=
  ∀ s t : State, s.Inv → step s = .next t →
    t.Inv ∧ t.cfg = s.cfg ∧ (s.ModeAgrees → t.ModeAgrees)

/-- The state after RESET meets the invariant, whatever the parameters, and its mode agrees with its registers. -/
def Obligations.ResetMeetsInvariant : Prop :=
  ∀ c : Config, (State.resetOf c).Inv ∧ (State.resetOf c).ModeAgrees

/-- R24: whenever an EVEX form is not stopped by #UD, registers 16 to 31 exist, so every register it names does. -/
def Obligations.EvexRegistersExist : Prop :=
  ∀ (s : State) (es : ElemSize) (vl : VecLen) (o : EvexOp), udCondition s (evexInstr es vl o) = false →
    Config.hasHighVecs s.cfg = true ∧ vl.bits ≤ s.cfg.maxvl.bits

/-- R35, the RESET column, for the registers whose reset value it gives (EAX, for which it leaves a choice, bits 63:32
of RDX, FIP, FDP, segment attributes, memory and `draws` are the model's, log 4, 6, 10, 11): at any parameters. -/
def Obligations.ResetValues : Prop :=
  ∀ c : Config,
    (∀ j, (State.resetOf c).getMm j = 0#64) ∧ (∀ j : Fin 8, (State.resetOf c).stExp[j] = 0#16) ∧
    (State.resetOf c).ftw = 0x5555#16 ∧ (State.resetOf c).fsw = 0#16 ∧ (State.resetOf c).fcw = 0x40#16 ∧
    (∀ j, (State.resetOf c).getZ j = 0#512) ∧ (∀ j, (State.resetOf c).getK j = 0#64) ∧
    (State.resetOf c).mxcsr = 0x1F80#32 ∧ (State.resetOf c).cr0 = 0x60000010#64 ∧
    (State.resetOf c).cr2 = 0#64 ∧ (State.resetOf c).cr3 = 0#64 ∧ (State.resetOf c).cr4 = 0#64 ∧
    (State.resetOf c).xcr0 = 1#64 ∧ (State.resetOf c).efer = 0#64 ∧ (State.resetOf c).eflags = 2#32 ∧
    (State.resetOf c).pc = 0xFFF0#64 ∧ (State.resetOf c).cpl = 0#2 ∧
    (State.resetOf c).cs.selector = 0xF000#16 ∧ (State.resetOf c).cs.base = 0xFFFF0000#64 ∧
    (State.resetOf c).cs.limit = 0xFFFF#32 ∧ (State.resetOf c).cs.l = false ∧ (State.resetOf c).cs.d = false ∧
    (∀ g ∈ [SegName.ds, .es, .fs, .gs, .ss], ((State.resetOf c).seg g).selector = 0#16 ∧
      ((State.resetOf c).seg g).base = 0#64 ∧ ((State.resetOf c).seg g).limit = 0xFFFF#32) ∧
    (State.resetOf c).getGpr 2#4 = c.signature.setWidth 64 ∧
    (∀ g, g ≠ 0#4 → g ≠ 2#4 → (State.resetOf c).getGpr g = 0#64) ∧
    fetchLinear (State.resetOf c) 0 = 0xFFFFFFF0#64

/-- R35, the INIT column: the x87, MMX, vector and opmask state, MXCSR and memory are unchanged; CR0 is 60000010H but
for CD and NW, which keep their values; XCR0, which R35 leaves unspecified, has bit 0 set (R30); the other control
registers, EFLAGS, pc, the segment registers' selector, base and limit, CS's L and D, CPL, EDX and the other general
registers (RAX apart, R35 leaving EAX a choice) are as after RESET, bits 63:32 of RDX being 0 by log 11. -/
def Obligations.InitValues : Prop :=
  ∀ s : State,
    s.afterInit.mm = s.mm ∧ s.afterInit.stExp = s.stExp ∧ s.afterInit.ftw = s.ftw ∧ s.afterInit.fsw = s.fsw ∧
    s.afterInit.fcw = s.fcw ∧ s.afterInit.z = s.z ∧ s.afterInit.k = s.k ∧ s.afterInit.mxcsr = s.mxcsr ∧
    s.afterInit.mem = s.mem ∧
    (∀ i < 64, s.afterInit.cr0.getLsbD i =
      if i = 29 ∨ i = 30 then s.cr0.getLsbD i else (0x60000010#64).getLsbD i) ∧
    s.afterInit.cr2 = 0#64 ∧ s.afterInit.cr3 = 0#64 ∧ s.afterInit.cr4 = 0#64 ∧ s.afterInit.efer = 0#64 ∧
    s.afterInit.xcr0.getLsbD 0 = true ∧ s.afterInit.eflags = 2#32 ∧ s.afterInit.pc = 0xFFF0#64 ∧
    s.afterInit.cpl = 0#2 ∧
    s.afterInit.cs.selector = 0xF000#16 ∧ s.afterInit.cs.base = 0xFFFF0000#64 ∧
    s.afterInit.cs.limit = 0xFFFF#32 ∧ s.afterInit.cs.l = false ∧ s.afterInit.cs.d = false ∧
    (∀ g ∈ [SegName.ds, .es, .fs, .gs, .ss], (s.afterInit.seg g).selector = 0#16 ∧
      (s.afterInit.seg g).base = 0#64 ∧ (s.afterInit.seg g).limit = 0xFFFF#32) ∧
    s.afterInit.getGpr 2#4 = s.cfg.signature.setWidth 64 ∧
    ∀ g, g ≠ 0#4 → g ≠ 2#4 → s.afterInit.getGpr g = 0#64

/-- R35, R220: straight after RESET form 1 with a register operand completes when the processor has MMX, form 2 raises
#UD, and forms 3 to 10 raise #UD. -/
def Obligations.AfterResetOnlyForm1 : Prop :=
  ∀ c : Config,
    (∀ o r, o.rm = .reg r → c.feat.mmx = true → ∃ t, exec (.pandMm o) (State.resetOf c) = .next t) ∧
    ∀ i, (∀ o, i ≠ .pandMm o) → exec i (State.resetOf c) = .fault (.ud 0xFFF0#64)
end

