-- ==== Sys2Proof/Laws/Encode.lean ====
section
/-! SUPPORT. The pieces of an encoding: their lengths, and that the decoder's pieces read them back. -/

namespace Sys2Proof

/-! ### Lengths (30_encoding.md R102) -/

theorem Pfx.length_encode (p : Pfx) : p.encode.length = p.len := by
  obtain ⟨seg, a67⟩ := p
  cases seg <;> cases a67 <;> rfl

theorem Pfx.len_le (p : Pfx) : p.len ≤ 2 := by
  obtain ⟨seg, a67⟩ := p
  cases seg <;> cases a67 <;> simp [Pfx.len]

theorem Rm.length_encode (reg : BitVec 3) (rm : Rm) : (rm.encode reg).length = rm.len := by
  cases rm with
  | reg r => rfl
  | mem m =>
    cases m with
    | base r d => cases d <;> rfl
    | disp v => rfl
    | sib ss i b d => cases d <;> rfl
    | sibNoBase ss i v => rfl
    | base16 r d => cases d <;> rfl
    | disp16 v => rfl

/-- ModRM and what follows it take 1 to 6 bytes. -/
theorem Rm.len_bounds (rm : Rm) : 1 ≤ rm.len ∧ rm.len ≤ 6 := by
  cases rm with
  | reg r => simp [Rm.len]
  | mem m =>
    cases m with
    | base r d => cases d <;> simp [Rm.len, Disp.len]
    | disp v => simp [Rm.len]
    | sib ss i b d => cases d <;> simp [Rm.len, Disp.len]
    | sibNoBase ss i v => simp [Rm.len]
    | base16 r d => cases d <;> simp [Rm.len, Disp16.len]
    | disp16 v => simp [Rm.len]

/-! ### Bits of packed bytes -/

@[simp] theorem packByte_hi (a : BitVec 2) (b c : BitVec 3) : (packByte a b c).extractLsb' 6 2 = a := by
  revert a b c; decide
@[simp] theorem packByte_mid (a : BitVec 2) (b c : BitVec 3) : (packByte a b c).extractLsb' 3 3 = b := by
  revert a b c; decide
@[simp] theorem packByte_low (a : BitVec 2) (b c : BitVec 3) : (packByte a b c).extractLsb' 0 3 = c := by
  revert a b c; decide

/-! ### Displacements, memory operands, ModRM -/

theorem take16_bytes16 (v : BitVec 16) (rest : List Byte) : take16 (bytes16 v ++ rest) = some (v, rest) := by
  simp only [bytes16, List.cons_append, List.nil_append, take16, Option.some.injEq, Prod.mk.injEq, and_true]
  ext i hi
  simp only [BitVec.getElem_append, BitVec.getElem_extractLsb']
  split <;> simp [BitVec.getLsbD_eq_getElem hi]
  · rename_i h
    have : 8 + (i - 8) = i := by omega
    simp [this, BitVec.getLsbD_eq_getElem hi]

theorem take32_bytes32 (v : BitVec 32) (rest : List Byte) : take32 (bytes32 v ++ rest) = some (v, rest) := by
  simp only [bytes32, List.cons_append, List.nil_append, take32, Option.some.injEq, Prod.mk.injEq, and_true]
  apply BitVec.eq_of_getLsbD_eq
  intro i hi
  simp only [BitVec.getLsbD_append, BitVec.getLsbD_extractLsb']
  split_ifs with h1 h2 h3
  · simp [h1]
  · simp [h2]
    congr 1; omega
  · simp [h3]
    congr 1; omega
  · have : i - 8 - 8 - 8 < 8 := by omega
    simp [this]
    congr 1; omega

theorem takeDisp_encode (d : Disp) (rest : List Byte) : takeDisp d.md (d.encode ++ rest) = some (d, rest) := by
  cases d with
  | none => rfl
  | d8 v => rfl
  | d32 v => simp [takeDisp, Disp.md, Disp.encode, take32_bytes32]

theorem takeDisp16_encode (d : Disp16) (rest : List Byte) :
    takeDisp16 d.md (d.encode ++ rest) = some (d, rest) := by
  cases d with
  | none => rfl
  | d8 v => rfl
  | d16 v => simp [takeDisp16, Disp16.md, Disp16.encode, take16_bytes16]

theorem Disp.md_ne (d : Disp) : d.md ≠ 3#2 := by cases d <;> simp [Disp.md]
theorem Disp16.md_ne (d : Disp16) : d.md ≠ 3#2 := by cases d <;> simp [Disp16.md]
theorem Disp.md_eq_zero {d : Disp} : d.md = 0#2 ↔ d = .none := by cases d <;> simp [Disp.md]
theorem Disp16.md_eq_zero {d : Disp16} : d.md = 0#2 ↔ d = .none := by cases d <;> simp [Disp16.md]

end Sys2Proof
end

