-- ==== Sys2Proof/Laws/Decode.lean ====
section
/-! SUPPORT. The decoder's pieces on the encoder's pieces, and the inverse: what a piece of bytes that a piece of the
decoder accepts must be. -/

namespace Sys2Proof

/-! ### The limit of 15 bytes (R102) -/

@[simp] theorem limitLength_instr (bs : List Byte) (i : Instr) (rest : List Byte) :
    limitLength bs (.instr i rest) = .instr i rest := rfl

/-- The decoder answers the instructions of R103's procedure and no other. -/
theorem decode_eq_instr {m : Mode} {bs rest : List Byte} {i : Instr} :
    decode m bs = .instr i rest ↔ decodeBytes m bs = .instr i rest := by
  unfold decode
  cases decodeBytes m bs <;> simp only [limitLength] <;> (try split) <;> simp

/-- A rejection for any reason but missing bytes stands. -/
theorem decode_eq_reject {m : Mode} {bs : List Byte} {r : Reject} (hr : r ≠ .truncated) :
    decode m bs = .reject r ↔ decodeBytes m bs = .reject r := by
  unfold decode
  rcases decodeBytes m bs with ⟨i, rest⟩ | rest | _ | q
  · simp [limitLength]
  · simp only [limitLength]; split <;> simp
  · simp [limitLength]
  · simp only [limitLength]
    split
    · rename_i h
      simp only [reduceCtorEq, Decoded.reject.injEq, false_iff]
      exact fun hq => hr (hq ▸ h.1)
    · exact Iff.rfl

/-- What becomes of a #UD once its instruction's bytes are counted. -/
theorem limitLength_udOnceFetched (sz : AddrSize) (bs tail : List Byte) :
    limitLength bs (udOnceFetched sz tail) = Machine.udAnswer sz bs tail := by
  unfold udOnceFetched Machine.udAnswer
  rcases takeModRM sz tail with _ | ⟨reg, rm, r⟩
  · simp [limitLength, maxLen]
  · simp only [limitLength, maxLen]
    congr 1
    exact propext (by omega)

/-! ### Prefixes and REX (R82, R83) -/

theorem scanPfx_encode (p : Pfx) (rest : List Byte) :
    scanPfx .start (p.encode ++ rest) = scanPfx ⟨p.seg, p.a67, false, false, false⟩ rest := by
  obtain ⟨seg, a67⟩ := p
  rcases seg with _ | s <;> cases a67 <;> try cases s
  all_goals rfl

theorem scanPfx_stop {p : Seen} {b : Byte} {bs : List Byte} (h : pfxKind b = none) :
    scanPfx p (b :: bs) = some (p, b :: bs) := by
  simp [scanPfx, h]

theorem scanPfx_66 {p : Seen} {bs : List Byte} (h : p.p66 = false) :
    scanPfx p (0x66#8 :: bs) = scanPfx { p with p66 := true } bs := by
  have hk : pfxKind 0x66#8 = some .p66 := by decide
  simp [scanPfx, hk, Seen.add, h]

theorem pfxKind_rex (x : Rex) : pfxKind x.encode = none := by
  obtain ⟨w, r, x, b⟩ := x
  cases w <;> cases r <;> cases x <;> cases b <;> decide

theorem takeRex_encode (x : Rex) (rest : List Byte) : takeRex .mode64 (x.encode :: rest) = (some x, rest) := by
  obtain ⟨w, r, x, b⟩ := x
  cases w <;> cases r <;> cases x <;> cases b <;> rfl

theorem takeRex_none {m : Mode} {b : Byte} {rest : List Byte} (h : b.extractLsb' 4 4 ≠ 4#4) :
    takeRex m (b :: rest) = (none, b :: rest) := by
  simp [takeRex, h]

/-! ### ModRM, SIB, displacement (R84 to R91) -/

theorem takeDisp_sib (ss : BitVec 2) (index base : BitVec 3) (d : Disp) (rest : List Byte)
    (h : d.fitsBase base = true) :
    takeSib d.md (packByte ss index base :: (d.encode ++ rest)) = some (.sib ss index base d, rest) := by
  have hn : ¬ (d.md = 0#2 ∧ base = 5#3) := by
    rintro ⟨hd, hb⟩
    rw [Disp.md_eq_zero] at hd
    simp [Disp.fitsBase, hd, hb] at h
  simp only [takeSib, packByte_hi, packByte_mid, packByte_low]
  rw [if_neg hn, takeDisp_encode]
  rfl

/-- ModRM and what follows it are read back. -/
theorem takeModRM_encode (sz : AddrSize) (reg : BitVec 3) (rm : Rm) (rest : List Byte)
    (h : rm.wellFormed sz = true) : takeModRM sz (rm.encode reg ++ rest) = some (reg, rm, rest) := by
  cases rm with
  | reg r => simp [Rm.encode, takeModRM]
  | mem m =>
    cases m with
    | base r d =>
      simp only [Rm.wellFormed, Mem.wellFormed, Bool.and_eq_true, bne_iff_ne] at h
      have hn : ¬ (d.md = 0#2 ∧ r = 5#3) := by
        rintro ⟨hd, hb⟩
        rw [Disp.md_eq_zero] at hd
        simp [Disp.fitsBase, hd, hb] at h
      simp [Rm.encode, Mem.encode, takeModRM, Disp.md_ne, takeMem, h.1.1, h.1.2, hn, takeDisp_encode]
    | disp v =>
      simp only [Rm.wellFormed, Mem.wellFormed, bne_iff_ne] at h
      simp [Rm.encode, Mem.encode, takeModRM, takeMem, h, take32_bytes32]
    | sib ss i b d =>
      simp only [Rm.wellFormed, Mem.wellFormed, Bool.and_eq_true, bne_iff_ne] at h
      simp [Rm.encode, Mem.encode, takeModRM, Disp.md_ne, takeMem, h.1, takeDisp_sib _ _ _ _ _ h.2]
    | sibNoBase ss i v =>
      simp only [Rm.wellFormed, Mem.wellFormed, bne_iff_ne] at h
      simp [Rm.encode, Mem.encode, takeModRM, takeMem, h, takeSib, take32_bytes32]
    | base16 r d =>
      simp only [Rm.wellFormed, Mem.wellFormed, Bool.and_eq_true, Bool.or_eq_true, beq_iff_eq, bne_iff_ne] at h
      have hn : ¬ (d.md = 0#2 ∧ r = 6#3) := by
        rintro ⟨hd, hb⟩
        rw [Disp16.md_eq_zero] at hd
        simp [hd, hb] at h
      simp [Rm.encode, Mem.encode, takeModRM, Disp16.md_ne, takeMem, h.1, hn, takeDisp16_encode]
    | disp16 v =>
      simp only [Rm.wellFormed, Mem.wellFormed, beq_iff_eq] at h
      simp [Rm.encode, Mem.encode, takeModRM, takeMem, h, take16_bytes16]

/-- Six bytes are enough for ModRM, SIB and displacement: the operand of any form is complete in them. -/
theorem takeModRM_of_length {sz : AddrSize} {bs : List Byte} (h : 6 ≤ bs.length) : takeModRM sz bs ≠ none := by
  rcases bs with _ | ⟨b0, _ | ⟨b1, _ | ⟨b2, _ | ⟨b3, _ | ⟨b4, _ | ⟨b5, bs⟩⟩⟩⟩⟩⟩ <;> simp at h
  simp only [takeModRM, takeMem, takeSib, takeDisp, takeDisp16, take8, take16, take32]
  split_ifs <;> simp

/-! ### Bits of the packed prefix bytes -/

theorem bitsByte_bits (b7 b6 b5 b4 b3 b2 b1 b0 : Bool) :
    (bitsByte b7 b6 b5 b4 b3 b2 b1 b0).getLsbD 7 = b7 ∧ (bitsByte b7 b6 b5 b4 b3 b2 b1 b0).getLsbD 6 = b6 ∧
    (bitsByte b7 b6 b5 b4 b3 b2 b1 b0).getLsbD 5 = b5 ∧ (bitsByte b7 b6 b5 b4 b3 b2 b1 b0).getLsbD 4 = b4 ∧
    (bitsByte b7 b6 b5 b4 b3 b2 b1 b0).getLsbD 3 = b3 ∧ (bitsByte b7 b6 b5 b4 b3 b2 b1 b0).getLsbD 2 = b2 ∧
    (bitsByte b7 b6 b5 b4 b3 b2 b1 b0).getLsbD 1 = b1 ∧ (bitsByte b7 b6 b5 b4 b3 b2 b1 b0).getLsbD 0 = b0 := by
  revert b7 b6 b5 b4 b3 b2 b1 b0; decide

/-- The inverted vvvv field is read back. -/
theorem vvvv_bits (b7 b2 b1 b0 : Bool) (v : BitVec 4) :
    ~~~((bitsByte b7 (!v.getLsbD 3) (!v.getLsbD 2) (!v.getLsbD 1) (!v.getLsbD 0) b2 b1 b0).extractLsb' 3 4) = v := by
  revert b7 b2 b1 b0 v; decide

theorem bitsByte_low2 (b7 b6 b5 b4 b3 b2 b1 b0 : Bool) :
    (bitsByte b7 b6 b5 b4 b3 b2 b1 b0).extractLsb' 0 2 = BitVec.ofBool b1 ++ BitVec.ofBool b0 := by
  revert b7 b6 b5 b4 b3 b2 b1 b0; decide

/-- The aaa field is read back. -/
theorem aaa_bits (b7 b6 b5 b4 b3 : Bool) (a : BitVec 3) :
    (bitsByte b7 b6 b5 b4 b3 (a.getLsbD 2) (a.getLsbD 1) (a.getLsbD 0)).extractLsb' 0 3 = a := by
  revert b7 b6 b5 b4 b3 a; decide

theorem bitsByte_top2 (b7 b6 b5 b4 b3 b2 b1 b0 : Bool) :
    (bitsByte b7 b6 b5 b4 b3 b2 b1 b0).extractLsb' 6 2 = BitVec.ofBool b7 ++ BitVec.ofBool b6 := by
  revert b7 b6 b5 b4 b3 b2 b1 b0; decide

theorem bitsByte_low5 (b7 b6 b5 b4 b3 b2 b1 b0 : Bool) :
    (bitsByte b7 b6 b5 b4 b3 b2 b1 b0).extractLsb' 0 5 =
      BitVec.ofBool b4 ++ BitVec.ofBool b3 ++ BitVec.ofBool b2 ++ BitVec.ofBool b1 ++ BitVec.ofBool b0 := by
  revert b7 b6 b5 b4 b3 b2 b1 b0; decide

theorem bitsByte_low3 (b7 b6 b5 b4 b3 b2 b1 b0 : Bool) :
    (bitsByte b7 b6 b5 b4 b3 b2 b1 b0).extractLsb' 0 3 =
      BitVec.ofBool b2 ++ BitVec.ofBool b1 ++ BitVec.ofBool b0 := by
  revert b7 b6 b5 b4 b3 b2 b1 b0; decide

theorem bitsByte_ll (b7 b6 b5 b4 b3 b2 b1 b0 : Bool) :
    (bitsByte b7 b6 b5 b4 b3 b2 b1 b0).extractLsb' 5 2 = BitVec.ofBool b6 ++ BitVec.ofBool b5 := by
  revert b7 b6 b5 b4 b3 b2 b1 b0; decide

/-! ### What an accepted piece of bytes is -/

/-- How many prefixes have been seen. -/
def Seen.count (p : Seen) : Nat :=
  (if p.seg.isSome then 1 else 0) + (if p.a67 then 1 else 0) + (if p.p66 then 1 else 0) +
    (if p.rep then 1 else 0) + (if p.lock then 1 else 0)

theorem Seen.count_add {p p' : Seen} {k : PfxKind} (h : p.add k = some p') : p'.count = p.count + 1 := by
  cases k <;> simp only [Seen.add] at h <;> split at h <;> simp at h <;> subst h <;> simp_all [Seen.count] <;> omega

/-- The prefixes taken are a front of the bytes, one byte for each. -/
theorem scanPfx_front {bs : List Byte} : ∀ {p0 p : Seen} {r : List Byte}, scanPfx p0 bs = some (p, r) →
    ∃ f, bs = f ++ r ∧ f.length + p0.count = p.count := by
  induction bs with
  | nil =>
    intro p0 p r h
    simp [scanPfx] at h
    obtain ⟨rfl, rfl⟩ := h
    exact ⟨[], rfl, by simp⟩
  | cons b bs ih =>
    intro p0 p r h
    simp only [scanPfx] at h
    split at h
    · simp at h
      obtain ⟨rfl, rfl⟩ := h
      exact ⟨[], rfl, by simp⟩
    · split at h
      · cases h
      · rename_i k hk p' hp'
        obtain ⟨f, hf, hl⟩ := ih h
        have := Seen.count_add hp'
        exact ⟨b :: f, by simp [hf], by simp; omega⟩

/-- A REX byte is taken in Mode64 only. -/
theorem takeRex_front {m : Mode} {bs r : List Byte} {rex : Option Rex} (h : takeRex m bs = (rex, r)) :
    ∃ f, bs = f ++ r ∧ f.length = (if rex.isSome then 1 else 0) ∧ (m = .mode64 ∨ rex = none) := by
  unfold takeRex at h
  split at h
  · simp at h
    obtain ⟨rfl, rfl⟩ := h
    exact ⟨[], rfl, rfl, Or.inr rfl⟩
  · split at h <;> simp at h <;> obtain ⟨rfl, rfl⟩ := h
    · rename_i hh
      exact ⟨[_], rfl, rfl, Or.inl hh.1⟩
    · exact ⟨[], rfl, rfl, Or.inr rfl⟩

theorem take8_front {bs r : List Byte} {v : BitVec 8} (h : take8 bs = some (v, r)) : bs = [v] ++ r := by
  cases bs with
  | nil => simp [take8] at h
  | cons b bs => simp [take8] at h; simp [h]

theorem take16_front {bs r : List Byte} {v : BitVec 16} (h : take16 bs = some (v, r)) :
    ∃ f, bs = f ++ r ∧ f.length = 2 := by
  rcases bs with _ | ⟨b0, _ | ⟨b1, bs⟩⟩ <;> simp [take16] at h
  exact ⟨[b0, b1], by simp [h.2], rfl⟩

theorem take32_front {bs r : List Byte} {v : BitVec 32} (h : take32 bs = some (v, r)) :
    ∃ f, bs = f ++ r ∧ f.length = 4 := by
  rcases bs with _ | ⟨b0, _ | ⟨b1, _ | ⟨b2, _ | ⟨b3, bs⟩⟩⟩⟩ <;> simp [take32] at h
  exact ⟨[b0, b1, b2, b3], by simp [h.2], rfl⟩

theorem takeDisp_front {md : BitVec 2} {bs r : List Byte} {d : Disp} (h : takeDisp md bs = some (d, r)) :
    (∃ f, bs = f ++ r ∧ f.length = d.len) ∧ (md ≠ 0#2 → d ≠ .none) := by
  unfold takeDisp at h
  split at h
  · rename_i hmd
    simp at h
    obtain ⟨rfl, rfl⟩ := h
    exact ⟨⟨[], rfl, rfl⟩, fun hh => absurd hmd hh⟩
  · split at h <;> simp only [Option.map_eq_some_iff, Prod.mk.injEq, Prod.exists] at h
    · obtain ⟨v, r', h, rfl, rfl⟩ := h
      exact ⟨⟨[v], take8_front h, rfl⟩, by simp⟩
    · obtain ⟨v, r', h, rfl, rfl⟩ := h
      exact ⟨take32_front h, by simp⟩

theorem takeDisp16_front {md : BitVec 2} {bs r : List Byte} {d : Disp16} (h : takeDisp16 md bs = some (d, r)) :
    (∃ f, bs = f ++ r ∧ f.length = d.len) ∧ (md ≠ 0#2 → d ≠ .none) := by
  unfold takeDisp16 at h
  split at h
  · rename_i hmd
    simp at h
    obtain ⟨rfl, rfl⟩ := h
    exact ⟨⟨[], rfl, rfl⟩, fun hh => absurd hmd hh⟩
  · split at h <;> simp only [Option.map_eq_some_iff, Prod.mk.injEq, Prod.exists] at h
    · obtain ⟨v, r', h, rfl, rfl⟩ := h
      exact ⟨⟨[v], take8_front h, rfl⟩, by simp⟩
    · obtain ⟨v, r', h, rfl, rfl⟩ := h
      exact ⟨take16_front h, by simp⟩

theorem front_cons {bs r : List Byte} {n : Nat} (b : Byte) (h : ∃ f, bs = f ++ r ∧ f.length = n) :
    ∃ f, b :: bs = f ++ r ∧ f.length = 1 + n := by
  obtain ⟨f, rfl, rfl⟩ := h
  exact ⟨b :: f, rfl, by simp; omega⟩

/-- What `takeModRM` accepts has the length of its operand, which the address size can spell. -/
theorem takeModRM_front {sz : AddrSize} {bs r : List Byte} {reg : BitVec 3} {rm : Rm}
    (h : takeModRM sz bs = some (reg, rm, r)) :
    (∃ f, bs = f ++ r ∧ f.length = rm.len) ∧ rm.wellFormed sz = true := by
  unfold takeModRM at h
  split at h
  · cases h
  · rename_i mb bs
    simp only at h
    split at h
    · simp at h; obtain ⟨_, rfl, rfl⟩ := h; exact ⟨⟨[mb], rfl, rfl⟩, rfl⟩
    · simp only [Option.map_eq_some_iff, Prod.mk.injEq, Prod.exists] at h
      obtain ⟨m, r', h, _, rfl, rfl⟩ := h
      unfold takeMem at h
      split at h
      · rename_i hsz
        split at h <;> simp only [Option.map_eq_some_iff, Prod.mk.injEq, Prod.exists] at h
        · obtain ⟨v, r', h, rfl, rfl⟩ := h
          exact ⟨front_cons _ (take16_front h), by simp [Rm.wellFormed, Mem.wellFormed, hsz]⟩
        · rename_i hn
          obtain ⟨v, r', h, rfl, rfl⟩ := h
          refine ⟨front_cons _ (takeDisp16_front h).1, ?_⟩
          simp [Rm.wellFormed, Mem.wellFormed, hsz]
          have := (takeDisp16_front h).2
          tauto
      · rename_i hsz
        split at h
        · unfold takeSib at h
          split at h
          · cases h
          · simp only at h
            split at h <;> simp only [Option.map_eq_some_iff, Prod.mk.injEq, Prod.exists] at h
            · obtain ⟨v, r', h, rfl, rfl⟩ := h
              refine ⟨?_, by simp [Rm.wellFormed, Mem.wellFormed, hsz]⟩
              have := front_cons mb (front_cons (by assumption) (take32_front h))
              simpa [Rm.len, Nat.add_assoc] using this
            · rename_i hn
              obtain ⟨v, r', h, rfl, rfl⟩ := h
              refine ⟨?_, ?_⟩
              · obtain ⟨f, hf, hl⟩ := front_cons mb (front_cons (by assumption) (takeDisp_front h).1)
                exact ⟨f, hf, by rw [hl]; simp only [Rm.len]; omega⟩
              · simp [Rm.wellFormed, Mem.wellFormed, hsz, Disp.fitsBase]
                have := (takeDisp_front h).2
                tauto
        · split at h <;> simp only [Option.map_eq_some_iff, Prod.mk.injEq, Prod.exists] at h
          · obtain ⟨v, r', h, rfl, rfl⟩ := h
            exact ⟨front_cons _ (take32_front h), by simp [Rm.wellFormed, Mem.wellFormed, hsz]⟩
          · rename_i h4 hn
            obtain ⟨v, r', h, rfl, rfl⟩ := h
            refine ⟨front_cons _ (takeDisp_front h).1, ?_⟩
            simp [Rm.wellFormed, Mem.wellFormed, hsz, Disp.fitsBase, h4]
            have := (takeDisp_front h).2
            tauto

end Sys2Proof
end

