-- ==== Sys2Proof/Laws/Slice.lean ====
section
/-! SUPPORT. Slices of vector registers, bit by bit; the loop of the EVEX forms element by element; the bytes of a
memory operand. -/

namespace Sys2Proof.Machine

@[simp] theorem getLsbD_slice (v : Vec) (lo n i : Nat) :
    (slice v lo n).getLsbD i = (decide (i < n) && v.getLsbD (lo + i)) := by
  simp [slice]

@[simp] theorem getElem_slice (v : Vec) (lo n i : Nat) (hi : i < n) :
    (slice v lo n)[i] = v.getLsbD (lo + i) := by
  simp [slice]

/-- A bit of a written slice is the new value's inside the slice and the old one outside. -/
theorem getLsbD_setSlice {n : Nat} (v : Vec) (lo : Nat) (x : BitVec n) (i : Nat) (hi : i < 512) :
    (setSlice v lo x).getLsbD i = if lo ≤ i ∧ i < lo + n then x.getLsbD (i - lo) else v.getLsbD i := by
  have h512 : i - lo < 512 := by omega
  simp only [setSlice, BitVec.getLsbD_or, BitVec.getLsbD_and, BitVec.getLsbD_not, BitVec.getLsbD_shiftLeft,
    BitVec.getLsbD_setWidth, BitVec.getLsbD_allOnes, hi, h512, decide_true, Bool.true_and]
  by_cases hlo : i < lo
  · have : ¬ (lo ≤ i ∧ i < lo + n) := by omega
    simp [hlo, this]
  · by_cases hn : i - lo < n
    · have : lo ≤ i ∧ i < lo + n := by omega
      simp [hlo, hn, this]
    · have h2 : ¬ (lo ≤ i ∧ i < lo + n) := by omega
      have h3 : x.getLsbD (i - lo) = false := BitVec.getLsbD_of_ge _ _ (by omega)
      simp [hlo, hn, h2, h3]

/-- A slice just written is read back. -/
theorem slice_setSlice_same {n : Nat} (v : Vec) (lo : Nat) (x : BitVec n) (h : lo + n ≤ 512) :
    slice (setSlice v lo x) lo n = x := by
  apply BitVec.eq_of_getLsbD_eq
  intro i hi
  rw [getLsbD_slice, getLsbD_setSlice _ _ _ _ (by omega)]
  have : lo ≤ lo + i ∧ lo + i < lo + n := by omega
  simp [hi, this]

/-- A slice apart from the written one stays. -/
theorem slice_setSlice_apart {n : Nat} (v : Vec) (lo : Nat) (x : BitVec n) (lo' n' : Nat) (h : lo' + n' ≤ 512)
    (hd : lo' + n' ≤ lo ∨ lo + n ≤ lo') : slice (setSlice v lo x) lo' n' = slice v lo' n' := by
  apply BitVec.eq_of_getLsbD_eq
  intro i hi
  rw [getLsbD_slice, getLsbD_slice, getLsbD_setSlice _ _ _ _ (by omega)]
  have : ¬ (lo ≤ lo' + i ∧ lo' + i < lo + n) := by omega
  simp [this]

theorem getLsbD_zext {n : Nat} (x : BitVec n) (i : Nat) (hi : i < 512) : (zext x).getLsbD i = x.getLsbD i := by
  simp [zext, hi]

/-- The low `n` bits of a register with zeros above them. -/
theorem getLsbD_zext_slice (v : Vec) (n i : Nat) (hn : n ≤ 512) :
    (zext (slice v 0 n)).getLsbD i = (decide (i < n) && v.getLsbD i) := by
  by_cases hi : i < 512
  · rw [getLsbD_zext _ _ hi]; simp
  · have : ¬ i < n := by omega
    rw [BitVec.getLsbD_of_ge _ _ (by omega)]
    simp [this]

/-- A slice inside the kept low bits is the register's own. -/
theorem slice_zext_slice (v : Vec) (vl lo n : Nat) (h : lo + n ≤ vl) (hv : vl ≤ 512) :
    slice (zext (slice v 0 vl)) lo n = slice v lo n := by
  apply BitVec.eq_of_getLsbD_eq
  intro i hi
  have h1 : lo + i < vl := by omega
  simp [getLsbD_zext_slice _ _ _ hv, h1]

theorem VecLen.bits_le (vl : VecLen) : vl.bits ≤ 512 := by cases vl <;> decide

theorem VecLen.elems_mul (vl : VecLen) (es : ElemSize) : vl.elems es * es.bits = vl.bits := by
  cases vl <;> cases es <;> decide

theorem VecLen.bytes_mul (vl : VecLen) : 8 * vl.bytes = vl.bits := by cases vl <;> decide

theorem ElemSize.bytes_mul (es : ElemSize) : 8 * es.bytes = es.bits := by cases es <;> decide

theorem ElemSize.bits_pos (es : ElemSize) : 0 < es.bits := by cases es <;> decide

/-- Element `j` is inside the vector. -/
theorem VecLen.elem_le {vl : VecLen} {es : ElemSize} {j : Nat} (h : j < vl.elems es) :
    j * es.bits + es.bits ≤ vl.bits := by
  rw [← VecLen.elems_mul vl es]
  calc j * es.bits + es.bits = (j + 1) * es.bits := by ring
    _ ≤ vl.elems es * es.bits := Nat.mul_le_mul_right _ h

/-- The loop of R166, element by element: what the first `n` iterations make of element `j`. -/
theorem slice_maskedAnd (es : ElemSize) (en : Nat → Bool) (z : Bool) (a : Vec) (b : Src2) (old : Vec) (n j : Nat)
    (hn : n * es.bits ≤ 512) (hj : j < n) :
    slice (maskedAnd es en z a b old n) (j * es.bits) es.bits =
      if en j then slice a (j * es.bits) es.bits &&& b.elem es j
      else if z then 0#es.bits
      else slice old (j * es.bits) es.bits := by
  induction n with
  | zero => omega
  | succ n ih =>
    have hb := ElemSize.bits_pos es
    have hn' : n * es.bits + es.bits ≤ 512 := by
      have : (n + 1) * es.bits = n * es.bits + es.bits := by ring
      omega
    rcases Nat.lt_succ_iff_lt_or_eq.mp hj with hlt | heq
    · have hle : j * es.bits + es.bits ≤ n * es.bits := by
        calc j * es.bits + es.bits = (j + 1) * es.bits := by ring
          _ ≤ n * es.bits := Nat.mul_le_mul_right _ hlt
      rw [maskedAnd, slice_setSlice_apart _ _ _ _ _ (by omega) (Or.inl hle)]
      exact ih (by omega) hlt
    · subst heq
      rw [maskedAnd, slice_setSlice_same _ _ _ hn']

/-- A byte that was read stands at its place in the assembled operand. -/
theorem slice_assemble (s : State) (a : Access) (k : Nat) (hk : k ∈ a.bytes) (h8 : 8 * k + 8 ≤ 512) :
    slice (assemble s a) (8 * k) 8 = readByte s a k := by
  unfold assemble
  generalize hl : a.bytes = l at hk
  clear hl
  induction l with
  | nil => simp at hk
  | cons b l ih =>
    rw [List.foldr_cons]
    by_cases hb : k = b
    · subst hb
      exact slice_setSlice_same _ _ _ h8
    · rw [slice_setSlice_apart _ _ _ _ _ h8 (by omega)]
      exact ih (by simpa [hb] using hk)

/-- The assembled operand bit by bit: the bits of the bytes read, 0 elsewhere (R51). -/
theorem getLsbD_assemble (s : State) (a : Access) (i : Nat) (hi : i < 512) :
    (assemble s a).getLsbD i = (decide (i / 8 ∈ a.bytes) && (readByte s a (i / 8)).getLsbD (i % 8)) := by
  unfold assemble
  generalize a.bytes = l
  induction l with
  | nil => simp
  | cons b l ih =>
    rw [List.foldr_cons, getLsbD_setSlice _ _ _ _ hi, ih]
    by_cases hb : i / 8 = b
    · have h1 : 8 * b ≤ i ∧ i < 8 * b + 8 := by omega
      have h2 : i - 8 * b = i % 8 := by omega
      simp [hb, h1, h2]
    · have h1 : ¬ (8 * b ≤ i ∧ i < 8 * b + 8) := by omega
      simp [hb, h1]

/-- The loop of R166 bit by bit, over all the elements of a vector length. -/
theorem getLsbD_maskedAnd (es : ElemSize) (vl : VecLen) (en : Nat → Bool) (z : Bool) (a : Vec) (b : Src2) (old : Vec)
    (i : Nat) (hi : i < vl.bits) :
    (maskedAnd es en z a b old (vl.elems es)).getLsbD i =
      if en (i / es.bits) then a.getLsbD i && (b.elem es (i / es.bits)).getLsbD (i % es.bits)
      else !z && old.getLsbD i := by
  have hb := ElemSize.bits_pos es
  have hvl := VecLen.bits_le vl
  have hmul := VecLen.elems_mul vl es
  have hj : i / es.bits < vl.elems es := Nat.div_lt_of_lt_mul (by rw [Nat.mul_comm, hmul]; exact hi)
  have hm := Nat.mod_lt i hb
  have hdm : i / es.bits * es.bits + i % es.bits = i := Nat.div_add_mod' i es.bits
  have h := congrArg (fun v => BitVec.getLsbD v (i % es.bits))
    (slice_maskedAnd es en z a b old (vl.elems es) (i / es.bits) (by omega) hj)
  simp only [getLsbD_slice, hdm, hm, decide_true, Bool.true_and] at h
  rw [h]
  by_cases he : en (i / es.bits) = true
  · simp only [he, if_true, BitVec.getLsbD_and, getLsbD_slice, hdm, hm, decide_true, Bool.true_and]
  · cases z
    · simp only [he, if_false, getLsbD_slice, hdm, hm, decide_true, Bool.true_and, Bool.not_false, Bool.false_eq_true]
    · simp [he]

end Sys2Proof.Machine
end

