-- ==== Sys2Proof/Laws/State.lean ====
section
/-! SUPPORT. What each update of the state leaves in each field. -/

namespace Sys2Proof.Machine

variable (s : State)

/-! ### `State.writeMm` -/

@[simp] theorem State.writeMm_cfg (d : BitVec 3) (v : Word64) : (s.writeMm d v).cfg = s.cfg := rfl
@[simp] theorem State.writeMm_mm (d : BitVec 3) (v : Word64) : (s.writeMm d v).mm = s.mm.set d.toNat v d.isLt := rfl
@[simp] theorem State.writeMm_stExp (d : BitVec 3) (v : Word64) : (s.writeMm d v).stExp = s.stExp.set d.toNat 0xFFFF#16 d.isLt := rfl
@[simp] theorem State.writeMm_fsw (d : BitVec 3) (v : Word64) : (s.writeMm d v).fsw = clearTop s.fsw := rfl
@[simp] theorem State.writeMm_ftw (d : BitVec 3) (v : Word64) : (s.writeMm d v).ftw = 0#16 := rfl
@[simp] theorem State.writeMm_fcw (d : BitVec 3) (v : Word64) : (s.writeMm d v).fcw = s.fcw := rfl
@[simp] theorem State.writeMm_fip (d : BitVec 3) (v : Word64) : (s.writeMm d v).fip = s.fip := rfl
@[simp] theorem State.writeMm_fdp (d : BitVec 3) (v : Word64) : (s.writeMm d v).fdp = s.fdp := rfl
@[simp] theorem State.writeMm_z (d : BitVec 3) (v : Word64) : (s.writeMm d v).z = s.z := rfl
@[simp] theorem State.writeMm_k (d : BitVec 3) (v : Word64) : (s.writeMm d v).k = s.k := rfl
@[simp] theorem State.writeMm_mxcsr (d : BitVec 3) (v : Word64) : (s.writeMm d v).mxcsr = s.mxcsr := rfl
@[simp] theorem State.writeMm_gpr (d : BitVec 3) (v : Word64) : (s.writeMm d v).gpr = s.gpr := rfl
@[simp] theorem State.writeMm_pc (d : BitVec 3) (v : Word64) : (s.writeMm d v).pc = s.pc := rfl
@[simp] theorem State.writeMm_eflags (d : BitVec 3) (v : Word64) : (s.writeMm d v).eflags = s.eflags := rfl
@[simp] theorem State.writeMm_cs (d : BitVec 3) (v : Word64) : (s.writeMm d v).cs = s.cs := rfl
@[simp] theorem State.writeMm_ds (d : BitVec 3) (v : Word64) : (s.writeMm d v).ds = s.ds := rfl
@[simp] theorem State.writeMm_es (d : BitVec 3) (v : Word64) : (s.writeMm d v).es = s.es := rfl
@[simp] theorem State.writeMm_fs (d : BitVec 3) (v : Word64) : (s.writeMm d v).fs = s.fs := rfl
@[simp] theorem State.writeMm_gs (d : BitVec 3) (v : Word64) : (s.writeMm d v).gs = s.gs := rfl
@[simp] theorem State.writeMm_ss (d : BitVec 3) (v : Word64) : (s.writeMm d v).ss = s.ss := rfl
@[simp] theorem State.writeMm_cr0 (d : BitVec 3) (v : Word64) : (s.writeMm d v).cr0 = s.cr0 := rfl
@[simp] theorem State.writeMm_cr2 (d : BitVec 3) (v : Word64) : (s.writeMm d v).cr2 = s.cr2 := rfl
@[simp] theorem State.writeMm_cr3 (d : BitVec 3) (v : Word64) : (s.writeMm d v).cr3 = s.cr3 := rfl
@[simp] theorem State.writeMm_cr4 (d : BitVec 3) (v : Word64) : (s.writeMm d v).cr4 = s.cr4 := rfl
@[simp] theorem State.writeMm_xcr0 (d : BitVec 3) (v : Word64) : (s.writeMm d v).xcr0 = s.xcr0 := rfl
@[simp] theorem State.writeMm_efer (d : BitVec 3) (v : Word64) : (s.writeMm d v).efer = s.efer := rfl
@[simp] theorem State.writeMm_cpl (d : BitVec 3) (v : Word64) : (s.writeMm d v).cpl = s.cpl := rfl
@[simp] theorem State.writeMm_mem (d : BitVec 3) (v : Word64) : (s.writeMm d v).mem = s.mem := rfl
@[simp] theorem State.writeMm_draws (d : BitVec 3) (v : Word64) : (s.writeMm d v).draws = s.draws := rfl

/-! ### `State.writeZ` -/

@[simp] theorem State.writeZ_cfg (d : BitVec 5) (v : Vec) : (s.writeZ d v).cfg = s.cfg := rfl
@[simp] theorem State.writeZ_mm (d : BitVec 5) (v : Vec) : (s.writeZ d v).mm = s.mm := rfl
@[simp] theorem State.writeZ_stExp (d : BitVec 5) (v : Vec) : (s.writeZ d v).stExp = s.stExp := rfl
@[simp] theorem State.writeZ_fsw (d : BitVec 5) (v : Vec) : (s.writeZ d v).fsw = s.fsw := rfl
@[simp] theorem State.writeZ_ftw (d : BitVec 5) (v : Vec) : (s.writeZ d v).ftw = s.ftw := rfl
@[simp] theorem State.writeZ_fcw (d : BitVec 5) (v : Vec) : (s.writeZ d v).fcw = s.fcw := rfl
@[simp] theorem State.writeZ_fip (d : BitVec 5) (v : Vec) : (s.writeZ d v).fip = s.fip := rfl
@[simp] theorem State.writeZ_fdp (d : BitVec 5) (v : Vec) : (s.writeZ d v).fdp = s.fdp := rfl
@[simp] theorem State.writeZ_z (d : BitVec 5) (v : Vec) : (s.writeZ d v).z = s.z.set d.toNat v d.isLt := rfl
@[simp] theorem State.writeZ_k (d : BitVec 5) (v : Vec) : (s.writeZ d v).k = s.k := rfl
@[simp] theorem State.writeZ_mxcsr (d : BitVec 5) (v : Vec) : (s.writeZ d v).mxcsr = s.mxcsr := rfl
@[simp] theorem State.writeZ_gpr (d : BitVec 5) (v : Vec) : (s.writeZ d v).gpr = s.gpr := rfl
@[simp] theorem State.writeZ_pc (d : BitVec 5) (v : Vec) : (s.writeZ d v).pc = s.pc := rfl
@[simp] theorem State.writeZ_eflags (d : BitVec 5) (v : Vec) : (s.writeZ d v).eflags = s.eflags := rfl
@[simp] theorem State.writeZ_cs (d : BitVec 5) (v : Vec) : (s.writeZ d v).cs = s.cs := rfl
@[simp] theorem State.writeZ_ds (d : BitVec 5) (v : Vec) : (s.writeZ d v).ds = s.ds := rfl
@[simp] theorem State.writeZ_es (d : BitVec 5) (v : Vec) : (s.writeZ d v).es = s.es := rfl
@[simp] theorem State.writeZ_fs (d : BitVec 5) (v : Vec) : (s.writeZ d v).fs = s.fs := rfl
@[simp] theorem State.writeZ_gs (d : BitVec 5) (v : Vec) : (s.writeZ d v).gs = s.gs := rfl
@[simp] theorem State.writeZ_ss (d : BitVec 5) (v : Vec) : (s.writeZ d v).ss = s.ss := rfl
@[simp] theorem State.writeZ_cr0 (d : BitVec 5) (v : Vec) : (s.writeZ d v).cr0 = s.cr0 := rfl
@[simp] theorem State.writeZ_cr2 (d : BitVec 5) (v : Vec) : (s.writeZ d v).cr2 = s.cr2 := rfl
@[simp] theorem State.writeZ_cr3 (d : BitVec 5) (v : Vec) : (s.writeZ d v).cr3 = s.cr3 := rfl
@[simp] theorem State.writeZ_cr4 (d : BitVec 5) (v : Vec) : (s.writeZ d v).cr4 = s.cr4 := rfl
@[simp] theorem State.writeZ_xcr0 (d : BitVec 5) (v : Vec) : (s.writeZ d v).xcr0 = s.xcr0 := rfl
@[simp] theorem State.writeZ_efer (d : BitVec 5) (v : Vec) : (s.writeZ d v).efer = s.efer := rfl
@[simp] theorem State.writeZ_cpl (d : BitVec 5) (v : Vec) : (s.writeZ d v).cpl = s.cpl := rfl
@[simp] theorem State.writeZ_mem (d : BitVec 5) (v : Vec) : (s.writeZ d v).mem = s.mem := rfl
@[simp] theorem State.writeZ_draws (d : BitVec 5) (v : Vec) : (s.writeZ d v).draws = s.draws := rfl

/-! ### `State.advance` -/

@[simp] theorem State.advance_cfg (len : Nat) : (s.advance len).cfg = s.cfg := rfl
@[simp] theorem State.advance_mm (len : Nat) : (s.advance len).mm = s.mm := rfl
@[simp] theorem State.advance_stExp (len : Nat) : (s.advance len).stExp = s.stExp := rfl
@[simp] theorem State.advance_fsw (len : Nat) : (s.advance len).fsw = s.fsw := rfl
@[simp] theorem State.advance_ftw (len : Nat) : (s.advance len).ftw = s.ftw := rfl
@[simp] theorem State.advance_fcw (len : Nat) : (s.advance len).fcw = s.fcw := rfl
@[simp] theorem State.advance_fip (len : Nat) : (s.advance len).fip = s.fip := rfl
@[simp] theorem State.advance_fdp (len : Nat) : (s.advance len).fdp = s.fdp := rfl
@[simp] theorem State.advance_z (len : Nat) : (s.advance len).z = s.z := rfl
@[simp] theorem State.advance_k (len : Nat) : (s.advance len).k = s.k := rfl
@[simp] theorem State.advance_mxcsr (len : Nat) : (s.advance len).mxcsr = s.mxcsr := rfl
@[simp] theorem State.advance_gpr (len : Nat) : (s.advance len).gpr = s.gpr := rfl
@[simp] theorem State.advance_pc (len : Nat) : (s.advance len).pc = s.pc + BitVec.ofNat 64 len := rfl
@[simp] theorem State.advance_eflags (len : Nat) : (s.advance len).eflags = s.eflags := rfl
@[simp] theorem State.advance_cs (len : Nat) : (s.advance len).cs = s.cs := rfl
@[simp] theorem State.advance_ds (len : Nat) : (s.advance len).ds = s.ds := rfl
@[simp] theorem State.advance_es (len : Nat) : (s.advance len).es = s.es := rfl
@[simp] theorem State.advance_fs (len : Nat) : (s.advance len).fs = s.fs := rfl
@[simp] theorem State.advance_gs (len : Nat) : (s.advance len).gs = s.gs := rfl
@[simp] theorem State.advance_ss (len : Nat) : (s.advance len).ss = s.ss := rfl
@[simp] theorem State.advance_cr0 (len : Nat) : (s.advance len).cr0 = s.cr0 := rfl
@[simp] theorem State.advance_cr2 (len : Nat) : (s.advance len).cr2 = s.cr2 := rfl
@[simp] theorem State.advance_cr3 (len : Nat) : (s.advance len).cr3 = s.cr3 := rfl
@[simp] theorem State.advance_cr4 (len : Nat) : (s.advance len).cr4 = s.cr4 := rfl
@[simp] theorem State.advance_xcr0 (len : Nat) : (s.advance len).xcr0 = s.xcr0 := rfl
@[simp] theorem State.advance_efer (len : Nat) : (s.advance len).efer = s.efer := rfl
@[simp] theorem State.advance_cpl (len : Nat) : (s.advance len).cpl = s.cpl := rfl
@[simp] theorem State.advance_mem (len : Nat) : (s.advance len).mem = s.mem := rfl
@[simp] theorem State.advance_draws (len : Nat) : (s.advance len).draws = s.draws + 1 := rfl

end Sys2Proof.Machine
end

