-- ==== Sys2Proof/Laws/Ops.lean ====
section
/-! SUPPORT. What each shared operation can answer, said once. -/

namespace Sys2Proof.Machine

/-! ### Outcomes -/

@[simp] theorem finish_ok (s : State) : finish (.ok s) = .next s := rfl
@[simp] theorem finish_fault (f : Fault) : finish (.error (.fault f)) = .fault f := rfl
@[simp] theorem finish_refused (r : Refusal) : finish (.error (.refused r)) = .refused r := rfl

theorem finish_eq_next {r : Except Stop State} {t : State} : finish r = .next t ↔ r = .ok t := by
  rcases r with (_ | _) | _ <;> simp

theorem finish_eq_fault {r : Except Stop State} {f : Fault} : finish r = .fault f ↔ r = .error (.fault f) := by
  rcases r with (_ | _) | _ <;> simp

@[simp] theorem bind_ok {α β : Type} (a : α) (f : α → Except Stop β) : (Except.ok a >>= f) = f a := rfl
@[simp] theorem bind_error {α β : Type} (e : Stop) (f : α → Except Stop β) :
    ((Except.error e : Except Stop α) >>= f) = .error e := rfl

/-- A sequence completes when both parts do. -/
theorem bind_eq_ok {α β : Type} {x : Except Stop α} {f : α → Except Stop β} {b : β} :
    (x >>= f) = .ok b ↔ ∃ a, x = .ok a ∧ f a = .ok b := by
  cases x <;> simp

/-- A sequence stops where its first part or its second does. -/
theorem bind_eq_error {α β : Type} {x : Except Stop α} {f : α → Except Stop β} {e : Stop} :
    (x >>= f) = .error e ↔ x = .error e ∨ ∃ a, x = .ok a ∧ f a = .error e := by
  cases x <;> simp

/-! ### Enabling and completing -/

theorem checkEnabled_eq_ok {ud : Bool} {s : State} : checkEnabled ud s = .ok () ↔ ud = false ∧ s.ts = false := by
  unfold checkEnabled
  cases ud <;> cases s.ts <;> simp [raise]

/-- When a VEX or EVEX form is stopped by the mode, in the bits that select it. -/
theorem vexBarred_iff {s : State} :
    s.vexBarred = true ↔ s.cr0.getLsbD 0 = false ∨ s.eflags.getLsbD 17 = true ∨ s.cfg.mode = .mode16 := by
  simp [State.vexBarred, State.realOrVm, State.pe, State.vm, or_assoc]

/-- #UD when the form's condition holds, otherwise #NM when CR0.TS = 1. -/
theorem checkEnabled_eq_error {ud : Bool} {s : State} {e : Stop} :
    checkEnabled ud s = .error e ↔
      (ud = true ∧ e = .fault (.ud s.pc)) ∨ (ud = false ∧ s.ts = true ∧ e = .fault (.nm s.pc)) := by
  unfold checkEnabled
  cases ud <;> cases s.ts <;> simp [raise, eq_comm]

theorem retire_eq_ok {len : Nat} {s t : State} :
    retire len s = .ok t ↔ pcAdvances s len = true ∧ t = s.advance len := by
  unfold retire
  cases pcAdvances s len <;> simp [refuse, eq_comm (a := t)]

theorem retire_eq_error {len : Nat} {s : State} {e : Stop} :
    retire len s = .error e ↔ pcAdvances s len = false ∧ e = .refused .pcRange := by
  unfold retire
  cases pcAdvances s len <;> simp [refuse, eq_comm (a := e)]

@[simp] theorem pcAdvances_writeMm (s : State) (d : BitVec 3) (v : Word64) (len : Nat) :
    pcAdvances (s.writeMm d v) len = pcAdvances s len := rfl

@[simp] theorem pcAdvances_writeZ (s : State) (d : BitVec 5) (v : Vec) (len : Nat) :
    pcAdvances (s.writeZ d v) len = pcAdvances s len := rfl

/-! ### Register files -/

theorem getZ_writeZ (s : State) (d e : BitVec 5) (v : Vec) :
    (s.writeZ d v).getZ e = if e = d then v else s.getZ e := by
  unfold State.getZ
  simp only [State.writeZ_z, Vector.getElem_set]
  by_cases h : e = d
  · simp [h]
  · have : ¬ d.toNat = e.toNat := fun hn => h (BitVec.eq_of_toNat_eq hn.symm)
    simp [h, this]

theorem getMm_writeMm (s : State) (d e : BitVec 3) (v : Word64) :
    (s.writeMm d v).getMm e = if e = d then v else s.getMm e := by
  unfold State.getMm
  simp only [State.writeMm_mm, Vector.getElem_set]
  by_cases h : e = d
  · simp [h]
  · have : ¬ d.toNat = e.toNat := fun hn => h (BitVec.eq_of_toNat_eq hn.symm)
    simp [h, this]

@[simp] theorem getZ_advance (s : State) (len : Nat) (e : BitVec 5) : (s.advance len).getZ e = s.getZ e := rfl
@[simp] theorem getMm_advance (s : State) (len : Nat) (e : BitVec 3) : (s.advance len).getMm e = s.getMm e := rfl
@[simp] theorem getK_advance (s : State) (len : Nat) (e : BitVec 3) : (s.advance len).getK e = s.getK e := rfl
@[simp] theorem getZ_writeMm (s : State) (d : BitVec 3) (v : Word64) (e : BitVec 5) :
    (s.writeMm d v).getZ e = s.getZ e := rfl
@[simp] theorem getK_writeMm (s : State) (d : BitVec 3) (v : Word64) (e : BitVec 3) :
    (s.writeMm d v).getK e = s.getK e := rfl
@[simp] theorem getK_writeZ (s : State) (d : BitVec 5) (v : Vec) (e : BitVec 3) :
    (s.writeZ d v).getK e = s.getK e := rfl

/-! ### The x87 status word (10_state.md R22 b) -/

theorem clearTop_top (x : BitVec 16) : (clearTop x).extractLsb' 11 3 = 0#3 := by
  unfold clearTop
  ext i hi
  have : i < 3 := hi
  interval_cases i <;> simp

theorem getLsbD_clearTop (x : BitVec 16) : ∀ i < 16, (i < 11 ∨ 13 < i) → (clearTop x).getLsbD i = x.getLsbD i := by
  intro i hi hh
  unfold clearTop
  interval_cases i <;> first | omega | simp

/-! ### Linear addresses (20_memory.md R56) -/

/-- Outside Mode64 the linear address is base + ea + k modulo 2^32. -/
theorem linear_of_ne {s : State} (h : s.cfg.mode ≠ .mode64) (seg : SegName) (ea : Word64) (k : Nat) :
    linear s seg ea k = (((s.seg seg).base + ea + BitVec.ofNat 64 k).setWidth 32).setWidth 64 := by
  unfold linear
  cases hm : s.cfg.mode
  · exact absurd hm h
  · rfl
  · rfl

/-! ### Memory operands -/

theorem segFault_eq_none {s : State} {a : Access} : segFault s a = none ↔ AllAllowed s a := by
  unfold segFault
  split
  · simp_all [AllAllowed]
  · rename_i h
    have : ¬ AllAllowed s a := by simpa [AllAllowed] using h
    simp only [this, iff_false]
    split_ifs <;> simp

/-- What a failed segment or canonical check raises. -/
theorem segFault_cases {s : State} {a : Access} {x : Word64 → Fault} (h : segFault s a = some x) :
    x = .ss ∨ x = .gp := by
  unfold segFault at h
  split_ifs at h <;> simp_all

/-- #SS is raised for a segment that is SS, or in Mode64 under an ignored override (U6). -/
theorem segFault_ss {s : State} {a : Access} (h : segFault s a = some .ss) :
    a.seg = .ss ∨ (s.cfg.mode = .mode64 ∧ a.ignoredOverride = true) := by
  have hne : (Fault.ss : Word64 → Fault) ≠ .gp := fun h => Fault.noConfusion (congrFun h 0#64)
  unfold segFault at h
  split_ifs at h with h1 h2 h3 h4
  · exact Or.inr h2
  · exact absurd (Option.some.inj h).symm hne
  · exact Or.inl h4
  · exact absurd (Option.some.inj h).symm hne

/-- Without an ignored override in Mode64, the failed check raises #SS for SS and #GP otherwise. -/
theorem segFault_eq {s : State} {a : Access} (h : ¬ AllAllowed s a)
    (hov : ¬ (s.cfg.mode = .mode64 ∧ a.ignoredOverride = true)) :
    segFault s a = some (if a.seg = .ss then .ss else .gp) := by
  unfold segFault
  have : ¬ (a.bytes.all (byteAllowed s a.seg a.ea) = true) := by simpa [AllAllowed] using h
  rw [if_neg this, if_neg hov]
  split_ifs <;> rfl

theorem mem_pageFaults {s : State} {a : Access} {ec : BitVec 32} {lin : Word64} :
    (ec, lin) ∈ pageFaults s a ↔
      ∃ k ∈ a.bytes, lin = linear s a.seg a.ea k ∧ translateAddr s lin = .error ec := by
  simp only [pageFaults, List.mem_filterMap]
  constructor
  · rintro ⟨k, hk, h⟩
    split at h
    · simp at h
    · rename_i ec' he
      simp only [Option.some.injEq, Prod.mk.injEq] at h
      obtain ⟨rfl, rfl⟩ := h
      exact ⟨k, hk, rfl, he⟩
  · rintro ⟨k, hk, rfl, he⟩
    exact ⟨k, hk, by rw [he]⟩

theorem pageFaults_eq_nil {s : State} {a : Access} : pageFaults s a = [] ↔ AllMapped s a := by
  rw [List.eq_nil_iff_forall_not_mem]
  constructor
  · intro h k hk
    cases ht : translateAddr s (linear s a.seg a.ea k) with
    | ok p => exact ⟨p, rfl⟩
    | error ec => exact absurd (mem_pageFaults.mpr ⟨k, hk, rfl, ht⟩) (h (ec, _))
  · rintro h ⟨ec, lin⟩ hm
    obtain ⟨k, hk, rfl, he⟩ := mem_pageFaults.mp hm
    obtain ⟨p, hp⟩ := h k hk
    rw [he] at hp
    cases hp

/-- #PF is raised exactly when a byte fails to translate, and it reports such a byte. -/
theorem pageFault_cases (s : State) (a : Access) :
    (AllMapped s a ∧ pageFault s a = none) ∨
    (¬ AllMapped s a ∧ ∃ ec lin, (ec, lin) ∈ pageFaults s a ∧ pageFault s a = some (.pf ec lin)) := by
  by_cases h : pageFaults s a = []
  · exact Or.inl ⟨pageFaults_eq_nil.mp h, by simp [pageFault, h]⟩
  · refine Or.inr ⟨fun hm => h (pageFaults_eq_nil.mpr hm), ?_⟩
    have hlt : Config.freePageByte s.draws % (pageFaults s a).length < (pageFaults s a).length :=
      Nat.mod_lt _ (List.length_pos_iff.mpr h)
    refine ⟨_, _, List.getElem_mem hlt, ?_⟩
    simp [pageFault, List.getElem?_eq_getElem hlt]

theorem pageFault_eq_none {s : State} {a : Access} : pageFault s a = none ↔ AllMapped s a := by
  rcases pageFault_cases s a with ⟨hm, h⟩ | ⟨hm, ec, lin, _, h⟩ <;> simp [hm, h]

theorem aligned_gp16 {s : State} {a : Access} : Aligned s a .gp16 ↔ misaligned s a 16 = false := by
  simp [Aligned, misaligned]

theorem aligned_ac8 {s : State} {a : Access} :
    Aligned s a .ac8 ↔ (s.alignCheck = true → misaligned s a 8 = false) := by
  simp [Aligned, misaligned]

/-- The operand has no fault exactly when it is allowed, mapped and aligned. -/
theorem operandFault_eq_none {s : State} {al : AlignRule} {a : Access} :
    operandFault s al a = none ↔ AllAllowed s a ∧ AllMapped s a ∧ Aligned s a al := by
  unfold operandFault
  rcases hs : segFault s a with _ | x
  · have hA := segFault_eq_none.mp hs
    rcases hp : pageFault s a with _ | pf
    · have hM := pageFault_eq_none.mp hp
      cases al
      · simp [hA, hM, Aligned]
      · cases hm : misaligned s a 16 <;> simp [hA, hM, aligned_gp16, hm]
      · cases hm : misaligned s a 8 <;> cases ha : s.alignCheck <;> simp [hA, hM, aligned_ac8, hm, ha]
    · have hM : ¬ AllMapped s a := fun h => by rw [pageFault_eq_none.mpr h] at hp; cases hp
      simp only [hA, hM, false_and, and_false, iff_false]
      split_ifs <;> simp
  · have hA : ¬ AllAllowed s a := fun h => by rw [segFault_eq_none.mpr h] at hs; cases hs
    simp [hA]

/-- Everything the operand's fault can be, in the order of R187. -/
theorem operandFault_cases {s : State} {al : AlignRule} {a : Access} {x : Word64 → Fault}
    (h : operandFault s al a = some x) :
    (¬ AllAllowed s a ∧ segFault s a = some x) ∨
    (AllAllowed s a ∧ al = .gp16 ∧ misaligned s a 16 = true ∧ x = .gp) ∨
    (AllAllowed s a ∧ ∃ ec lin, (ec, lin) ∈ pageFaults s a ∧ x = .pf ec lin) ∨
    (AllAllowed s a ∧ AllMapped s a ∧ al = .ac8 ∧ s.alignCheck = true ∧ misaligned s a 8 = true ∧ x = .ac) := by
  unfold operandFault at h
  rcases hs : segFault s a with _ | y
  · have hA := segFault_eq_none.mp hs
    simp only [hs] at h
    rcases pageFault_cases s a with ⟨hm, hp⟩ | ⟨hm, ec, lin, hmem, hp⟩
    · simp only [hp] at h
      split_ifs at h with h1 h2
      · cases h; exact Or.inr (Or.inl ⟨hA, h1.1, h1.2, rfl⟩)
      · cases h; exact Or.inr (Or.inr (Or.inr ⟨hA, hm, h2.1, h2.2.1, h2.2.2, rfl⟩))
    · simp only [hp] at h
      split_ifs at h with h1
      · cases h; exact Or.inr (Or.inl ⟨hA, h1.1.1, h1.1.2, rfl⟩)
      · cases h; exact Or.inr (Or.inr (Or.inl ⟨hA, ec, lin, hmem, rfl⟩))
  · simp only [hs] at h
    cases h
    refine Or.inl ⟨fun hA => ?_, rfl⟩
    rw [segFault_eq_none.mpr hA] at hs
    cases hs

/-- An operand's fault reports the pc it is given, and is one of R181's faults of a memory operand. -/
theorem operandFault_shape {s : State} {al : AlignRule} {a : Access} {x : Word64 → Fault}
    (h : operandFault s al a = some x) :
    x = .ss ∨ x = .gp ∨ (∃ ec lin, x = .pf ec lin) ∨ (al = .ac8 ∧ x = .ac) := by
  rcases operandFault_cases h with ⟨_, h⟩ | ⟨_, _, _, h⟩ | ⟨_, ec, lin, _, h⟩ | ⟨_, _, hal, _, _, h⟩
  · exact (segFault_cases h).imp id Or.inl
  · exact Or.inr (Or.inl h)
  · exact Or.inr (Or.inr (Or.inl ⟨ec, lin, h⟩))
  · exact Or.inr (Or.inr (Or.inr ⟨hal, h⟩))

/-- A byte is in a device exactly when it has a place in memory and the place is a device's. -/
theorem byteInDevice_eq_false {s : State} {a : Access} {k : Nat} :
    byteInDevice s a k = false ↔ (byteAllowed s a.seg a.ea k = true → ∀ p,
      translateAddr s (linear s a.seg a.ea k) = .ok p → ∀ r ∈ s.cfg.devices, PhysRange.holds r p = false) := by
  unfold byteInDevice
  rcases translateAddr s (linear s a.seg a.ea k) with _ | p <;> cases byteAllowed s a.seg a.ea k <;> simp

theorem inDevice_eq_false {s : State} {a : Access} : inDevice s a = false ↔ AllOrdinary s a := by
  simp only [inDevice, AllOrdinary, List.any_eq_false, List.mem_range, Bool.not_eq_true, byteInDevice_eq_false]

/-- A read answers exactly when no fault and no device stands in its way, with the bytes assembled. -/
theorem memRead_eq_ok {s : State} {al : AlignRule} {a : Access} {v : Vec} :
    memRead s al a = .ok v ↔ Readable s a ∧ Aligned s a al ∧ v = assemble s a := by
  unfold memRead readChecked
  rcases h : operandFault s al a with _ | x
  · obtain ⟨hA, hM, hal⟩ := operandFault_eq_none.mp h
    cases hd : inDevice s a
    · simp [Readable, inDevice_eq_false.mp hd, hA, hM, hal, eq_comm (a := v)]
    · have : ¬ AllOrdinary s a := fun ho => by rw [inDevice_eq_false.mpr ho] at hd; cases hd
      simp [Readable, this, refuse]
  · have hn : ¬ (AllAllowed s a ∧ AllMapped s a ∧ Aligned s a al) := fun hh => by
      rw [operandFault_eq_none.mpr hh] at h; cases h
    simp only [raise, reduceCtorEq, false_iff]
    exact fun hh => hn ⟨hh.1.1, hh.1.2.1, hh.2.1⟩

/-- A readable operand with no alignment rule. -/
theorem memRead_none {s : State} {a : Access} (h : Readable s a) : memRead s .none a = .ok (assemble s a) :=
  memRead_eq_ok.mpr ⟨h, by simp [Aligned], rfl⟩

/-- A readable operand at a multiple of 16. -/
theorem memRead_gp16 {s : State} {a : Access} (h : Readable s a) (h16 : (linear s a.seg a.ea 0).toNat % 16 = 0) :
    memRead s .gp16 a = .ok (assemble s a) :=
  memRead_eq_ok.mpr ⟨h, h16, rfl⟩

theorem memRead_eq_error {s : State} {al : AlignRule} {a : Access} {e : Stop} :
    memRead s al a = .error e ↔
      (∃ x, operandFault s al a = some x ∧ e = .fault (x s.pc)) ∨
      (operandFault s al a = none ∧ ¬ AllOrdinary s a ∧ e = .refused .deviceMemory) := by
  unfold memRead readChecked
  rcases h : operandFault s al a with _ | x
  · cases hd : inDevice s a
    · simp [inDevice_eq_false.mp hd]
    · have : ¬ AllOrdinary s a := fun ho => by rw [inDevice_eq_false.mpr ho] at hd; cases hd
      simp [this, refuse, eq_comm (a := e)]
  · simp [raise, eq_comm (a := e)]

theorem x87Check_eq_ok {s : State} {op : Option (Word64 → Fault)} : x87Check s op = .ok () ↔ s.fswEs = false := by
  unfold x87Check
  cases s.fswEs
  · simp
  · cases s.ne <;> cases op <;> simp [raise, refuse]
    split_ifs <;> simp

/-- A pending x87 exception: #MF, or the operand's fault where there is one, or the refusal with CR0.NE = 0. -/
theorem x87Check_eq_error {s : State} {op : Option (Word64 → Fault)} {e : Stop} (h : x87Check s op = .error e) :
    s.fswEs = true ∧
      ((s.ne = true ∧ e = .fault (.mf s.pc)) ∨ (s.ne = true ∧ ∃ x, op = some x ∧ e = .fault (x s.pc)) ∨
        (s.ne = false ∧ e = .refused .externalX87)) := by
  unfold x87Check at h
  cases hes : s.fswEs
  · simp [hes] at h
  · cases hne : s.ne
    · simp [hes, hne, refuse] at h
      simp [h]
    · rcases op with _ | x
      · simp [hes, hne, raise] at h
        simp [h]
      · simp only [hes, hne, if_true, raise] at h
        split_ifs at h
        · exact ⟨rfl, Or.inl ⟨rfl, (Except.error.inj h).symm⟩⟩
        · exact ⟨rfl, Or.inr (Or.inl ⟨rfl, x, rfl, (Except.error.inj h).symm⟩)⟩

end Sys2Proof.Machine
end

