-- ==== Sys2Proof/Laws/Exec.lean ====
section
/-! SUPPORT. The one shape every form has, and what follows from it: everything a form can answer. -/

namespace Sys2Proof.Machine

/-- The check for a pending x87 exception that a form makes before its operand: form 1's, and none for the others. -/
def pendingCheck (s : State) (i : Instr) : Except Stop Unit :=
  if x87Stops s i then x87Check s ((memOperand s i).bind fun p => operandFault s p.1 p.2) else .ok ()

/-- The read of a form's memory operand; nothing for a register operand. -/
def operandRead (s : State) (i : Instr) : Except Stop Vec :=
  match memOperand s i with
  | none => .ok 0#512
  | some (al, a) => memRead s al a

/-- What a form may have written when it retires: its MMX register with the x87 effects, or its vector register. -/
def Writes (s : State) (i : Instr) (u : State) : Prop :=
  match vecDest i with
  | some d => ∃ v, u = s.writeZ d v
  | none => ∃ o v, i = .pandMm o ∧ u = s.writeMm o.reg v

/-- A checked `then`: `x87Check` does nothing unless FSW.ES is set. -/
theorem x87Check_of_clear {s : State} (h : s.fswEs = false) (op : Option (Word64 → Fault)) :
    x87Check s op = .ok () := x87Check_eq_ok.mpr h

theorem evexAnd_shape (s : State) (es : ElemSize) (vl : VecLen) (o : EvexOp) :
    ∃ w : Vec → State, (∀ v, ∃ x, w v = s.writeZ (evexDest o) x) ∧
      evexAnd es vl o s = (checkEnabled (udEvex s vl || o.violation) s >>= fun _ =>
        (match (match o.rm with | .reg _ => none | .mem m => some (AlignRule.none, evexAccess s o es vl m) :
            Option (AlignRule × Access)) with
          | none => .ok 0#512
          | some (al, a) => memRead s al a) >>= fun v => retire o.len (w v)) := by
  unfold evexAnd evexSource
  cases hrm : o.rm with
  | reg r =>
    refine ⟨fun _ => s.writeZ (evexDest o) (zext (slice (maskedAnd es (enabled s o) o.z (s.getZ (evexSrc1 o))
      (.vector (s.getZ (vecNum o.x o.b r))) (s.getZ (evexDest o)) (vl.elems es)) 0 vl.bits)),
      fun _ => ⟨_, rfl⟩, ?_⟩
    simp only [bind_ok]
  | mem m =>
    refine ⟨fun v => s.writeZ (evexDest o) (zext (slice (maskedAnd es (enabled s o) o.z (s.getZ (evexSrc1 o))
      (if o.bc then .broadcast v else .vector v) (s.getZ (evexDest o)) (vl.elems es)) 0 vl.bits)),
      fun _ => ⟨_, rfl⟩, ?_⟩
    simp only [bind_assoc, bind_ok]

theorem vpand_shape (s : State) (vl : VecLen) (d v : BitVec 5) (p : Pfx) (x b : Bool) (len : Nat) (rm : Rm) :
    ∃ w : Vec → State, (∀ v, ∃ x, w v = s.writeZ d x) ∧
      vpand vl d v p x b len rm s = (checkEnabled (udVex s vl) s >>= fun _ =>
        (match (match rm with | .reg _ => none | .mem m => some (AlignRule.none, vexAccess s p x b len vl m) :
            Option (AlignRule × Access)) with
          | none => .ok 0#512
          | some (al, a) => memRead s al a) >>= fun v => retire len (w v)) := by
  unfold vpand vexSource
  cases rm with
  | reg r =>
    refine ⟨fun _ => s.writeZ d (zext (slice (s.getZ v) 0 vl.bits &&& slice (s.getZ (vecNum false b r)) 0 vl.bits)),
      fun _ => ⟨_, rfl⟩, ?_⟩
    simp only [bind_ok]
  | mem m =>
    exact ⟨fun y => s.writeZ d (zext (slice (s.getZ v) 0 vl.bits &&& slice y 0 vl.bits)), fun _ => ⟨_, rfl⟩, rfl⟩

theorem pandXmm_shape (s : State) (o : LegacyOp) :
    ∃ w : Vec → State, (∀ v, ∃ x, w v = s.writeZ (xmmDest o) x) ∧
      execPandXmm o s = finish (checkEnabled (udSse2 s) s >>= fun _ =>
        (match (match o.rm with | .reg _ => none | .mem m => some (AlignRule.gp16, xmmAccess s o m) :
            Option (AlignRule × Access)) with
          | none => .ok 0#512
          | some (al, a) => memRead s al a) >>= fun v => retire (o.len true) (w v)) := by
  unfold execPandXmm xmmSource
  cases hrm : o.rm with
  | reg r =>
    refine ⟨fun _ => s.writeZ (xmmDest o) (setSlice (s.getZ (xmmDest o)) 0
      (slice (s.getZ (xmmDest o)) 0 128 &&& slice (s.getZ (vecNum false (LegacyOp.bBit o) r)) 0 128)),
      fun _ => ⟨_, rfl⟩, ?_⟩
    simp only [bind_ok]
  | mem m =>
    exact ⟨fun v => s.writeZ (xmmDest o)
      (setSlice (s.getZ (xmmDest o)) 0 (slice (s.getZ (xmmDest o)) 0 128 &&& slice v 0 128)),
      fun _ => ⟨_, rfl⟩, rfl⟩

theorem pandMm_shape (s : State) (o : LegacyOp) :
    ∃ w : Vec → State, (∀ v, ∃ x, w v = s.writeMm o.reg x) ∧
      execPandMm o s = finish (checkEnabled (udMmx s) s >>= fun _ => pendingCheck s (.pandMm o) >>= fun _ =>
        operandRead s (.pandMm o) >>= fun v => retire (o.len false) (w v)) := by
  have hp : pendingCheck s (.pandMm o) =
      x87Check s ((memOperand s (.pandMm o)).bind fun p => operandFault s p.1 p.2) := by
    unfold pendingCheck
    cases hes : s.fswEs
    · simp [x87Stops, hes, x87Check_of_clear hes]
    · simp [x87Stops, hes]
  rw [hp]
  unfold execPandMm mmSource operandRead
  simp only [memOperand]
  cases hrm : o.rm with
  | reg r =>
    refine ⟨fun _ => s.writeMm o.reg (s.getMm o.reg &&& s.getMm r), fun _ => ⟨_, rfl⟩, ?_⟩
    simp only [bind_assoc, bind_ok, Option.bind_none]
  | mem m =>
    refine ⟨fun v => s.writeMm o.reg (s.getMm o.reg &&& slice v 0 64), fun _ => ⟨_, rfl⟩, ?_⟩
    simp only [bind_assoc, bind_ok, Option.bind_some]

/-- Every form checks that it is enabled, checks for a pending x87 exception, reads its operand, writes its
destination and retires, in this order. -/
theorem exec_shape (s : State) (i : Instr) :
    ∃ w : Vec → State, (∀ v, Writes s i (w v)) ∧
      exec i s = finish (checkEnabled (udCondition s i) s >>= fun _ => pendingCheck s i >>= fun _ =>
        operandRead s i >>= fun v => retire i.len (w v)) := by
  cases i with
  | pandMm o =>
    obtain ⟨w, hw, he⟩ := pandMm_shape s o
    exact ⟨w, fun v => ⟨o, (hw v).choose, rfl, (hw v).choose_spec⟩, he⟩
  | pandXmm o => exact pandXmm_shape s o
  | vpandXmmVex2 o =>
    obtain ⟨w, hw, he⟩ := vpand_shape s .v128 (vecNum false o.r o.reg) (vvvvNum false o.vvvv) o.pfx false false o.len o.rm
    exact ⟨w, hw, congrArg finish he⟩
  | vpandXmmVex3 o =>
    obtain ⟨w, hw, he⟩ := vpand_shape s .v128 (vecNum false o.r o.reg) (vvvvNum false o.vvvv) o.pfx o.x o.b o.len o.rm
    exact ⟨w, hw, congrArg finish he⟩
  | vpandYmmVex2 o =>
    obtain ⟨w, hw, he⟩ := vpand_shape s .v256 (vecNum false o.r o.reg) (vvvvNum false o.vvvv) o.pfx false false o.len o.rm
    exact ⟨w, hw, congrArg finish he⟩
  | vpandYmmVex3 o =>
    obtain ⟨w, hw, he⟩ := vpand_shape s .v256 (vecNum false o.r o.reg) (vvvvNum false o.vvvv) o.pfx o.x o.b o.len o.rm
    exact ⟨w, hw, congrArg finish he⟩
  | vpanddXmm o => exact (evexAnd_shape s .e32 .v128 o).imp fun w h => ⟨h.1, congrArg finish h.2⟩
  | vpanddYmm o => exact (evexAnd_shape s .e32 .v256 o).imp fun w h => ⟨h.1, congrArg finish h.2⟩
  | vpanddZmm o => exact (evexAnd_shape s .e32 .v512 o).imp fun w h => ⟨h.1, congrArg finish h.2⟩
  | vpandqXmm o => exact (evexAnd_shape s .e64 .v128 o).imp fun w h => ⟨h.1, congrArg finish h.2⟩
  | vpandqYmm o => exact (evexAnd_shape s .e64 .v256 o).imp fun w h => ⟨h.1, congrArg finish h.2⟩
  | vpandqZmm o => exact (evexAnd_shape s .e64 .v512 o).imp fun w h => ⟨h.1, congrArg finish h.2⟩

theorem pendingCheck_eq_ok {s : State} {i : Instr} : pendingCheck s i = .ok () ↔ x87Stops s i = false := by
  unfold pendingCheck
  cases h : x87Stops s i
  · simp
  · have hes : s.fswEs = true := by cases i <;> simp_all [x87Stops]
    simp [x87Check_eq_ok, hes]

theorem operandRead_eq_ok {s : State} {i : Instr} :
    (∃ v, operandRead s i = .ok v) ↔
      ∀ al a, memOperand s i = some (al, a) → Readable s a ∧ Aligned s a al := by
  unfold operandRead
  rcases h : memOperand s i with _ | ⟨al, a⟩
  · simp
  · simp [memRead_eq_ok]

/-- A form that completes was enabled, had no x87 exception in its way, could read its operand and advance pc; the next
state is the one with its destination written, advanced. -/
theorem exec_next {s t : State} {i : Instr} (h : exec i s = .next t) :
    udCondition s i = false ∧ s.ts = false ∧ x87Stops s i = false ∧
    (∀ al a, memOperand s i = some (al, a) → Readable s a ∧ Aligned s a al) ∧
    ∃ u, Writes s i u ∧ pcAdvances u i.len = true ∧ t = u.advance i.len := by
  obtain ⟨w, hw, he⟩ := exec_shape s i
  rw [he, finish_eq_next] at h
  simp only [bind_eq_ok] at h
  obtain ⟨⟨⟩, h1, ⟨⟩, h2, v, h3, h4⟩ := h
  obtain ⟨hud, hts⟩ := checkEnabled_eq_ok.mp h1
  obtain ⟨hpc, ht⟩ := retire_eq_ok.mp h4
  exact ⟨hud, hts, pendingCheck_eq_ok.mp h2, operandRead_eq_ok.mp ⟨v, h3⟩, w v, hw v, hpc, ht⟩

/-- Writing a destination leaves pc, the parameters and the rest that `pcAdvances` reads. -/
theorem Writes.pcAdvances {s u : State} {i : Instr} (h : Writes s i u) (len : Nat) :
    Machine.pcAdvances u len = Machine.pcAdvances s len := by
  unfold Writes at h
  split at h
  · obtain ⟨v, rfl⟩ := h; rfl
  · obtain ⟨o, v, -, rfl⟩ := h; rfl

/-- Why a form faults: #UD, #NM, #MF, or its operand's fault. -/
theorem exec_fault {s : State} {i : Instr} {f : Fault} (h : exec i s = .fault f) :
    (udCondition s i = true ∧ f = .ud s.pc) ∨
    (udCondition s i = false ∧ s.ts = true ∧ f = .nm s.pc) ∨
    (udCondition s i = false ∧ s.ts = false ∧ x87Stops s i = true ∧ s.ne = true ∧ f = .mf s.pc) ∨
    (udCondition s i = false ∧ s.ts = false ∧ (x87Stops s i = true → s.ne = true) ∧
      ∃ al a x, memOperand s i = some (al, a) ∧ operandFault s al a = some x ∧ f = x s.pc) := by
  obtain ⟨w, hw, he⟩ := exec_shape s i
  rw [he, finish_eq_fault] at h
  simp only [bind_eq_error] at h
  rcases h with h | ⟨⟨⟩, h1, h | ⟨⟨⟩, h2, h | ⟨v, h3, h⟩⟩⟩
  · rcases checkEnabled_eq_error.mp h with ⟨hu, hf⟩ | ⟨hu, ht, hf⟩
    · exact Or.inl ⟨hu, by simpa using hf⟩
    · exact Or.inr (Or.inl ⟨hu, ht, by simpa using hf⟩)
  · obtain ⟨hu, ht⟩ := checkEnabled_eq_ok.mp h1
    unfold pendingCheck at h
    cases hx : x87Stops s i
    · simp [hx] at h
    · rw [hx, if_pos rfl] at h
      obtain ⟨hes, ⟨hn, hf⟩ | ⟨hn, x, hop, hf⟩ | ⟨hn, hf⟩⟩ := x87Check_eq_error h
      · exact Or.inr (Or.inr (Or.inl ⟨hu, ht, rfl, hn, by simpa using hf⟩))
      · rcases hm : memOperand s i with _ | ⟨al, a⟩
        · simp [hm] at hop
        · exact Or.inr (Or.inr (Or.inr ⟨hu, ht, fun _ => hn, al, a, x, rfl, by simpa [hm] using hop,
            by simpa using hf⟩))
      · simp at hf
  · obtain ⟨hu, ht⟩ := checkEnabled_eq_ok.mp h1
    have hx := pendingCheck_eq_ok.mp h2
    unfold operandRead at h
    rcases hm : memOperand s i with _ | ⟨al, a⟩
    · simp [hm] at h
    · simp only [hm] at h
      rcases memRead_eq_error.mp h with ⟨x, hop, hf⟩ | ⟨_, _, hf⟩
      · exact Or.inr (Or.inr (Or.inr ⟨hu, ht, by simp [hx], al, a, x, rfl, hop, by simpa using hf⟩))
      · simp at hf
  · obtain ⟨_, hf⟩ := retire_eq_error.mp h
    simp at hf

/-- Why a form is refused. -/
theorem exec_refused {s : State} {i : Instr} {r : Refusal} (h : exec i s = .refused r) :
    udCondition s i = false ∧ s.ts = false ∧
    ((x87Stops s i = true ∧ s.ne = false ∧ r = .externalX87) ∨
     (x87Stops s i = false ∧
       ∃ al a, memOperand s i = some (al, a) ∧ ¬ AllOrdinary s a ∧ r = .deviceMemory) ∨
     (x87Stops s i = false ∧ pcAdvances s i.len = false ∧ r = .pcRange)) := by
  obtain ⟨w, hw, he⟩ := exec_shape s i
  have hfr : ∀ e : Except Stop State, finish e = .refused r → e = .error (.refused r) := by
    rintro ((_ | _) | _) <;> simp
  rw [he] at h
  have h := hfr _ h
  simp only [bind_eq_error] at h
  rcases h with h | ⟨⟨⟩, h1, h | ⟨⟨⟩, h2, h | ⟨v, h3, h⟩⟩⟩
  · rcases checkEnabled_eq_error.mp h with ⟨_, hf⟩ | ⟨_, _, hf⟩ <;> simp at hf
  · obtain ⟨hu, ht⟩ := checkEnabled_eq_ok.mp h1
    unfold pendingCheck at h
    cases hx : x87Stops s i
    · simp [hx] at h
    · rw [hx, if_pos rfl] at h
      obtain ⟨hes, ⟨hn, hf⟩ | ⟨hn, x, hop, hf⟩ | ⟨hn, hf⟩⟩ := x87Check_eq_error h
      · simp at hf
      · simp at hf
      · exact ⟨hu, ht, Or.inl ⟨rfl, hn, by simpa using hf⟩⟩
  · obtain ⟨hu, ht⟩ := checkEnabled_eq_ok.mp h1
    have hx := pendingCheck_eq_ok.mp h2
    unfold operandRead at h
    rcases hm : memOperand s i with _ | ⟨al, a⟩
    · simp [hm] at h
    · simp only [hm] at h
      rcases memRead_eq_error.mp h with ⟨x, hop, hf⟩ | ⟨_, ho, hf⟩
      · simp at hf
      · exact ⟨hu, ht, Or.inr (Or.inl ⟨hx, al, a, rfl, ho, by simpa using hf⟩)⟩
  · obtain ⟨hu, ht⟩ := checkEnabled_eq_ok.mp h1
    have hx := pendingCheck_eq_ok.mp h2
    obtain ⟨hp, hf⟩ := retire_eq_error.mp h
    rw [(hw v).pcAdvances] at hp
    exact ⟨hu, ht, Or.inr (Or.inr ⟨hx, hp, by simpa using hf⟩)⟩

/-! ### The EVEX instructions by element size and length -/

theorem exec_evexInstr (s : State) (es : ElemSize) (vl : VecLen) (o : EvexOp) :
    exec (evexInstr es vl o) s = finish (evexAnd es vl o s) := by
  cases es <;> cases vl <;> rfl

theorem udCondition_evexInstr (s : State) (es : ElemSize) (vl : VecLen) (o : EvexOp) :
    udCondition s (evexInstr es vl o) = (udEvex s vl || o.violation) := by
  cases es <;> cases vl <;> rfl

theorem len_evexInstr (es : ElemSize) (vl : VecLen) (o : EvexOp) : (evexInstr es vl o).len = o.len := by
  cases es <;> cases vl <;> rfl

theorem vecDest_evexInstr (es : ElemSize) (vl : VecLen) (o : EvexOp) :
    vecDest (evexInstr es vl o) = some (evexDest o) := by
  cases es <;> cases vl <;> rfl

/-! ### An enabled form with a memory operand -/

/-- What an enabled form with a memory operand does is read it, write and retire. -/
theorem exec_operand {s : State} {i : Instr} {al : AlignRule} {a : Access} (hm : memOperand s i = some (al, a))
    (hud : udCondition s i = false) (hts : s.ts = false) (hx : x87Stops s i = false) :
    ∃ w : Vec → State, (∀ v, Writes s i (w v)) ∧
      exec i s = finish (memRead s al a >>= fun v => retire i.len (w v)) := by
  obtain ⟨w, hw, he⟩ := exec_shape s i
  refine ⟨w, hw, ?_⟩
  rw [he, checkEnabled_eq_ok.mpr ⟨hud, hts⟩, pendingCheck_eq_ok.mpr hx]
  simp only [bind_ok, operandRead, hm]

/-- Only form 1 has the alignment rule of #AC. -/
theorem memOperand_ac8 {s : State} {i : Instr} {a : Access} (h : memOperand s i = some (.ac8, a)) :
    ∃ o, i = .pandMm o := by
  cases i <;> simp only [memOperand] at h <;> first | exact ⟨_, rfl⟩ | (split at h <;> simp_all)

/-- What a completed form has written: one MMX register with the x87 effects, or one vector register. -/
theorem exec_writes {s t : State} {i : Instr} (h : exec i s = .next t) :
    (∃ o v, i = .pandMm o ∧ t = (s.writeMm o.reg v).advance i.len) ∨
    (∃ d v, vecDest i = some d ∧ t = (s.writeZ d v).advance i.len) := by
  obtain ⟨-, -, -, -, u, hw, -, rfl⟩ := exec_next h
  unfold Writes at hw
  split at hw
  · rename_i d hd
    obtain ⟨v, rfl⟩ := hw
    exact Or.inr ⟨d, v, hd, rfl⟩
  · obtain ⟨o, v, hi, rfl⟩ := hw
    exact Or.inl ⟨o, v, hi, rfl⟩

/-- The low three bits of a vector destination's number are ModRM:reg (30_encoding.md R85, R100). -/
theorem vecDest_regField {i : Instr} {d : BitVec 5} (h : vecDest i = some d) : d.extractLsb' 0 3 = regField i := by
  have key : ∀ (e' e : Bool) (n : BitVec 3), (vecNum e' e n).extractLsb' 0 3 = n := by decide
  cases i <;> cases h <;> exact key _ _ _

end Sys2Proof.Machine
end

