-- ==== Sys2Proof/Laws/Memory.lean ====
section
/-! SUPPORT. Memory: a read after a write, and the canonical form that every operation keeps. -/

namespace Sys2Proof.Machine

theorem Memory.wfFrom_mono {lo lo' : Nat} (h : lo' ≤ lo) :
    ∀ {m : List Host.Cell}, Memory.wfFrom lo m = true → Memory.wfFrom lo' m = true
  | [], _ => rfl
  | (a, v) :: m, hw => by
    simp only [Memory.wfFrom, Bool.and_eq_true, decide_eq_true_eq] at hw ⊢
    exact ⟨⟨⟨by omega, hw.1.1.2⟩, hw.1.2⟩, hw.2⟩

/-- Below the first address of a canonical memory every byte is the unlisted one. -/
theorem Memory.read_below {a : Nat} :
    ∀ {m : List Host.Cell} {lo : Nat}, Memory.wfFrom lo m = true → a < lo → Memory.read m a = Memory.unlisted
  | [], _, _, _ => rfl
  | (b, v) :: m, lo, hw, ha => by
    simp only [Memory.wfFrom, Bool.and_eq_true, decide_eq_true_eq] at hw
    have hne : ¬ a = b := by omega
    simp only [Memory.read, hne, if_false]
    exact Memory.read_below hw.2 (by omega)

theorem Memory.read_cons (a c : Nat) (v : Byte) {m : List Host.Cell} (hw : Memory.wfFrom (a + 1) m = true) :
    Memory.read (Memory.cons a v m) c = if c = a then v else Memory.read m c := by
  unfold Memory.cons
  split
  · rename_i hv
    split
    · rename_i hc
      rw [hc, hv]
      exact Memory.read_below hw (Nat.lt_succ_self a)
    · rfl
  · rfl

/-- The byte written is read back, and every other byte stays. -/
theorem Memory.read_write {a c : Nat} {v : Byte} :
    ∀ {m : List Host.Cell} {lo : Nat}, Memory.wfFrom lo m = true →
      Memory.read (Memory.write m a v) c = if c = a then v else Memory.read m c
  | [], _, _ => by
    simp only [Memory.write]
    exact Memory.read_cons a c v rfl
  | (b, w) :: m, lo, hw => by
    have hm := hw
    simp only [Memory.wfFrom, Bool.and_eq_true, decide_eq_true_eq] at hm
    simp only [Memory.write]
    split
    · rename_i hlt
      refine Memory.read_cons a c v ?_
      simp only [Memory.wfFrom, Bool.and_eq_true, decide_eq_true_eq]
      exact ⟨⟨⟨by omega, hm.1.1.2⟩, hm.1.2⟩, hm.2⟩
    · split
      · rename_i _ heq
        subst heq
        rw [Memory.read_cons a c v hm.2]
        simp only [Memory.read]
        split <;> rfl
      · simp only [Memory.read]
        split
        · rename_i hcb
          have : ¬ c = a := by omega
          simp [this]
        · exact Memory.read_write hm.2

theorem Memory.wfFrom_cons {lo a : Nat} {v : Byte} {m : List Host.Cell} (hlo : lo ≤ a) (ha : a < 2 ^ 64)
    (hw : Memory.wfFrom (a + 1) m = true) : Memory.wfFrom lo (Memory.cons a v m) = true := by
  unfold Memory.cons
  split
  · exact Memory.wfFrom_mono (by omega) hw
  · rename_i hv
    simp only [Memory.wfFrom, Bool.and_eq_true, decide_eq_true_eq, bne_iff_ne]
    exact ⟨⟨⟨hlo, ha⟩, hv⟩, hw⟩

/-- A write keeps the canonical form above any bound not above it. -/
theorem Memory.wfFrom_write {a : Nat} {v : Byte} (ha : a < 2 ^ 64) :
    ∀ {m : List Host.Cell} {lo : Nat}, lo ≤ a → Memory.wfFrom lo m = true →
      Memory.wfFrom lo (Memory.write m a v) = true
  | [], _, hlo, _ => Memory.wfFrom_cons hlo ha rfl
  | (b, w) :: m, lo, hlo, hw => by
    have hm := hw
    simp only [Memory.wfFrom, Bool.and_eq_true, decide_eq_true_eq] at hm
    simp only [Memory.write]
    split
    · refine Memory.wfFrom_cons hlo ha ?_
      simp only [Memory.wfFrom, Bool.and_eq_true, decide_eq_true_eq]
      exact ⟨⟨⟨by omega, hm.1.1.2⟩, hm.1.2⟩, hm.2⟩
    · split
      · rename_i _ heq
        subst heq
        exact Memory.wfFrom_cons hlo ha hm.2
      · simp only [Memory.wfFrom, Bool.and_eq_true, decide_eq_true_eq]
        exact ⟨⟨⟨hm.1.1.1, hm.1.1.2⟩, hm.1.2⟩, Memory.wfFrom_write ha (by omega) hm.2⟩

/-- A write keeps the canonical form. -/
theorem Memory.wf_write {m : List Host.Cell} {a : Nat} {v : Byte} (ha : a < 2 ^ 64) (hw : Memory.wf m = true) :
    Memory.wf (Memory.write m a v) = true :=
  Memory.wfFrom_write ha (Nat.zero_le a) hw

/-- A write of a canonical memory reads back what was written and leaves every other byte. -/
theorem Memory.read_write_wf {m : List Host.Cell} (a c : Nat) (v : Byte) (hw : Memory.wf m = true) :
    Memory.read (Memory.write m a v) c = if c = a then v else Memory.read m c :=
  Memory.read_write hw

/-- Two canonical memories that read alike are the same list. -/
theorem Memory.ext_of_read :
    ∀ {m n : List Host.Cell} {lo : Nat}, Memory.wfFrom lo m = true → Memory.wfFrom lo n = true →
      (∀ a, Memory.read m a = Memory.read n a) → m = n
  | [], [], _, _, _, _ => rfl
  | [], (b, w) :: n, lo, _, hn, h => by
    simp only [Memory.wfFrom, Bool.and_eq_true, decide_eq_true_eq, bne_iff_ne] at hn
    have hb := h b
    simp only [Memory.read, if_true] at hb
    exact absurd hb.symm hn.1.2
  | (a, v) :: m, [], lo, hm, _, h => by
    simp only [Memory.wfFrom, Bool.and_eq_true, decide_eq_true_eq, bne_iff_ne] at hm
    have ha := h a
    simp only [Memory.read, if_true] at ha
    exact absurd ha hm.1.2
  | (a, v) :: m, (b, w) :: n, lo, hm, hn, h => by
    have hm' := hm
    have hn' := hn
    simp only [Memory.wfFrom, Bool.and_eq_true, decide_eq_true_eq, bne_iff_ne] at hm' hn'
    have hab : a = b := by
      rcases Nat.lt_trichotomy a b with hlt | heq | hgt
      · have ha := h a
        have hne : ¬ a = b := by omega
        simp only [Memory.read, if_true, hne, if_false] at ha
        rw [Memory.read_below hn'.2 (by omega)] at ha
        exact absurd ha hm'.1.2
      · exact heq
      · have hb := h b
        have hne : ¬ b = a := by omega
        simp only [Memory.read, if_true, hne, if_false] at hb
        rw [Memory.read_below hm'.2 (by omega)] at hb
        exact absurd hb.symm hn'.1.2
    subst hab
    have hvw : v = w := by simpa [Memory.read] using h a
    subst hvw
    have htl : m = n := by
      refine Memory.ext_of_read hm'.2 hn'.2 fun c => ?_
      by_cases hc : c = a
      · subst hc
        rw [Memory.read_below hm'.2 (by omega), Memory.read_below hn'.2 (by omega)]
      · simpa [Memory.read, hc] using h c
    rw [htl]

end Sys2Proof.Machine
end

