-- ==== Sys2Proof/Laws/Fetch.lean ====
section
/-! SUPPORT. Placing a program's bytes for the next fetch, and what a step answers. -/

namespace Sys2Proof.Machine

/-- One more byte placed, when paging is off (20_memory.md R57). -/
theorem placeBytes_succ {s : State} (hpg : s.pg = false) (f : Nat → Byte) (n : Nat) :
    placeBytes s f (n + 1) = Memory.write (placeBytes s f n) (fetchLinear s n).toNat (f n) := by
  simp [placeBytes, translateAddr, hpg]

/-- Placing bytes keeps the canonical form. -/
theorem wf_placeBytes {s : State} (h : Memory.wf s.mem = true) (f : Nat → Byte) (n : Nat) :
    Memory.wf (placeBytes s f n) = true := by
  induction n with
  | zero => exact h
  | succ n ih =>
    simp only [placeBytes]
    split
    · exact Memory.wf_write (BitVec.isLt _) ih
    · exact ih

/-- A step that completes executed the instruction the bytes at pc decode to. -/
theorem step_next {s t : State} (h : step s = .next t) :
    ∃ i rest, decode s.cfg.mode (fetchBytes s) = .instr i rest ∧ exec i s = .next t := by
  unfold step at h
  split at h
  · exact ⟨_, _, ‹_›, h⟩
  · simp [decodeUd, raise, finish] at h
  · simp [decodeTooLong, raise, finish] at h
  · simp at h

/-- A step that faults executed an instruction that does, or met bytes that are a decode-phase #UD or too long. -/
theorem step_fault {s : State} {f : Fault} (h : step s = .fault f) :
    (∃ i rest, decode s.cfg.mode (fetchBytes s) = .instr i rest ∧ exec i s = .fault f) ∨
      (∃ rest, decode s.cfg.mode (fetchBytes s) = .ud rest ∧ f = .ud s.pc) ∨
      (decode s.cfg.mode (fetchBytes s) = .tooLong ∧ f = .gp s.pc) := by
  unfold step at h
  split at h
  · exact Or.inl ⟨_, _, ‹_›, h⟩
  · rename_i hd
    simp only [decodeUd, raise, finish, Host.Outcome.fault.injEq] at h
    exact Or.inr (Or.inl ⟨_, hd, h.symm⟩)
  · rename_i hd
    simp only [decodeTooLong, raise, finish, Host.Outcome.fault.injEq] at h
    exact Or.inr (Or.inr ⟨hd, h.symm⟩)
  · simp at h

end Sys2Proof.Machine
end

