-- ==== Sys2Proof/Laws/PerInstr.lean ====
section
/-! SUPPORT. Per-instruction lemmas: the length of an encoding (30_encoding.md R102). -/

namespace Sys2Proof.Laws.Length

/-- The encoding has `len` bytes, at least 3 and at most 15 (R80, R102). -/
def Statement (i : Instr) : Prop := (encode i).length = i.len ∧ 3 ≤ i.len ∧ i.len ≤ 15

theorem legacy (p66 : Bool) (o : LegacyOp) :
    (o.encode p66).length = o.len p66 ∧ 3 ≤ o.len p66 ∧ o.len p66 ≤ 15 := by
  have h1 := Pfx.length_encode o.pfx
  have h2 := Rm.length_encode o.reg o.rm
  have h3 := Rm.len_bounds o.rm
  have h4 := Pfx.len_le o.pfx
  cases p66 <;> cases hr : o.rex <;>
    simp [LegacyOp.encode, LegacyOp.len, h1, h2, hr] <;> omega

theorem vex2 (l : Bool) (o : Vex2Op) : (o.encode l).length = o.len ∧ 3 ≤ o.len ∧ o.len ≤ 15 := by
  have h1 := Pfx.length_encode o.pfx
  have h2 := Rm.length_encode o.reg o.rm
  have h3 := Rm.len_bounds o.rm
  have h4 := Pfx.len_le o.pfx
  simp [Vex2Op.encode, Vex2Op.len, h1, h2]
  omega

theorem vex3 (l : Bool) (o : Vex3Op) : (o.encode l).length = o.len ∧ 3 ≤ o.len ∧ o.len ≤ 15 := by
  have h1 := Pfx.length_encode o.pfx
  have h2 := Rm.length_encode o.reg o.rm
  have h3 := Rm.len_bounds o.rm
  have h4 := Pfx.len_le o.pfx
  simp [Vex3Op.encode, Vex3Op.len, h1, h2]
  omega

theorem evex (w l' l : Bool) (o : EvexOp) : (o.encode w l' l).length = o.len ∧ 3 ≤ o.len ∧ o.len ≤ 15 := by
  have h1 := Pfx.length_encode o.pfx
  have h2 := Rm.length_encode o.reg o.rm
  have h3 := Rm.len_bounds o.rm
  have h4 := Pfx.len_le o.pfx
  simp [EvexOp.encode, EvexOp.len, h1, h2]
  omega

theorem pandMm (o : LegacyOp) : Statement (.pandMm o) := legacy false o
theorem pandXmm (o : LegacyOp) : Statement (.pandXmm o) := legacy true o
theorem vpandXmmVex2 (o : Vex2Op) : Statement (.vpandXmmVex2 o) := vex2 false o
theorem vpandXmmVex3 (o : Vex3Op) : Statement (.vpandXmmVex3 o) := vex3 false o
theorem vpandYmmVex2 (o : Vex2Op) : Statement (.vpandYmmVex2 o) := vex2 true o
theorem vpandYmmVex3 (o : Vex3Op) : Statement (.vpandYmmVex3 o) := vex3 true o
theorem vpanddXmm (o : EvexOp) : Statement (.vpanddXmm o) := evex false false false o
theorem vpanddYmm (o : EvexOp) : Statement (.vpanddYmm o) := evex false false true o
theorem vpanddZmm (o : EvexOp) : Statement (.vpanddZmm o) := evex false true false o
theorem vpandqXmm (o : EvexOp) : Statement (.vpandqXmm o) := evex true false false o
theorem vpandqYmm (o : EvexOp) : Statement (.vpandqYmm o) := evex true false true o
theorem vpandqZmm (o : EvexOp) : Statement (.vpandqZmm o) := evex true true false o

end Sys2Proof.Laws.Length
end

