-- ==== Sys2Proof/Machine/Run.lean ====
section
/-! DEFINITION. Programs, runs and the end of a run (70_reset_and_hazards.md R227, D19). A run is made of steps; nothing
here adds to what a step does. -/

namespace Sys2Proof.Machine

/-- The PAND forms the bytes of a program decode to, one after the other, with no byte left over; none when they do
not (R227). `fuel` bounds their number, the number of bytes being enough. -/
def programInstrs (m : Mode) : Nat → List Byte → Option (List Instr)
  | _, [] => some []
  | 0, _ :: _ => none
  | fuel + 1, b :: bs =>
    match decode m (b :: bs) with
    | .instr i rest => (programInstrs m fuel rest).map (i :: ·)
    | .ud _ => none
    | .tooLong => none
    | .reject _ => none

/-- The state a run of `code` at `base` starts in: pc at `base`, and the bytes stored where they are fetched from
(R227; loading is from outside the machine, log 21). -/
def State.launch (s : State) (base : Word64) (code : List Byte) : State :=
  let t := { s with pc := base }
  { t with mem := placeBytes t (code.getD · 0#8) code.length }

/-- Are the bytes from pc those of the program? -/
def holdsCode (s : State) (code : List Byte) : Bool :=
  (List.range code.length).all fun k => fetchByte s k == some (code.getD k 0#8)

/-- Steps until pc is `target`: none when a step faults or is refused on the way, or after `fuel` steps (R227). -/
def runTo (target : Word64) : Nat → State → Option State
  | 0, s => if s.pc = target then some s else none
  | fuel + 1, s =>
    if s.pc = target then some s
    else
      match step s with
      | .next t => runTo target fuel t
      | .fault _ => none
      | .refused _ => none

/-- The end state of the run of `code` at `base`: the state in which pc is `base + length(code)`. A run that meets a
fault, a refused encoding or bytes that are not PAND has none, and neither has a program whose bytes cannot all be
fetched from where they were placed (R227, 20_memory.md R62). -/
def endState (s : State) (base : Word64) (code : List Byte) : Option State :=
  match programInstrs s.cfg.mode code.length code with
  | none => none
  | some _ =>
    if holdsCode (s.launch base code) code then
      runTo (base + BitVec.ofNat 64 code.length) code.length (s.launch base code)
    else none

end Sys2Proof.Machine
end

