-- ==== Sys2Proof/Laws/Run.lean ====
section
/-! SUPPORT. What a run keeps and where it ends (70_reset_and_hazards.md R227). -/

namespace Sys2Proof.Machine

/-- A step leaves memory, the parameters and the segment registers as they are, so that the bytes of the program stay
where they are through a run (20_memory.md R60, R62). -/
theorem step_keeps {s t : State} (h : step s = .next t) : t.mem = s.mem ∧ t.cfg = s.cfg ∧ t.cs = s.cs := by
  obtain ⟨i, _, _, he⟩ := step_next h
  rcases exec_writes he with ⟨o, v, _, rfl⟩ | ⟨d, v, _, rfl⟩ <;> exact ⟨rfl, rfl, rfl⟩

/-- Everything a run is: it ends where pc is the target, at once or after a step that completes. -/
theorem runTo_cases {target : Word64} {fuel : Nat} {s t : State} (h : runTo target fuel s = some t) :
    (s.pc = target ∧ t = s) ∨
      ∃ n u, fuel = n + 1 ∧ s.pc ≠ target ∧ step s = .next u ∧ runTo target n u = some t := by
  cases fuel with
  | zero =>
    simp only [runTo] at h
    split at h
    · exact Or.inl ⟨‹_›, (Option.some.inj h).symm⟩
    · cases h
  | succ n =>
    simp only [runTo] at h
    split at h
    · exact Or.inl ⟨‹_›, (Option.some.inj h).symm⟩
    · rename_i hne
      split at h
      · exact Or.inr ⟨n, _, rfl, hne, ‹_›, h⟩
      · cases h
      · cases h

/-- The end of a run is at its target, with memory and the parameters as at its start. -/
theorem runTo_end {target : Word64} {fuel : Nat} {s t : State} (h : runTo target fuel s = some t) :
    t.pc = target ∧ t.mem = s.mem ∧ t.cfg = s.cfg := by
  induction fuel generalizing s with
  | zero =>
    rcases runTo_cases h with ⟨hp, rfl⟩ | ⟨n, _, hn, _⟩
    · exact ⟨hp, rfl, rfl⟩
    · cases hn
  | succ n ih =>
    rcases runTo_cases h with ⟨hp, rfl⟩ | ⟨m, u, hm, _, hs, hr⟩
    · exact ⟨hp, rfl, rfl⟩
    · cases hm
      obtain ⟨h1, h2, h3⟩ := ih hr
      obtain ⟨k1, k2, _⟩ := step_keeps hs
      exact ⟨h1, h2.trans k1, h3.trans k2⟩

/-- A program that has an end state decodes into PAND forms with no byte left over, and ends at `base + length(code)`
with the memory it was launched with (R227). -/
theorem endState_eq_some {s t : State} {base : Word64} {code : List Byte} (h : endState s base code = some t) :
    (∃ is, programInstrs s.cfg.mode code.length code = some is) ∧
    t.pc = base + BitVec.ofNat 64 code.length ∧ t.mem = (s.launch base code).mem := by
  unfold endState at h
  split at h
  · cases h
  · rename_i is hd
    split at h
    · exact ⟨⟨is, hd⟩, (runTo_end h).1, (runTo_end h).2.1⟩
    · cases h

end Sys2Proof.Machine
end

