-- ==== Sys2Proof/Tests/Slice0.lean ====
section
/-! SUPPORT. Tests: ill-formed terms refused, words decoded, single steps against the vectors of 95_test_vectors.md, and
a witness for the hypotheses of every statement. Expected results are the spec's own (worked examples of
30_encoding.md, vectors M, X, A, E of 95_test_vectors.md) unless a comment says otherwise. -/

open Sys2Proof Sys2Proof.Machine

namespace Sys2Proof.Tests

set_option Elab.async false

/-! ### Helpers -/

/-- No prefix. -/
def np : Pfx := ⟨none, false⟩
/-- A legacy operand without REX, ModRM.reg 1. -/
def leg (rm : Rm) : LegacyOp := ⟨np, none, 1#3, rm⟩
/-- A two-byte VEX operand, destination 1, first source 2. -/
def vx2 (rm : Rm) : Vex2Op := ⟨np, false, 2#4, 1#3, rm⟩
/-- A three-byte VEX operand, destination 1, first source 2. -/
def vx3 (rm : Rm) : Vex3Op := ⟨np, false, false, false, false, 2#4, 1#3, rm⟩
/-- An EVEX operand, destination 1, first source 2. -/
def evx (aaa : BitVec 3) (z bc : Bool) (rm : Rm) : EvexOp :=
  ⟨np, false, false, false, false, 2#4, false, aaa, z, bc, 1#3, rm⟩
/-- `[rax]`. -/
def atRax : Rm := .mem (.base 0#3 .none)
/-- `[rbp + 0]`, whose segment is SS. -/
def atRbp : Rm := .mem (.base 5#3 (.d8 0#8))

/-- The conventions at the head of 95_test_vectors.md: 64-bit mode, everything enabled, pc = 1000H. -/
def base : State := { State.reset with
  cfg  := { Config.atReset with mode := .mode64 }
  cs   := { State.reset.cs with l := true }
  pc   := 0x1000#64
  cr0  := 0x21#64
  cr4  := 0x40200#64
  xcr0 := 0xE7#64
  efer := 0x400#64 }

/-- A 32-bit code segment. -/
def base32 : State := { base with
  cfg := { Config.atReset with mode := .mode32 }
  efer := 0#64
  ss := { base.ss with limit := 0xFFFFFFFF#32 }
  ds := { base.ds with limit := 0xFFFFFFFF#32 }
  cs := { base.cs with l := false, d := true, limit := 0xFFFFFFFF#32 } }

/-- Bytes stored from an address on. -/
def put (m : List Host.Cell) (a : Nat) : List Byte → List Host.Cell
  | [] => m
  | b :: bs => put (Memory.write m a b) (a + 1) bs

/-- With bytes in memory. -/
def State.store (s : State) (a : Nat) (bs : List Byte) : State := { s with mem := put s.mem a bs }
/-- With a general register. -/
def State.setGpr (s : State) (r : BitVec 4) (v : Word64) : State := { s with gpr := s.gpr.set r.toNat v r.isLt }
/-- With a vector register. -/
def State.setZ (s : State) (r : BitVec 5) (v : Vec) : State := { s with z := s.z.set r.toNat v r.isLt }
/-- With an MMX register. -/
def State.setMm (s : State) (r : BitVec 3) (v : Word64) : State := { s with mm := s.mm.set r.toNat v r.isLt }
/-- With an opmask register. -/
def State.setK (s : State) (r : BitVec 3) (v : Word64) : State := { s with k := s.k.set r.toNat v r.isLt }

/-- A field of the state after one step of the code at 1000H. -/
def after {α : Type} (s : State) (code : List Byte) (f : State → α) : Option α :=
  match step (State.store s 0x1000 code) with
  | .next t => some (f t)
  | .fault _ => none
  | .refused _ => none

/-- The fault of one step of the code at 1000H. -/
def faultOf (s : State) (code : List Byte) : Option Fault :=
  match step (State.store s 0x1000 code) with
  | .next _ => none
  | .fault f => some f
  | .refused _ => none

/-- Does the instruction complete? -/
def completes (i : Instr) (s : State) : Bool :=
  match exec i s with
  | .next _ => true
  | .fault _ => false
  | .refused _ => false

theorem exists_next {i : Instr} {s : State} (h : completes i s = true) : ∃ t, exec i s = .next t := by
  unfold completes at h
  split at h
  · exact ⟨_, ‹_›⟩
  · cases h
  · cases h

/-- The low 64-bit lanes of a vector register, lane 0 first. -/
def qwords (n : Nat) (v : Vec) : List (BitVec 64) := (List.range n).map fun j => slice v (64 * j) 64
/-- The low 32-bit lanes. -/
def dwords (n : Nat) (v : Vec) : List (BitVec 32) := (List.range n).map fun j => slice v (32 * j) 32
/-- A vector from 64-bit lanes, lane 0 first. -/
def ofQwords : List (BitVec 64) → Vec
  | [] => 0#512
  | q :: qs => (ofQwords qs <<< 64) ||| q.setWidth 512
/-- A vector from 32-bit lanes, lane 0 first. -/
def ofDwords : List (BitVec 32) → Vec
  | [] => 0#512
  | q :: qs => (ofDwords qs <<< 32) ||| q.setWidth 512

/-- Memory is readable when paging is off, there is no device, and every byte passes the check of R56. -/
theorem readable_of {s : State} {a : Access} (hpg : s.pg = false) (hdev : s.cfg.devices = [])
    (h : a.bytes.all (byteAllowed s a.seg a.ea) = true) : Readable s a := by
  refine ⟨by simpa [AllAllowed] using h, fun k _ => ⟨linear s a.seg a.ea k, ?_⟩,
    fun k _ _ p _ r hr => by simp [hdev] at hr⟩
  unfold translateAddr
  rw [hpg]
  rfl

/-! ### WellFormed: one ill-formed term for each check -/

theorem test_wf_rex_outside_mode64 :
    (Instr.pandMm ⟨np, some ⟨false, false, false, false⟩, 0#3, .reg 1#3⟩).wellFormed .mode32 = false := by decide
theorem test_wf_base_rm4 : (Instr.pandMm (leg (.mem (.base 4#3 .none)))).wellFormed .mode64 = false := by decide
theorem test_wf_base_rm5_no_disp : (Instr.pandXmm (leg (.mem (.base 5#3 .none)))).wellFormed .mode64 = false := by
  decide
theorem test_wf_sib_base5_no_disp :
    (Instr.pandXmm (leg (.mem (.sib 0#2 1#3 5#3 .none)))).wellFormed .mode64 = false := by decide
theorem test_wf_base16_at_64 : (Instr.pandMm (leg (.mem (.base16 0#3 .none)))).wellFormed .mode64 = false := by decide
theorem test_wf_base16_rm6_no_disp :
    (Instr.pandMm (leg (.mem (.base16 6#3 .none)))).wellFormed .mode16 = false := by decide
theorem test_wf_disp16_at_64 : (Instr.pandMm (leg (.mem (.disp16 0#16)))).wellFormed .mode64 = false := by decide
theorem test_wf_wide_forms_at_16 :
    ([Mem.base 0#3 .none, .disp 0#32, .sib 0#2 0#3 0#3 .none, .sibNoBase 0#2 0#3 0#32].all fun m =>
      !(Instr.pandMm (leg (.mem m))).wellFormed .mode16) = true := by decide
theorem test_wf_vex2_extension_outside_mode64 :
    (Instr.vpandXmmVex2 ⟨np, true, 2#4, 1#3, .reg 0#3⟩).wellFormed .mode32 = false ∧
    (Instr.vpandYmmVex2 ⟨np, false, 8#4, 1#3, .reg 0#3⟩).wellFormed .mode32 = false := by decide
theorem test_wf_vex3_extension_outside_mode64 :
    (Instr.vpandXmmVex3 ⟨np, false, false, true, false, 2#4, 1#3, .reg 0#3⟩).wellFormed .mode32 = false ∧
    (Instr.vpandYmmVex3 ⟨np, false, true, false, false, 2#4, 1#3, .reg 0#3⟩).wellFormed .mode16 = false := by decide
theorem test_wf_evex_extension_outside_mode64 :
    (Instr.vpanddXmm ⟨np, false, false, false, true, 2#4, false, 0#3, false, false, 1#3, .reg 0#3⟩).wellFormed
      .mode32 = false ∧
    (Instr.vpandqXmm ⟨np, false, false, false, false, 2#4, true, 0#3, false, false, 1#3, .reg 0#3⟩).wellFormed
      .mode32 = false := by decide
theorem test_wf_evex_zero_without_mask : (Instr.vpanddYmm (evx 0#3 true false (.reg 0#3))).wellFormed .mode64 = false := by
  decide
theorem test_wf_evex_broadcast_of_register :
    (Instr.vpandqZmm (evx 1#3 false true (.reg 0#3))).wellFormed .mode64 = false := by decide

/-! ### Decoding: words of 30_encoding.md and 95_test_vectors.md -/

/-- M1: `0F DB C1`, ModRM C1 = 11 000 001. -/
theorem test_decode_pandMm :
    decode .mode64 [0x0F#8, 0xDB#8, 0xC1#8] = .instr (.pandMm ⟨np, none, 0#3, .reg 1#3⟩) [] := by decide
/-- M9: ModRM AC = 10 101 100, SIB CB = 11 001 011, disp32 100H. -/
theorem test_decode_pandMm_sib :
    decode .mode64 [0x0F#8, 0xDB#8, 0xAC#8, 0xCB#8, 0x00#8, 0x01#8, 0x00#8, 0x00#8] =
      .instr (.pandMm ⟨np, none, 5#3, .mem (.sib 3#2 1#3 3#3 (.d32 0x100#32))⟩) [] := by decide
/-- M18: 16-bit addressing in a 32-bit code segment. -/
theorem test_decode_pandMm_a16 :
    decode .mode32 [0x67#8, 0x0F#8, 0xDB#8, 0x08#8] =
      .instr (.pandMm ⟨⟨none, true⟩, none, 1#3, .mem (.base16 0#3 .none)⟩) [] := by decide
/-- X11: REX 45 (R and B), `[r13 + 0]`. -/
theorem test_decode_pandXmm :
    decode .mode64 [0x66#8, 0x45#8, 0x0F#8, 0xDB#8, 0x7D#8, 0x00#8] =
      .instr (.pandXmm ⟨np, some ⟨false, true, false, true⟩, 7#3, .mem (.base 5#3 (.d8 0#8))⟩) [] := by decide
/-- X12: prefixes 26 66 in either order. -/
theorem test_decode_pfx_order :
    decode .mode32 [0x26#8, 0x66#8, 0x0F#8, 0xDB#8, 0x3F#8] = decode .mode32 [0x66#8, 0x26#8, 0x0F#8, 0xDB#8, 0x3F#8] ∧
    decode .mode32 [0x26#8, 0x66#8, 0x0F#8, 0xDB#8, 0x3F#8] =
      .instr (.pandXmm ⟨⟨some .es, false⟩, none, 7#3, .mem (.base 7#3 .none)⟩) [] := by decide
/-- A1 and R93's worked example. -/
theorem test_decode_vpandXmmVex2 :
    decode .mode64 [0xC5#8, 0xE9#8, 0xDB#8, 0xCB#8] = .instr (.vpandXmmVex2 (vx2 (.reg 3#3))) [] := by decide
/-- A2: W = 1 is ignored. -/
theorem test_decode_vpandXmmVex3 :
    decode .mode64 [0xC4#8, 0xE1#8, 0xE9#8, 0xDB#8, 0xCB#8] =
      .instr (.vpandXmmVex3 ⟨np, false, false, false, true, 2#4, 1#3, .reg 3#3⟩) [] := by decide
/-- A4: `C5 ED DB 08`. -/
theorem test_decode_vpandYmmVex2 :
    decode .mode64 [0xC5#8, 0xED#8, 0xDB#8, 0x08#8] = .instr (.vpandYmmVex2 (vx2 atRax)) [] := by decide
/-- A5 and R94's worked example. -/
theorem test_decode_vpandYmmVex3 :
    decode .mode64 [0xC4#8, 0x41#8, 0x6D#8, 0xDB#8, 0xCB#8] =
      .instr (.vpandYmmVex3 ⟨np, true, false, true, false, 2#4, 1#3, .reg 3#3⟩) [] := by decide
/-- R100's second worked example: `62 B1 6D 08 DB CB`, third operand X:B:rm = 19. -/
theorem test_decode_vpanddXmm :
    decode .mode64 [0x62#8, 0xB1#8, 0x6D#8, 0x08#8, 0xDB#8, 0xCB#8] =
      .instr (.vpanddXmm ⟨np, false, true, false, false, 2#4, false, 0#3, false, false, 1#3, .reg 3#3⟩) [] := by decide
/-- E5. -/
theorem test_decode_vpanddYmm :
    decode .mode64 [0x62#8, 0xF1#8, 0x6D#8, 0x29#8, 0xDB#8, 0x48#8, 0x01#8] =
      .instr (.vpanddYmm (evx 1#3 false false (.mem (.base 0#3 (.d8 1#8))))) [] := by decide
/-- E3 and R97's worked example. -/
theorem test_decode_vpanddZmm :
    decode .mode64 [0x62#8, 0xF1#8, 0x6D#8, 0xD9#8, 0xDB#8, 0x08#8] = .instr (.vpanddZmm (evx 1#3 true true atRax)) [] := by
  decide
/-- E8. -/
theorem test_decode_vpandqXmm :
    decode .mode64 [0x62#8, 0xF1#8, 0xED#8, 0x18#8, 0xDB#8, 0x48#8, 0xFF#8] =
      .instr (.vpandqXmm (evx 0#3 false true (.mem (.base 0#3 (.d8 0xFF#8))))) [] := by decide
/-- E6 and R100's first worked example. -/
theorem test_decode_vpandqYmm :
    decode .mode64 [0x62#8, 0xE1#8, 0xED#8, 0xA3#8, 0xDB#8, 0x48#8, 0x02#8] =
      .instr (.vpandqYmm ⟨np, false, false, false, true, 2#4, true, 3#3, true, false, 1#3, .mem (.base 0#3 (.d8 2#8))⟩)
        [] := by decide
/-- E2: every extension bit on. -/
theorem test_decode_vpandqZmm :
    decode .mode64 [0x62#8, 0x01#8, 0x95#8, 0x40#8, 0xDB#8, 0xF4#8] =
      .instr (.vpandqZmm ⟨np, true, true, true, true, 13#4, true, 0#3, false, false, 6#3, .reg 4#3⟩) [] := by decide

/-- M23, A11, E11, E12, E13: decode-phase #UD. -/
theorem test_decode_ud :
    ([[0xF0#8, 0x0F#8, 0xDB#8, 0x00#8], [0x66#8, 0xC5#8, 0xE9#8, 0xDB#8, 0xCB#8],
      [0x62#8, 0xF1#8, 0x6D#8, 0x18#8, 0xDB#8, 0xCB#8], [0x62#8, 0xF1#8, 0x6D#8, 0x88#8, 0xDB#8, 0xCB#8],
      [0x62#8, 0xF1#8, 0x6D#8, 0x68#8, 0xDB#8, 0xCB#8]].all fun bs => decode .mode64 bs == .ud []) = true := by decide
/-- R187 item 1: the same without their last byte are refused; a LOCK prefix does not make the fetch complete. -/
theorem test_decode_ud_truncated :
    ([[0xF0#8, 0x0F#8, 0xDB#8], [0x66#8, 0xC5#8, 0xE9#8, 0xDB#8], [0x62#8, 0xF1#8, 0x6D#8, 0x18#8, 0xDB#8],
      [0x62#8, 0xF1#8, 0x6D#8, 0x88#8, 0xDB#8], [0x62#8, 0xF1#8, 0x6D#8, 0x68#8, 0xDB#8]].all fun bs =>
        decode .mode64 bs == .reject .truncated) = true := by decide
/-- R102: 26 67 66 F3 48 before EVEX with SIB and disp32 is 16 bytes; the first 15 decide. One prefix less is #UD. -/
theorem test_decode_too_long :
    decode .mode64 [0x26#8, 0x67#8, 0x66#8, 0xF3#8, 0x48#8, 0x62#8, 0xF1#8, 0x6D#8, 0x08#8, 0xDB#8, 0x04#8, 0x25#8,
      0#8, 0#8, 0#8] = .tooLong ∧
    decode .mode64 [0x26#8, 0x67#8, 0x66#8, 0xF3#8, 0x48#8, 0x62#8, 0xF1#8, 0x6D#8, 0x08#8, 0xDB#8, 0x04#8, 0x25#8,
      0#8, 0#8, 0#8, 0#8] = .tooLong ∧
    decode .mode64 [0x67#8, 0x66#8, 0xF3#8, 0x48#8, 0x62#8, 0xF1#8, 0x6D#8, 0x08#8, 0xDB#8, 0x04#8, 0x25#8,
      0#8, 0#8, 0#8, 0#8] = .ud [] := by decide
/-- M27 and R108: F3 with form 1. -/
theorem test_decode_f3 : decode .mode64 [0xF3#8, 0x0F#8, 0xDB#8, 0xC1#8] = .reject .repPfx := by decide

/-- The rows' words as opcode_table.json numbers them; the operand bytes above them are zeros, `[rax]`. -/
theorem test_table_words :
    decodeTableWord 16 0xDB0F = some (.pandMm ⟨np, none, 0#3, atRax⟩) ∧
    decodeTableWord 24 0xDB01C5 = some (.vpandXmmVex2 ⟨np, true, 15#4, 0#3, atRax⟩) ∧
    decodeTableWord 32 0xDB0501C4 = some (.vpandYmmVex3 ⟨np, true, true, true, false, 15#4, 0#3, atRax⟩) ∧
    decodeTableWord 40 0xDB40850162 =
      some (.vpandqZmm ⟨np, true, true, true, true, 15#4, true, 0#3, false, false, 0#3, atRax⟩) := by decide +kernel

/-! ### Steps: form 1 -/

/-- M6. -/
theorem test_step_pandMm_memory :
    after (State.setMm (State.store (State.setGpr base 0#4 0x2000#64) 0x2000 [0x00#8, 0x11#8, 0x22#8, 0x33#8, 0x44#8, 0x55#8, 0x66#8,
        0x77#8, 0x88#8, 0x99#8, 0xAA#8, 0xBB#8]) 0#3 0x00FFFFFFFFFFFF00#64)
      [0x0F#8, 0xDB#8, 0x40#8, 0x03#8] (fun t => (t.getMm 0#3, t.pc)) =
      some (0x0099887766554400#64, 0x1004#64) := by decide +kernel
/-- M2, with the other bits of FSW at a value of the test's (R22 b). -/
theorem test_step_pandMm_x87 :
    after { State.setMm base 3#3 0x123456789ABCDEF0#64 with fsw := 0x6D00#16, ftw := 0xFFFF#16 }
      [0x0F#8, 0xDB#8, 0xDB#8] (fun t => (t.getMm 3#3, t.fsw, t.ftw, t.stExp[3], t.stExp[2])) =
      some (0x123456789ABCDEF0#64, 0x4500#16, 0#16, 0xFFFF#16, 0#16) := by decide +kernel

/-! ### Steps: form 2 -/

/-- X2: the upper bits stay. -/
theorem test_step_pandXmm_registers :
    after (State.setZ (State.setZ base 9#5 (ofQwords [0x0FEDCBA987654321#64, 0x123456789ABCDEF0#64, 0xFFFFFFFFFFFFFFFF#64]))
        2#5 (ofQwords [0x00000000FFFFFFFF#64, 0xFFFFFFFF00000000#64]))
      [0x66#8, 0x44#8, 0x0F#8, 0xDB#8, 0xCA#8] (fun t => (qwords 4 (t.getZ 9#5), t.pc)) =
      some ([0x0000000087654321#64, 0x1234567800000000#64, 0xFFFFFFFFFFFFFFFF#64, 0#64], 0x1005#64) := by decide +kernel
/-- X4. -/
theorem test_step_pandXmm_memory :
    after (State.setZ (State.store (State.setGpr base 3#4 0x2000#64) 0x2010 [0x00#8, 0x01#8, 0x02#8, 0x03#8, 0x04#8, 0x05#8, 0x06#8,
        0x07#8, 0x08#8, 0x09#8, 0x0A#8, 0x0B#8, 0x0C#8, 0x0D#8, 0x0E#8, 0x0F#8]) 1#5
        (ofQwords [0xFFFFFFFFFFFFFFFF#64, 0xFFFFFFFFFFFFFFFF#64]))
      [0x66#8, 0x0F#8, 0xDB#8, 0x4B#8, 0x10#8] (fun t => qwords 2 (t.getZ 1#5)) =
      some [0x0706050403020100#64, 0x0F0E0D0C0B0A0908#64] := by decide +kernel

/-! ### Steps: forms 3 and 4 -/

/-- The state of A1. -/
def a1 : State :=
  State.setZ (State.setZ (State.setZ base 1#5 (BitVec.allOnes 512)) 2#5
    (ofQwords [0x00000000FFFFFFFF#64, 0xFFFFFFFFFFFFFFFF#64])) 3#5 (ofQwords [0xFEDCBA9876543210#64, 0x0123456789ABCDEF#64])

/-- A1. -/
theorem test_step_vpandXmmVex2 :
    after a1 [0xC5#8, 0xE9#8, 0xDB#8, 0xCB#8] (fun t => (t.getZ 1#5, t.pc)) =
      some (ofQwords [0x0000000076543210#64, 0x0123456789ABCDEF#64], 0x1004#64) := by decide +kernel
/-- A2. -/
theorem test_step_vpandXmmVex3 :
    after a1 [0xC4#8, 0xE1#8, 0xE9#8, 0xDB#8, 0xCB#8] (fun t => (t.getZ 1#5, t.pc)) =
      some (ofQwords [0x0000000076543210#64, 0x0123456789ABCDEF#64], 0x1005#64) := by decide +kernel
/-- A4 with 31 the last byte: bytes 16 to 31 of the result are 10H. -/
theorem test_step_vpandYmmVex2 :
    after (State.setZ (State.store (State.setGpr base 0#4 0x2000#64) 0x2000 ((List.range 32).map (BitVec.ofNat 8))) 2#5
        (ofQwords (List.replicate 8 0xF0F0F0F0F0F0F0F0#64)))
      [0xC5#8, 0xED#8, 0xDB#8, 0x08#8] (fun t => t.getZ 1#5) =
      some (ofQwords [0#64, 0#64, 0x1010101010101010#64, 0x1010101010101010#64]) := by decide +kernel
/-- A5 with values of the test's: ymm9 is ymm2 AND ymm11. -/
theorem test_step_vpandYmmVex3 :
    after (State.setZ (State.setZ (State.setZ base 2#5 (ofQwords (List.replicate 8 0xFF00FF00FF00FF00#64))) 11#5
        (ofQwords (List.replicate 8 0x123456789ABCDEF0#64))) 9#5 (BitVec.allOnes 512))
      [0xC4#8, 0x41#8, 0x6D#8, 0xDB#8, 0xCB#8] (fun t => t.getZ 9#5) =
      some (ofQwords (List.replicate 4 0x120056009A00DE00#64)) := by decide +kernel

/-! ### Steps: forms 5 to 10 -/

/-- The state of E18. -/
def e18 : State :=
  State.setK (State.setZ (State.setZ base 2#5 (ofQwords (List.replicate 2 0xFFFFFFFFFFFFFFFF#64))) 3#5
    (ofQwords (List.replicate 2 0xFFFFFFFFFFFFFFFF#64))) 1#3 2#64

/-- E18, VPANDD. -/
theorem test_step_vpanddXmm :
    after e18 [0x62#8, 0xF1#8, 0x6D#8, 0x09#8, 0xDB#8, 0xCB#8] (fun t => qwords 8 (t.getZ 1#5)) =
      some [0xFFFFFFFF00000000#64, 0#64, 0#64, 0#64, 0#64, 0#64, 0#64, 0#64] := by decide +kernel
/-- E10: nothing enabled, the operand non-canonical (the test's own address): nothing faults. -/
theorem test_step_vpanddXmm_nothing_enabled :
    after (State.setGpr (State.setZ base 1#5 (BitVec.allOnes 512)) 3#4 0x0000800000000000#64)
      [0x62#8, 0xF1#8, 0x75#8, 0x1F#8, 0xDB#8, 0x4B#8, 0x01#8] (fun t => t.getZ 1#5) =
      some (ofQwords [0xFFFFFFFFFFFFFFFF#64, 0xFFFFFFFFFFFFFFFF#64]) := by decide +kernel
/-- E5 with values of the test's. -/
theorem test_step_vpanddYmm :
    after (State.setK (State.setZ (State.setZ (State.store (State.setGpr base 0#4 0x2000#64) 0x2020 (List.replicate 32 0x0F#8)) 2#5
        (BitVec.allOnes 512)) 1#5 (BitVec.allOnes 512)) 1#3 0x0F#64)
      [0x62#8, 0xF1#8, 0x6D#8, 0x29#8, 0xDB#8, 0x48#8, 0x01#8] (fun t => t.getZ 1#5) =
      some (ofQwords [0x0F0F0F0F0F0F0F0F#64, 0x0F0F0F0F0F0F0F0F#64, 0xFFFFFFFFFFFFFFFF#64, 0xFFFFFFFFFFFFFFFF#64]) := by
  decide +kernel
/-- E3. -/
theorem test_step_vpanddZmm_zeroing :
    after (State.setK (State.setZ (State.store (State.setGpr base 0#4 0x2000#64) 0x2000 (List.replicate 4 0x0F#8)) 2#5
        (ofDwords ((List.range 16).map fun j => BitVec.ofNat 32 (0x01010101 * (j + 1))))) 1#3 0xA5A5#64)
      [0x62#8, 0xF1#8, 0x6D#8, 0xD9#8, 0xDB#8, 0x08#8] (fun t => dwords 16 (t.getZ 1#5)) =
      some [0x01010101#32, 0#32, 0x03030303#32, 0#32, 0#32, 0x06060606#32, 0#32, 0x08080808#32, 0x09090909#32, 0#32,
        0x0B0B0B0B#32, 0#32, 0#32, 0x0E0E0E0E#32, 0#32, 0#32] := by decide +kernel
/-- E4. -/
theorem test_step_vpanddZmm_merging :
    after (State.setK (State.setZ (State.setZ (State.store (State.setGpr base 0#4 0x2000#64) 0x2004 [0xFF#8, 0x00#8, 0xFF#8, 0x00#8]) 2#5
        (ofDwords ((List.range 16).map fun j => BitVec.ofNat 32 (0xABCD0000 + 0x0101 * j)))) 1#5
        (ofDwords (List.replicate 16 0xDEADBEEF#32))) 1#3 0x00F0#64)
      [0x62#8, 0xF1#8, 0x6D#8, 0x59#8, 0xDB#8, 0x48#8, 0x01#8] (fun t => dwords 9 (t.getZ 1#5)) =
      some [0xDEADBEEF#32, 0xDEADBEEF#32, 0xDEADBEEF#32, 0xDEADBEEF#32, 0x00CD0004#32, 0x00CD0005#32, 0x00CD0006#32,
        0x00CD0007#32, 0xDEADBEEF#32] := by decide +kernel
/-- E18, VPANDQ. -/
theorem test_step_vpandqXmm_masked :
    after e18 [0x62#8, 0xF1#8, 0xED#8, 0x09#8, 0xDB#8, 0xCB#8] (fun t => qwords 3 (t.getZ 1#5)) =
      some [0#64, 0xFFFFFFFFFFFFFFFF#64, 0#64] := by decide +kernel
/-- E8 with Z[2] at a value of the test's. -/
theorem test_step_vpandqXmm_broadcast :
    after (State.setZ (State.store (State.setGpr base 0#4 0x2008#64) 0x2000 (List.replicate 8 0x0F#8)) 2#5
        (ofQwords [0x123456789ABCDEF0#64, 0xFFFFFFFFFFFFFFFF#64, 1#64]))
      [0x62#8, 0xF1#8, 0xED#8, 0x18#8, 0xDB#8, 0x48#8, 0xFF#8] (fun t => qwords 3 (t.getZ 1#5)) =
      some [0x020406080A0C0E00#64, 0x0F0F0F0F0F0F0F0F#64, 0#64] := by decide +kernel
/-- E6. -/
theorem test_step_vpandqYmm :
    after (State.setK (State.setZ (State.store (State.setGpr base 0#4 0x2000#64) 0x2040
        (List.replicate 8 0x11#8 ++ List.replicate 8 0x22#8 ++ List.replicate 8 0x33#8 ++ List.replicate 8 0x44#8)) 18#5
        (ofQwords (List.replicate 4 0x00FF00FF00FF00FF#64))) 3#3 5#64)
      [0x62#8, 0xE1#8, 0xED#8, 0xA3#8, 0xDB#8, 0x48#8, 0x02#8] (fun t => t.getZ 17#5) =
      some (ofQwords [0x0011001100110011#64, 0#64, 0x0033003300330033#64]) := by decide +kernel
/-- E7. -/
theorem test_step_vpandqZmm_masked :
    after (State.setK (State.setZ (State.setZ (State.setZ base 2#5 (ofQwords (List.replicate 8 0x00FF00FF00FF00FF#64))) 3#5
        (ofQwords ((List.range 8).map fun j => BitVec.ofNat 64 (0x1111111111111111 * (j + 1))))) 1#5 (BitVec.allOnes 512))
        2#3 0x0F#64)
      [0x62#8, 0xF1#8, 0xED#8, 0x4A#8, 0xDB#8, 0xCB#8] (fun t => qwords 5 (t.getZ 1#5)) =
      some [0x0011001100110011#64, 0x0022002200220022#64, 0x0033003300330033#64, 0x0044004400440044#64,
        0xFFFFFFFFFFFFFFFF#64] := by decide +kernel
/-- E2 with values of the test's: zmm30 is zmm29 AND zmm28. -/
theorem test_step_vpandqZmm_high_registers :
    after (State.setZ (State.setZ base 29#5 (ofQwords (List.replicate 8 0xFFFF0000FFFF0000#64))) 28#5
        (ofQwords (List.replicate 8 0x123456789ABCDEF0#64)))
      [0x62#8, 0x01#8, 0x95#8, 0x40#8, 0xDB#8, 0xF4#8] (fun t => qwords 8 (t.getZ 30#5)) =
      some (List.replicate 8 0x123400009ABC0000#64) := by decide +kernel

/-! ### Runs -/

/-- R227: the one-instruction program `0F DB C1` at 3000H ends with pc at 3003H; with a byte left over, or LOCK before
it, a program has no end state. -/
theorem test_endState :
    (endState base 0x3000#64 [0x0F#8, 0xDB#8, 0xC1#8]).map State.pc = some 0x3003#64 ∧
    (endState base 0x3000#64 [0x0F#8, 0xDB#8, 0xC1#8, 0x0F#8]).isNone = true ∧
    (endState base 0x3000#64 [0xF0#8, 0x0F#8, 0xDB#8, 0x00#8]).isNone = true := by decide +kernel

/-! ### Steps that fault -/

/-- R102, R187 item 2: the 16 bytes of test_decode_too_long. -/
theorem test_fault_too_long :
    faultOf base [0x26#8, 0x67#8, 0x66#8, 0xF3#8, 0x48#8, 0x62#8, 0xF1#8, 0x6D#8, 0x08#8, 0xDB#8, 0x04#8, 0x25#8,
      0#8, 0#8, 0#8, 0#8] = some (.gp 0x1000#64) := by decide +kernel
/-- R187 item 1: LOCK 0F DB at the end of the CS limit, its ModRM byte beyond it, is no #UD. -/
theorem test_lock_at_the_limit :
    faultOf { base32 with cs := { base32.cs with base := 0#64, limit := 0x1002#32 } } [0xF0#8, 0x0F#8, 0xDB#8, 0x00#8] = none ∧
    faultOf { base32 with cs := { base32.cs with base := 0#64, limit := 0x1003#32 } } [0xF0#8, 0x0F#8, 0xDB#8, 0x00#8] =
      some (.ud 0x1000#64) := by decide +kernel

/-- M19, M20, M21, M22, M28. -/
theorem test_faults_form1 :
    faultOf { base with cr0 := 0x25#64 } [0x0F#8, 0xDB#8, 0xC1#8] = some (.ud 0x1000#64) ∧
    faultOf { base with cr0 := 0x29#64 } [0x0F#8, 0xDB#8, 0xC1#8] = some (.nm 0x1000#64) ∧
    faultOf { base with cr0 := 0x2D#64 } [0x0F#8, 0xDB#8, 0xC1#8] = some (.ud 0x1000#64) ∧
    faultOf { base with fsw := 0x80#16 } [0x0F#8, 0xDB#8, 0xC1#8] = some (.mf 0x1000#64) ∧
    faultOf { base with cfg := { base.cfg with feat := { base.cfg.feat with mmx := false } } } [0x0F#8, 0xDB#8, 0xC1#8] =
      some (.ud 0x1000#64) := by decide +kernel
/-- M24, M25, X5. -/
theorem test_faults_operand :
    faultOf { State.setGpr base 0#4 0x2000#64 with cr0 := 0x40021#64, eflags := 0x40002#32, cpl := 3#2 }
      [0x0F#8, 0xDB#8, 0x40#8, 0x03#8] = some (.ac 0x1000#64) ∧
    faultOf (State.setGpr base 0#4 0x0000800000000000#64) [0x0F#8, 0xDB#8, 0x00#8] = some (.gp 0x1000#64) ∧
    faultOf (State.setGpr base 0#4 0x2008#64) [0x66#8, 0x0F#8, 0xDB#8, 0x00#8] = some (.gp 0x1000#64) := by
  decide +kernel
/-- A7, A8, A12, E14, E15, E16. -/
theorem test_faults_vex_evex :
    faultOf { base with cr4 := 0x200#64 } [0xC5#8, 0xE9#8, 0xDB#8, 0xCB#8] = some (.ud 0x1000#64) ∧
    faultOf { base with xcr0 := 0xE3#64 } [0xC5#8, 0xE9#8, 0xDB#8, 0xCB#8] = some (.ud 0x1000#64) ∧
    faultOf { base with cfg := { base.cfg with feat := { base.cfg.feat with avx2 := false } } }
      [0xC5#8, 0xED#8, 0xDB#8, 0x08#8] = some (.ud 0x1000#64) ∧
    faultOf { base with xcr0 := 7#64 } [0x62#8, 0xF1#8, 0x6D#8, 0x48#8, 0xDB#8, 0xCB#8] = some (.ud 0x1000#64) ∧
    faultOf { base with cfg := { base.cfg with feat := { base.cfg.feat with avx512vl := false, avx10_1 := false } } }
      [0x62#8, 0xF1#8, 0x6D#8, 0x08#8, 0xDB#8, 0xCB#8] = some (.ud 0x1000#64) ∧
    faultOf { base with cfg := { base.cfg with maxvl := .v256, avx10Max := .l256, feat := { base.cfg.feat with avx512f := false } } }
      [0x62#8, 0xF1#8, 0x6D#8, 0x48#8, 0xDB#8, 0xCB#8] = some (.ud 0x1000#64) := by decide +kernel

/-! ### Witnesses: a state and operands that meet the hypotheses of each statement -/

/-- An EVEX operand with nothing masked, of registers. -/
def evReg : EvexOp := evx 0#3 false false (.reg 3#3)

/-- `base` with RAX = 2000H. -/
def rax2000 : State := State.setGpr base 0#4 0x2000#64

/-- DecodeEncodeRoundTrip: one well-formed instruction of every constructor, and one in each of the other modes. -/
theorem witness_DecodeEncodeRoundTrip :
    ([Instr.pandMm (leg atRax), .pandXmm (leg atRbp), .vpandXmmVex2 (vx2 atRax), .vpandXmmVex3 (vx3 atRax),
      .vpandYmmVex2 (vx2 (.reg 7#3)), .vpandYmmVex3 (vx3 atRbp), .vpanddXmm (evx 7#3 true true atRax),
      .vpanddYmm evReg, .vpanddZmm evReg, .vpandqXmm evReg, .vpandqYmm evReg, .vpandqZmm evReg].all fun i =>
        i.wellFormed .mode64) = true ∧
    (Instr.vpanddXmm evReg).wellFormed .mode32 = true ∧
    (Instr.pandMm (leg (.mem (.base16 6#3 (.d8 0#8))))).wellFormed .mode16 = true := by decide

/-- DecodedIsWellFormed: bytes that decode to an instruction and leave some. -/
theorem witness_DecodedIsWellFormed :
    decode .mode64 [0x0F#8, 0xDB#8, 0xC1#8, 0x90#8] = .instr (.pandMm ⟨np, none, 0#3, .reg 1#3⟩) [0x90#8] := by decide

/-- EvexFieldsAreRead: the bytes of E6 with a register operand, and L'L = 10 without a mask. -/
theorem witness_EvexFieldsAreRead :
    ([(0xE1#8, 0xED#8, 0xA3#8, 0xCB#8), (0x01#8, 0x95#8, 0x40#8, 0xF4#8)].all fun (p0, p1, p2, m) =>
      (p0 : Byte).extractLsb' 0 4 == 1#4 && (p1 : Byte).extractLsb' 0 3 == 5#3 && (m : Byte).extractLsb' 6 2 == 3#2 &&
      (p2 : Byte).extractLsb' 5 2 != 3#2 && !p2.getLsbD 4 && (!p2.getLsbD 7 || p2.extractLsb' 0 3 != 0#3)) = true := by
  decide

/-- VexFieldsAreRead: both clauses. -/
theorem witness_VexFieldsAreRead :
    (0xCB#8 : Byte).extractLsb' 6 2 = 3#2 ∧ (0xE9#8 : Byte).extractLsb' 0 2 = 1#2 ∧
    (0x41#8 : Byte).extractLsb' 0 5 = 1#5 ∧ (0x6D#8 : Byte).extractLsb' 0 2 = 1#2 := by decide

/-- RexFieldsAreRead. -/
theorem witness_RexFieldsAreRead : (0x4F#8 : Byte).extractLsb' 4 4 = 4#4 ∧ (0xC1#8 : Byte).extractLsb' 6 2 = 3#2 := by
  decide

/-- IllegalPrefixesAreInvalidOpcode, first clause: LOCK before form 1. -/
theorem witness_IllegalPrefixes_lock :
    scanPfx .start [0xF0#8, 0x0F#8, 0xDB#8, 0x00#8] =
      some (⟨none, false, false, false, true⟩, [0x0F#8, 0xDB#8, 0x00#8]) ∧
    takeRex .mode64 [0x0F#8, 0xDB#8, 0x00#8] = (none, 0x0F#8 :: 0xDB#8 :: [0x00#8]) := by decide
/-- Second clause: 66, and REX, before VEX. -/
theorem witness_IllegalPrefixes_vex :
    scanPfx .start [0x66#8, 0xC5#8, 0xE9#8] = some (⟨none, false, true, false, false⟩, [0xC5#8, 0xE9#8]) ∧
    takeRex .mode64 [0xC5#8, 0xE9#8] = (none, 0xC5#8 :: 0xE9#8 :: []) ∧
    scanPfx .start [0x48#8, 0x62#8, 0xF1#8] = some (.start, [0x48#8, 0x62#8, 0xF1#8]) ∧
    takeRex .mode64 [0x48#8, 0x62#8, 0xF1#8] = (some ⟨true, false, false, false⟩, 0x62#8 :: 0xF1#8 :: []) := by decide

/-- EvexViolationsAreInvalidOpcode: one word for each violation. -/
theorem witness_EvexViolations :
    (0xF1#8 : Byte).extractLsb' 0 4 = 1#4 ∧ (0x6D#8 : Byte).extractLsb' 0 2 = 1#2 ∧
    (0x69#8 : Byte).extractLsb' 0 2 = 1#2 ∧ (0x69#8 : Byte).getLsbD 2 = false ∧
    (0x68#8 : Byte).extractLsb' 5 2 = 3#2 ∧
    ((0x88#8 : Byte).getLsbD 7 = true ∧ (0x88#8 : Byte).extractLsb' 0 3 = 0#3) ∧
    ((0x18#8 : Byte).getLsbD 4 = true ∧ (0xCB#8 : Byte).extractLsb' 6 2 = 3#2) ∧
    takeModRM .a64 [0xCB#8] = some (1#3, .reg 3#3, []) ∧ takeModRM .a64 [0x48#8] = none := by decide

/-- OutsideMode64OtherInstructions: both clauses. -/
theorem witness_OutsideMode64 :
    Mode.mode32 ≠ .mode64 ∧ (0xBF#8 : Byte).extractLsb' 6 2 ≠ 3#2 ∧ (0x4F#8 : Byte).extractLsb' 4 4 = 4#4 := by decide

/-- EncodingsRefusedByDecision: each clause. -/
theorem witness_EncodingsRefused :
    (scanPfx .start [0x66#8, 0xF3#8, 0x0F#8, 0xDB#8] =
        some (⟨none, false, true, true, false⟩, [0x0F#8, 0xDB#8]) ∧
      takeRex .mode64 [0x0F#8, 0xDB#8] = (none, 0x0F#8 :: 0xDB#8 :: [])) ∧
    ((∀ x ∈ [0x26#8, 0x66#8], ∃ h ∈ pfxGroups, x ∈ h) ∧
      ∃ g ∈ pfxGroups, (∃ x ∈ [0x26#8, 0x66#8], x ∈ g) ∧ 0x3E#8 ∈ g) ∧
    (scanPfx .start [0x40#8, 0x67#8] = some (.start, 0x40#8 :: 0x67#8 :: []) ∧
      (0x40#8 : Byte).extractLsb' 4 4 = 4#4 ∧ ∃ g ∈ pfxGroups, 0x67#8 ∈ g) ∧
    ((0xF9#8 : Byte).extractLsb' 6 2 = 3#2 ∧ (0xF9#8 : Byte).getLsbD 3 = true) ∧
    (Mode.mode32 ≠ .mode64 ∧ (0xC1#8 : Byte).extractLsb' 6 2 = 3#2 ∧ (0xC1#8 : Byte).extractLsb' 0 5 = 1#5 ∧
      (0x6D#8 : Byte).extractLsb' 0 2 = 1#2 ∧ (0xC1#8 : Byte).getLsbD 5 = false) ∧
    (Mode.mode16 ≠ .mode64 ∧ (0xE1#8 : Byte).extractLsb' 6 2 = 3#2 ∧ (0xE1#8 : Byte).extractLsb' 0 4 = 1#4 ∧
      (0x6D#8 : Byte).extractLsb' 0 3 = 5#3 ∧ (0x08#8 : Byte).extractLsb' 5 2 ≠ 3#2 ∧
      ((0x08#8 : Byte).getLsbD 7 = true → (0x08#8 : Byte).extractLsb' 0 3 ≠ 0#3) ∧
      (0xE1#8 : Byte).getLsbD 4 = false) := by decide

/-- StepRunsDecodedInstruction: all four clauses. -/
theorem witness_StepRuns :
    (match decode .mode64 (fetchBytes (State.store base 0x1000 [0x0F#8, 0xDB#8, 0xC1#8])) with
      | .instr i _ => i == .pandMm ⟨np, none, 0#3, .reg 1#3⟩
      | .ud _ => false
      | .tooLong => false
      | .reject _ => false) = true ∧
    decode .mode64 (fetchBytes (State.store base 0x1000 [0xF0#8, 0x0F#8, 0xDB#8])) = .ud (List.replicate 11 0#8) ∧
    decode .mode64 (fetchBytes (State.store base 0x1000 [0x26#8, 0x67#8, 0x66#8, 0xF3#8, 0x48#8, 0x62#8, 0xF1#8, 0x6D#8,
      0x08#8, 0xDB#8, 0x04#8, 0x25#8])) = .tooLong ∧
    decode .mode64 (fetchBytes base) = .reject .notPand := by decide +kernel

/-- PlacedWordIsRunNext: the reset state itself. -/
theorem witness_PlacedWord :
    State.reset.pg = false ∧ Memory.wf State.reset.mem = true ∧
    ((List.range 15).all fun k => canonical State.reset.cfg.vaBits (State.reset.pc + BitVec.ofNat 64 k)) = true ∧
    (decodeTableWord 16 0xDB0F).isSome = true := by decide +kernel

/-- PandMmOfRegisters, PandXmmOfRegisters, EveryFormCompletes, PcStaysInRange. -/
theorem witness_legacy_registers :
    (leg (.reg 1#3)).rm = .reg 1#3 ∧ udCondition base (.pandMm (leg (.reg 1#3))) = false ∧
    udCondition base (.pandXmm (leg (.reg 1#3))) = false ∧ base.ts = false ∧ base.fswEs = false ∧
    pcAdvances base 3 = true ∧ pcAdvances base 4 = true ∧ (leg (.reg 1#3)).len false = 3 ∧
    (leg (.reg 1#3)).len true = 4 := by decide +kernel

/-- PandMmOfMemory, X87EffectsOfForm1, MmxFormFrame. -/
theorem witness_PandMmOfMemory :
    (leg atRax).rm = .mem (.base 0#3 .none) ∧ udCondition rax2000 (.pandMm (leg atRax)) = false ∧ rax2000.ts = false ∧
    rax2000.fswEs = false ∧ pcAdvances rax2000 ((leg atRax).len false) = true ∧
    Readable rax2000 (mmAccess rax2000 (leg atRax) (.base 0#3 .none)) ∧
    Aligned rax2000 (mmAccess rax2000 (leg atRax) (.base 0#3 .none)) .ac8 ∧
    (∀ i < 64, (0#64 : Word64).getLsbD i =
      (readByte rax2000 (mmAccess rax2000 (leg atRax) (.base 0#3 .none)) (i / 8)).getLsbD (i % 8)) ∧
    ∃ t, exec (.pandMm (leg atRax)) rax2000 = .next t := by
  refine ⟨rfl, by decide +kernel, by decide +kernel, by decide +kernel, by decide +kernel,
    readable_of (by decide +kernel) rfl (by decide +kernel), fun _ => by decide +kernel, by decide +kernel,
    exists_next (by decide +kernel)⟩

/-- PandXmmOfMemory: the operand at a multiple of 16. -/
theorem witness_PandXmmOfMemory :
    udCondition rax2000 (.pandXmm (leg atRax)) = false ∧ rax2000.ts = false ∧
    pcAdvances rax2000 ((leg atRax).len true) = true ∧
    Readable rax2000 (xmmAccess rax2000 (leg atRax) (.base 0#3 .none)) ∧
    (linear rax2000 (xmmAccess rax2000 (leg atRax) (.base 0#3 .none)).seg
      (xmmAccess rax2000 (leg atRax) (.base 0#3 .none)).ea 0).toNat % 16 = 0 := by
  refine ⟨by decide +kernel, by decide +kernel, by decide +kernel,
    readable_of (by decide +kernel) rfl (by decide +kernel), by decide +kernel⟩

/-- VpandOfRegisters: both encodings at both lengths. -/
theorem witness_VpandOfRegisters :
    ([false, true].all fun wide =>
      !udCondition base (vex2Instr wide (vx2 (.reg 3#3))) && !udCondition base (vex3Instr wide (vx3 (.reg 3#3)))) = true ∧
    base.ts = false ∧ pcAdvances base (vx2 (.reg 3#3)).len = true ∧ pcAdvances base (vx3 (.reg 3#3)).len = true := by
  decide +kernel

/-- VpandOfMemory: both encodings at both lengths. -/
theorem witness_VpandOfMemory (wide : Bool) :
    udCondition rax2000 (vex2Instr wide (vx2 atRax)) = false ∧ udCondition rax2000 (vex3Instr wide (vx3 atRax)) = false ∧
    rax2000.ts = false ∧ pcAdvances rax2000 (vx2 atRax).len = true ∧ pcAdvances rax2000 (vx3 atRax).len = true ∧
    Readable rax2000 (vexAccess rax2000 (vx2 atRax).pfx false false (vx2 atRax).len (vexLen wide) (.base 0#3 .none)) ∧
    Readable rax2000 (vexAccess rax2000 (vx3 atRax).pfx (vx3 atRax).x (vx3 atRax).b (vx3 atRax).len (vexLen wide)
      (.base 0#3 .none)) := by
  cases wide <;>
  refine ⟨by decide +kernel, by decide +kernel, by decide +kernel, by decide +kernel, by decide +kernel,
    readable_of (by decide +kernel) rfl (by decide +kernel), readable_of (by decide +kernel) rfl (by decide +kernel)⟩

/-- EvexOfRegisters, EvexRegistersExist: every element size and length. -/
theorem witness_EvexOfRegisters (es : ElemSize) (vl : VecLen) :
    udCondition base (evexInstr es vl evReg) = false ∧ base.ts = false ∧ pcAdvances base evReg.len = true := by
  cases es <;> cases vl <;> decide +kernel

/-- EvexOfMemoryVector (masked by k1 = 5), EvexOfBroadcast. -/
theorem witness_EvexOfMemory (es : ElemSize) (vl : VecLen) (bc : Bool) :
    udCondition (State.setK rax2000 1#3 5#64) (evexInstr es vl (evx 1#3 false bc atRax)) = false ∧
    (State.setK rax2000 1#3 5#64).ts = false ∧
    pcAdvances (State.setK rax2000 1#3 5#64) (evx 1#3 false bc atRax).len = true ∧
    Readable (State.setK rax2000 1#3 5#64)
      (evexAccess (State.setK rax2000 1#3 5#64) (evx 1#3 false bc atRax) es vl (.base 0#3 .none)) := by
  cases es <;> cases vl <;> cases bc <;>
  refine ⟨by decide +kernel, by decide +kernel, by decide +kernel, readable_of (by decide +kernel) rfl (by decide +kernel)⟩

/-- EvexNothingEnabledNeverFaults: k1 is 0; first clause, the address not canonical (no byte has a place in memory). -/
theorem witness_EvexNothingEnabled (es : ElemSize) (vl : VecLen) :
    (evx 1#3 false true atRax).aaa ≠ 0#3 ∧
    (∀ j < vl.elems es, ((State.setGpr base 0#4 0x0000800000000000#64).getK (evx 1#3 false true atRax).aaa).getLsbD j = false) ∧
    udCondition (State.setGpr base 0#4 0x0000800000000000#64) (evexInstr es vl (evx 1#3 false true atRax)) = false ∧
    (State.setGpr base 0#4 0x0000800000000000#64).ts = false ∧
    pcAdvances (State.setGpr base 0#4 0x0000800000000000#64) (evx 1#3 false true atRax).len = true := by
  cases es <;> cases vl <;> decide +kernel

/-- EveryFormCompletes with a memory operand, form 2, whose operand must be aligned; VectorFormsFrame. -/
theorem witness_EveryFormCompletes :
    udCondition rax2000 (.pandXmm (leg atRax)) = false ∧ rax2000.ts = false ∧
    x87Stops rax2000 (.pandXmm (leg atRax)) = false ∧
    (∀ al a, memOperand rax2000 (.pandXmm (leg atRax)) = some (al, a) → Readable rax2000 a ∧ Aligned rax2000 a al) ∧
    pcAdvances rax2000 (Instr.pandXmm (leg atRax)).len = true ∧
    vecDest (.pandXmm (leg atRax)) = some 1#5 ∧ ∃ t, exec (.pandXmm (leg atRax)) rax2000 = .next t := by
  refine ⟨by decide +kernel, by decide +kernel, by decide +kernel, fun al a h => ?_, by decide +kernel,
    by decide +kernel, exists_next (by decide +kernel)⟩
  simp only [memOperand, leg, atRax, Option.some.injEq, Prod.mk.injEq] at h
  obtain ⟨rfl, rfl⟩ := h
  exact ⟨readable_of (by decide +kernel) rfl (by decide +kernel), show _ % 16 = 0 from by decide +kernel⟩

/-- NoFormWritesMemory, StepKeepsInvariant: a step that completes. -/
def running : State := State.store base 0x1000 [0x0F#8, 0xDB#8, 0xC1#8]

theorem witness_step_completes : ∃ t, step running = .next t := by
  have h : (after base [0x0F#8, 0xDB#8, 0xC1#8] fun _ => ()) = some () := by decide +kernel
  unfold after at h
  split at h
  · exact ⟨_, ‹_›⟩
  · cases h
  · cases h

theorem witness_Inv : running.Inv ∧ running.ModeAgrees where
  left := {
    mem := by decide +kernel
    vecBits := fun d i _ => by simp [State.getZ, running, State.store, base, State.reset, State.resetOf]
    highVecs := fun h => by simp [running, State.store, base, Config.hasHighVecs, Config.atReset] at h
    opmasks := fun d i _ => by simp [State.getK, running, State.store, base, State.reset, State.resetOf]
    pc := (by decide +kernel : canonical running.cfg.vaBits running.pc = true)
    xcr0 := by decide +kernel }
  right := by decide +kernel

/-- NoFlagsAffected: other values of EFLAGS with the same VM and AC; NothingElseWritten: a form that faults. -/
theorem witness_NoFlags :
    (0x8D7#32).getLsbD 17 = base.eflags.getLsbD 17 ∧ (0x8D7#32).getLsbD 18 = base.eflags.getLsbD 18 ∧
    (∃ t, exec (.pandMm (leg (.reg 1#3))) base = .next t) ∧
    exec (.pandMm (leg (.reg 1#3))) { base with cr0 := 0x25#64 } = .fault (.ud 0x1000#64) := by
  refine ⟨by decide +kernel, by decide +kernel, exists_next (by decide +kernel), rfl⟩

/-- 30_encoding.md R90: in a 16-bit code segment of protected mode a VEX and an EVEX form are #UD, and form 2 runs. -/
theorem test_vex_barred_in_16_bit_code :
    let s := { base32 with cfg := { Config.atReset with mode := .mode16 }, cs := { base32.cs with d := false } }
    exec (.vpandXmmVex2 (vx2 (.reg 3#3))) s = .fault (.ud s.pc) ∧
    exec (.vpanddXmm (evx 0#3 false false (.reg 3#3))) s = .fault (.ud s.pc) ∧
    ∃ t, exec (.pandXmm (leg (.reg 3#3))) s = .next t := ⟨rfl, rfl, _, rfl⟩

/-- InvalidOpcodeOfVex: an instruction of each kind. -/
theorem witness_InvalidOpcodeOfVex :
    (∃ o, Instr.vpandYmmVex2 (vx2 atRax) = vex2Instr true o) ∧ ∃ o, Instr.vpandXmmVex3 (vx3 atRax) = vex3Instr false o :=
  ⟨⟨_, rfl⟩, ⟨_, rfl⟩⟩

/-- DeviceNotAvailable: with TS = 1 and with TS = 0. -/
theorem witness_DeviceNotAvailable :
    exec (.pandMm (leg (.reg 1#3))) { base with cr0 := 0x29#64 } ≠ .fault (.ud base.pc) ∧
    exec (.pandMm (leg (.reg 1#3))) { base with cr0 := 0x29#64 } = .fault (.nm base.pc) := by
  have h : exec (.pandMm (leg (.reg 1#3))) { base with cr0 := 0x29#64 } = .fault (.nm base.pc) := rfl
  exact ⟨by rw [h]; simp, h⟩

/-- PendingX87Exception: CR0.NE = 0; NE = 1 with a register operand; NE = 1 with a faulting operand. -/
theorem witness_PendingX87 :
    (udCondition { base with fsw := 0x80#16, cr0 := 1#64 } (.pandMm (leg (.reg 1#3))) = false ∧
      ({ base with fsw := 0x80#16, cr0 := 1#64 } : State).ts = false ∧
      ({ base with fsw := 0x80#16, cr0 := 1#64 } : State).fswEs = true ∧ (1#64).getLsbD 5 = false) ∧
    (udCondition { base with fsw := 0x80#16 } (.pandMm (leg (.reg 1#3))) = false ∧ base.cr0.getLsbD 5 = true) ∧
    (operandFault { State.setGpr base 0#4 0x0000800000000000#64 with fsw := 0x80#16 } .ac8
      (mmAccess { State.setGpr base 0#4 0x0000800000000000#64 with fsw := 0x80#16 } (leg atRax) (.base 0#3 .none))).isSome =
        true ∧
    ({ State.setGpr base 0#4 0x0000800000000000#64 with fsw := 0x80#16 } : State).fswEs = true := by
  refine ⟨by decide +kernel, by decide +kernel, by decide +kernel, by decide +kernel⟩

/-- ExceptionTable, FaultsArePrecise, SegmentFaults: a non-canonical operand, DS. -/
def beyond : State := State.setGpr base 0#4 0x0000800000000000#64

theorem witness_SegmentFaults :
    memOperand beyond (.pandMm (leg atRax)) = some (.ac8, mmAccess beyond (leg atRax) (.base 0#3 .none)) ∧
    udCondition beyond (.pandMm (leg atRax)) = false ∧ beyond.ts = false ∧ x87Stops beyond (.pandMm (leg atRax)) = false ∧
    ¬ AllAllowed beyond (mmAccess beyond (leg atRax) (.base 0#3 .none)) ∧
    (mmAccess beyond (leg atRax) (.base 0#3 .none)).overridden = false ∧
    exec (.pandMm (leg atRax)) beyond = .fault (.gp 0x1000#64) := by
  refine ⟨rfl, by decide +kernel, by decide +kernel, by decide +kernel, fun h => ?_, rfl, rfl⟩
  exact absurd (h 0 (by decide)) (by decide +kernel)

/-- FaultsArePrecise: a step that faults. -/
theorem witness_FaultsArePrecise :
    step (State.store base 0x1000 [0xF0#8, 0x0F#8, 0xDB#8, 0x00#8]) = .fault (.ud 0x1000#64) := by
  unfold step
  have h : decode .mode64 (fetchBytes (State.store base 0x1000 [0xF0#8, 0x0F#8, 0xDB#8, 0x00#8])) =
      .ud (List.replicate 11 0#8) := by decide +kernel
  rw [show (State.store base 0x1000 [0xF0#8, 0x0F#8, 0xDB#8, 0x00#8]).cfg.mode = .mode64 from rfl, h]
  rfl

/-- The last byte of the operand alone is not canonical, SS, in form 2. -/
theorem witness_SegmentFaults_ss :
    memOperand (State.setGpr base 5#4 0x00007FFFFFFFFFF1#64) (.pandXmm (leg atRbp)) =
      some (.gp16, xmmAccess (State.setGpr base 5#4 0x00007FFFFFFFFFF1#64) (leg atRbp) (.base 5#3 (.d8 0#8))) ∧
    (xmmAccess (State.setGpr base 5#4 0x00007FFFFFFFFFF1#64) (leg atRbp) (.base 5#3 (.d8 0#8))).seg = .ss ∧
    ¬ AllAllowed (State.setGpr base 5#4 0x00007FFFFFFFFFF1#64)
      (xmmAccess (State.setGpr base 5#4 0x00007FFFFFFFFFF1#64) (leg atRbp) (.base 5#3 (.d8 0#8))) := by
  refine ⟨rfl, rfl, fun h => ?_⟩
  exact absurd (h 15 (by decide)) (by decide +kernel)

/-- MisalignedForm2: address 2008H. -/
theorem witness_MisalignedForm2 :
    udCondition (State.setGpr base 0#4 0x2008#64) (.pandXmm (leg atRax)) = false ∧
    (State.setGpr base 0#4 0x2008#64).ts = false ∧
    Readable (State.setGpr base 0#4 0x2008#64) (xmmAccess (State.setGpr base 0#4 0x2008#64) (leg atRax) (.base 0#3 .none)) ∧
    (linear (State.setGpr base 0#4 0x2008#64)
      (xmmAccess (State.setGpr base 0#4 0x2008#64) (leg atRax) (.base 0#3 .none)).seg
      (xmmAccess (State.setGpr base 0#4 0x2008#64) (leg atRax) (.base 0#3 .none)).ea 0).toNat % 16 ≠ 0 := by
  refine ⟨by decide +kernel, by decide +kernel, readable_of (by decide +kernel) rfl (by decide +kernel), by decide +kernel⟩

/-- AlignmentCheck, form 1: alignment checking on, address 2004H (form 2: witness_MisalignedForm2). -/
def checking : State :=
  { State.setGpr base 0#4 0x2004#64 with cr0 := 0x40021#64, eflags := 0x40002#32, cpl := 3#2 }

theorem witness_AlignmentCheck :
    udCondition checking (.pandMm (leg atRax)) = false ∧ checking.ts = false ∧ checking.fswEs = false ∧
    Readable checking (mmAccess checking (leg atRax) (.base 0#3 .none)) ∧ checking.cr0.getLsbD 18 = true ∧
    checking.eflags.getLsbD 18 = true ∧ checking.cpl = 3#2 ∧
    (linear checking (mmAccess checking (leg atRax) (.base 0#3 .none)).seg
      (mmAccess checking (leg atRax) (.base 0#3 .none)).ea 0).toNat % 8 ≠ 0 := by
  refine ⟨by decide +kernel, by decide +kernel, by decide +kernel, readable_of (by decide +kernel) rfl (by decide +kernel),
    by decide +kernel, by decide +kernel, by decide +kernel, by decide +kernel⟩

/-- PageFaults, TranslationRule: paging on, the page of the operand's second half absent (M26). -/
def paged : State :=
  { rax2000 with cr0 := 0x80000021#64, cpl := 3#2, gpr := rax2000.gpr.set 0 0x1FF8#64,
                 cfg := { base.cfg with xlat := [⟨0x1000#64, 0x1FFF#64, .mapped 0x5000#64, .mapped 0x5000#64⟩] } }

theorem witness_PageFaults :
    memOperand paged (.pandXmm (leg (.mem (.base 0#3 (.d8 8#8))))) =
      some (.gp16, xmmAccess paged (leg (.mem (.base 0#3 (.d8 8#8)))) (.base 0#3 (.d8 8#8))) ∧
    udCondition paged (.pandXmm (leg (.mem (.base 0#3 (.d8 8#8))))) = false ∧ paged.ts = false ∧
    (xmmAccess paged (leg (.mem (.base 0#3 (.d8 8#8)))) (.base 0#3 (.d8 8#8))).bytes.all
      (byteAllowed paged .ds 0x2000#64) = true ∧
    (linear paged .ds 0x2000#64 0).toNat % 16 = 0 ∧
    translateAddr paged 0x1FFF#64 = .ok 0x5FFF#64 ∧ translateAddr paged 0x2000#64 = .error 4#32 := by
  refine ⟨rfl, by decide +kernel, by decide +kernel, by decide +kernel, by decide +kernel, rfl, rfl⟩

/-- EvexNothingEnabledNeverFaults, second clause, and DeviceOperandRefused: k1 is 0 and a byte of the operand lies in a
device (R63, U10). -/
theorem witness_EvexNothingEnabled_device :
    exec (.vpandqXmm (evx 1#3 false false atRax))
      { rax2000 with cfg := { base.cfg with devices := [⟨0x200F#64, 0x200F#64⟩] } } = .refused .deviceMemory := rfl

/-- DeviceOperandRefused: the last byte of the operand in a device. -/
theorem witness_DeviceOperand :
    exec (.pandMm (leg atRax)) { rax2000 with cfg := { base.cfg with devices := [⟨0x2007#64, 0x2007#64⟩] } } =
      .refused .deviceMemory := rfl

/-- PcStaysInRange, second clause: pc at the end of the canonical range, and of 32 bits. -/
theorem witness_PcStaysInRange :
    (let s : State := { base with pc := 0x00007FFFFFFFFFFD#64 }
     udCondition s (.pandMm (leg (.reg 1#3))) = false ∧ s.ts = false ∧ x87Stops s (.pandMm (leg (.reg 1#3))) = false ∧
       memOperand s (.pandMm (leg (.reg 1#3))) = none ∧ pcAdvances s (Instr.pandMm (leg (.reg 1#3))).len = false) ∧
    (let s : State := { base32 with pc := 0xFFFFFFFD#64 }
     pcAdvances s (Instr.pandMm (leg (.reg 1#3))).len = false) ∧
    (let s : State := { base32 with pc := 0xFFFFFFFC#64 }
     pcAdvances s (Instr.pandMm (leg (.reg 1#3))).len = true) := by decide +kernel

/-- PrivilegeLevelDoesNotMatter: paging and alignment checking off, CPL 3. -/
theorem witness_PrivilegeLevel :
    (∀ lin, translateAddr { base with cpl := 3#2 } lin = translateAddr base lin) ∧
    ({ base with cpl := 3#2 } : State).alignCheck = base.alignCheck ∧ ∃ t, exec (.pandMm (leg (.reg 1#3))) base = .next t := by
  refine ⟨fun lin => rfl, by decide +kernel, exists_next (by decide +kernel)⟩

/-- RipRelativeAddress: Mode64 without and with 67, Mode32, and Mode16 with 67; a VEX and an EVEX form among them. -/
theorem witness_RipRelative :
    (memOperand base (.vpandYmmVex3 (vx3 (.mem (.disp 0xFFFFFFFC#32))))).isSome = true ∧
    rmField (.vpandYmmVex3 (vx3 (.mem (.disp 0xFFFFFFFC#32)))) = .mem (.disp 0xFFFFFFFC#32) ∧
    base.cfg.mode = .mode64 ∧ (pfxField (.vpandYmmVex3 (vx3 (.mem (.disp 0xFFFFFFFC#32))))).a67 = false ∧
    (pfxField (.vpanddZmm { evReg with pfx := ⟨none, true⟩, rm := .mem (.disp 0#32) })).a67 = true ∧
    base32.cfg.mode ≠ .mode64 ∧ addrWidth base32 (.pandXmm (leg (.mem (.disp 0#32)))) = 32 ∧
    addrWidth State.reset (.pandMm ⟨⟨none, true⟩, none, 0#3, .mem (.disp 0#32)⟩) = 32 := by decide +kernel

/-- SibAddress, CompressedDisplacement: 64- and 32-bit addressing, with a base, without one, plain. -/
theorem witness_SibAddress :
    ((memOperand base (.pandXmm (leg (.mem (.sib 2#2 4#3 5#3 (.d8 1#8)))))).isSome = true ∧
      addrWidth base (.pandXmm (leg (.mem (.sib 2#2 4#3 5#3 (.d8 1#8))))) = 64) ∧
    ((memOperand base32 (.vpanddXmm { evReg with rm := .mem (.sibNoBase 1#2 0#3 8#32) })).isSome = true ∧
      addrWidth base32 (.vpanddXmm { evReg with rm := .mem (.sibNoBase 1#2 0#3 8#32) }) = 32) ∧
    ((memOperand base (.pandMm ⟨⟨some .fs, true⟩, none, 1#3, atRax⟩)).isSome = true ∧
      addrWidth base (.pandMm ⟨⟨some .fs, true⟩, none, 1#3, atRax⟩) = 32) := by decide +kernel

/-- SixteenBitTable: a row with each displacement, and disp16 alone; Mode32 with 67 and Mode16. -/
theorem witness_SixteenBitTable :
    ([Mem.base16 6#3 (.d16 0xFFFF#16), .base16 0#3 .none, .base16 3#3 (.d8 0x80#8), .disp16 7#16].all fun m =>
      (memOperand base32 (.vpandXmmVex2 { vx2 (.mem m) with pfx := ⟨none, true⟩ })).isSome &&
      addrWidth base32 (.vpandXmmVex2 { vx2 (.mem m) with pfx := ⟨none, true⟩ }) == 16 &&
      addrWidth State.reset (.pandMm (leg (.mem m))) == 16) = true := by decide +kernel

/-- LinearAddressRule: the modes, a segment check that the parameter turns away and one it leaves to the limit. -/
theorem witness_LinearAddress :
    SegName.ds ≠ .fs ∧ SegName.ds ≠ .gs ∧ base.cfg.mode = .mode64 ∧ base32.cfg.mode ≠ .mode64 ∧
    State.reset.cr0.getLsbD 0 = false ∧ base32.ds.expandDown = false ∧
    byteAllowed base32 .ds 0x2000#64 0 = true ∧
    byteAllowed { base32 with cfg := { base32.cfg with segCheck := [⟨.ss, 0, 0x2000, false⟩, ⟨.ds, 0x2000, 0x2000, false⟩] } }
      .ds 0x2000#64 0 = false ∧
    byteAllowed { base32 with cfg := { base32.cfg with segCheck := [⟨.ds, 0, 2 ^ 65, true⟩] }, ds := { base.ds with limit := 0#32 } }
      .ds 0x2000#64 0 = true := by decide +kernel

/-- SameRegisterOperands: the three clauses. -/
theorem witness_SameRegister :
    (leg (.reg 1#3)).rm = .reg (leg (.reg 1#3)).reg ∧ LegacyOp.rBit (leg (.reg 1#3)) = LegacyOp.bBit (leg (.reg 1#3)) ∧
    (∃ t, exec (.pandMm (leg (.reg 1#3))) base = .next t) ∧ (∃ t, exec (.pandXmm (leg (.reg 1#3))) base = .next t) ∧
    vvvvNum false (⟨np, false, 1#4, 1#3, .reg 1#3⟩ : Vex2Op).vvvv = vecNum false false 1#3 ∧
    ∃ t, exec (.vpandXmmVex2 ⟨np, false, 1#4, 1#3, .reg 1#3⟩) base = .next t := by
  refine ⟨rfl, rfl, exists_next (by decide +kernel), exists_next (by decide +kernel), by decide, exists_next (by decide +kernel)⟩

/-- UnmaskedVpanddIsVpandq. -/
theorem witness_Unmasked : evReg.aaa = 0#3 ∧ evReg.bc = false := by decide

/-- Form2AgainstForm3. -/
theorem witness_Form2AgainstForm3 :
    (leg (.reg 3#3)).rm = .reg 3#3 ∧ (⟨np, false, 1#4, 1#3, .reg 3#3⟩ : Vex2Op).rm = .reg 3#3 ∧
    LegacyOp.bBit (leg (.reg 3#3)) = false ∧ xmmDest (leg (.reg 3#3)) = vecNum false false 1#3 ∧
    vvvvNum false 1#4 = vecNum false false 1#3 ∧ (∃ t, exec (.pandXmm (leg (.reg 3#3))) base = .next t) ∧
    ∃ t, exec (.vpandXmmVex2 ⟨np, false, 1#4, 1#3, .reg 3#3⟩) base = .next t := by
  refine ⟨rfl, rfl, rfl, by decide, by decide, exists_next (by decide +kernel), exists_next (by decide +kernel)⟩

/-- AfterResetOnlyForm1: both clauses. -/
theorem witness_AfterReset :
    (leg (.reg 1#3)).rm = .reg 1#3 ∧ Config.atReset.feat.mmx = true ∧ ∀ o, Instr.pandXmm (leg atRax) ≠ .pandMm o := by
  refine ⟨rfl, rfl, fun o => by simp⟩

end Sys2Proof.Tests
end

section
/-! What each form writes, as a function of the state before it, and when it completes. -/

namespace Sys2Proof.Machine

/-! ### The second source -/

/-- The alignment rule and access of a ModRM:r/m operand, when it is memory. -/
def rmOperand (al : AlignRule) (acc : Mem → Access) : Rm → Option (AlignRule × Access)
  | .reg _ => none
  | .mem m => some (al, acc m)

/-- The read of an operand that may be memory; `operandRead` reads this way what `memOperand` names. -/
def readOperand (s : State) : Option (AlignRule × Access) → Except Stop Vec
  | none => .ok 0#512
  | some (al, a) => memRead s al a

/-- The value of form 1's second source: MM[rm], or the 8 bytes of the operand (R130). -/
def mmOperand (s : State) (o : LegacyOp) : Word64 :=
  match o.rm with
  | .reg r => s.getMm r
  | .mem m => slice (assemble s (mmAccess s o m)) 0 64

/-- The value of form 2's second source (R140). -/
def xmmOperand (s : State) (o : LegacyOp) : Vec :=
  match o.rm with
  | .reg r => s.getZ (vecNum false (LegacyOp.bBit o) r)
  | .mem m => assemble s (xmmAccess s o m)

/-- The value of the second source of forms 3 and 4 (R150, R151). -/
def vexOperand (s : State) (p : Pfx) (x b : Bool) (len : Nat) (vl : VecLen) : Rm → Vec
  | .reg r => s.getZ (vecNum false b r)
  | .mem m => assemble s (vexAccess s p x b len vl m)

/-- The value of the second source of forms 5 to 10 (R166). -/
def evexOperand (s : State) (o : EvexOp) (es : ElemSize) (vl : VecLen) : Src2 :=
  match o.rm with
  | .reg r => .vector (s.getZ (vecNum o.x o.b r))
  | .mem m =>
    if o.bc then .broadcast (assemble s (evexAccess s o es vl m)) else .vector (assemble s (evexAccess s o es vl m))

/-! ### The state a form leaves but for pc -/

/-- What form 2 writes: the AND in bits 127:0, the other bits kept (R140). -/
def pandXmmValue (s : State) (o : LegacyOp) : Vec :=
  setSlice (s.getZ (xmmDest o)) 0 (slice (s.getZ (xmmDest o)) 0 128 &&& slice (xmmOperand s o) 0 128)

/-- What forms 3 and 4 write: the AND in the low VL bits, 0 above (R150, R151). -/
def vpandValue (s : State) (vl : VecLen) (v : BitVec 5) (src2 : Vec) : Vec :=
  zext (slice (s.getZ v) 0 vl.bits &&& slice src2 0 vl.bits)

/-- What forms 5 to 10 write: the masked AND in the low VL bits, 0 above (R166). -/
def evexValue (s : State) (es : ElemSize) (vl : VecLen) (o : EvexOp) : Vec :=
  zext (slice (maskedAnd es (enabled s o) o.z (s.getZ (evexSrc1 o)) (evexOperand s o es vl) (s.getZ (evexDest o))
    (vl.elems es)) 0 vl.bits)

/-- The state with an instruction's destination written, before pc advances. -/
def written (s : State) : Instr → State
  | .pandMm o       => s.writeMm o.reg (s.getMm o.reg &&& mmOperand s o)
  | .pandXmm o      => s.writeZ (xmmDest o) (pandXmmValue s o)
  | .vpandXmmVex2 o => s.writeZ (vecNum false o.r o.reg)
      (vpandValue s .v128 (vvvvNum false o.vvvv) (vexOperand s o.pfx false false o.len .v128 o.rm))
  | .vpandXmmVex3 o => s.writeZ (vecNum false o.r o.reg)
      (vpandValue s .v128 (vvvvNum false o.vvvv) (vexOperand s o.pfx o.x o.b o.len .v128 o.rm))
  | .vpandYmmVex2 o => s.writeZ (vecNum false o.r o.reg)
      (vpandValue s .v256 (vvvvNum false o.vvvv) (vexOperand s o.pfx false false o.len .v256 o.rm))
  | .vpandYmmVex3 o => s.writeZ (vecNum false o.r o.reg)
      (vpandValue s .v256 (vvvvNum false o.vvvv) (vexOperand s o.pfx o.x o.b o.len .v256 o.rm))
  | .vpanddXmm o    => s.writeZ (evexDest o) (evexValue s .e32 .v128 o)
  | .vpanddYmm o    => s.writeZ (evexDest o) (evexValue s .e32 .v256 o)
  | .vpanddZmm o    => s.writeZ (evexDest o) (evexValue s .e32 .v512 o)
  | .vpandqXmm o    => s.writeZ (evexDest o) (evexValue s .e64 .v128 o)
  | .vpandqYmm o    => s.writeZ (evexDest o) (evexValue s .e64 .v256 o)
  | .vpandqZmm o    => s.writeZ (evexDest o) (evexValue s .e64 .v512 o)

/-! ### Every form as checks, a read and one write -/

/-- A read that completes answers the operand's bytes, so what follows it may speak of those. -/
theorem memRead_bind {β : Type} (s : State) (al : AlignRule) (a : Access) (f : Vec → Except Stop β) :
    (memRead s al a >>= f) = (memRead s al a >>= fun _ => f (assemble s a)) := by
  cases h : memRead s al a with
  | error e => rfl
  | ok v =>
    obtain ⟨-, -, rfl⟩ := memRead_eq_ok.mp h
    rfl

theorem pandMm_eq (s : State) (o : LegacyOp) :
    exec (.pandMm o) s = finish (checkEnabled (udMmx s) s >>= fun _ => pendingCheck s (.pandMm o) >>= fun _ =>
      operandRead s (.pandMm o) >>= fun _ => retire (o.len false) (written s (.pandMm o))) := by
  have hp : pendingCheck s (.pandMm o) =
      x87Check s ((memOperand s (.pandMm o)).bind fun p => operandFault s p.1 p.2) := by
    unfold pendingCheck
    cases hes : s.fswEs <;> simp [x87Stops, hes, x87Check]
  simp only [exec, execPandMm, mmSource, hp, operandRead, memOperand, written, mmOperand]
  cases o.rm with
  | reg r => simp only [bind_assoc, bind_ok, Option.bind_none]
  | mem m =>
    simp only [bind_assoc, bind_ok, Option.bind_some]
    rw [memRead_bind]

theorem pandXmm_eq (s : State) (o : LegacyOp) :
    exec (.pandXmm o) s = finish (checkEnabled (udSse2 s) s >>= fun _ =>
      readOperand s (rmOperand .gp16 (xmmAccess s o) o.rm) >>= fun _ =>
      retire (o.len true) (s.writeZ (xmmDest o) (pandXmmValue s o))) := by
  simp only [exec, execPandXmm, xmmSource, pandXmmValue, xmmOperand]
  cases o.rm with
  | reg r => rfl
  | mem m => simp only [rmOperand, readOperand]; rw [memRead_bind]

theorem vpand_eq (s : State) (vl : VecLen) (d v : BitVec 5) (p : Pfx) (x b : Bool) (len : Nat) (rm : Rm) :
    vpand vl d v p x b len rm s = (checkEnabled (udVex s vl) s >>= fun _ =>
      readOperand s (rmOperand .none (vexAccess s p x b len vl) rm) >>= fun _ =>
      retire len (s.writeZ d (vpandValue s vl v (vexOperand s p x b len vl rm)))) := by
  unfold vpand
  cases rm with
  | reg r => rfl
  | mem m => simp only [vexSource, rmOperand, readOperand, vpandValue, vexOperand]; rw [memRead_bind]

theorem evexAnd_eq (s : State) (es : ElemSize) (vl : VecLen) (o : EvexOp) :
    evexAnd es vl o s = (checkEnabled (udEvex s vl || o.violation) s >>= fun _ =>
      readOperand s (rmOperand .none (evexAccess s o es vl) o.rm) >>= fun _ =>
      retire o.len (s.writeZ (evexDest o) (evexValue s es vl o))) := by
  simp only [evexAnd, evexSource, evexValue, evexOperand]
  cases o.rm with
  | reg r => rfl
  | mem m => simp only [rmOperand, readOperand, bind_assoc, bind_ok]; rw [memRead_bind]

/-- Every form checks that it is enabled, checks for a pending x87 exception, reads its operand, writes `written` and
retires, in this order. -/
theorem exec_eq (s : State) (i : Instr) :
    exec i s = finish (checkEnabled (udCondition s i) s >>= fun _ => pendingCheck s i >>= fun _ =>
      operandRead s i >>= fun _ => retire i.len (written s i)) := by
  cases i with
  | pandMm o => exact pandMm_eq s o
  | pandXmm o => exact pandXmm_eq s o
  | vpandXmmVex2 o => exact congrArg finish (vpand_eq ..)
  | vpandXmmVex3 o => exact congrArg finish (vpand_eq ..)
  | vpandYmmVex2 o => exact congrArg finish (vpand_eq ..)
  | vpandYmmVex3 o => exact congrArg finish (vpand_eq ..)
  | vpanddXmm o => exact congrArg finish (evexAnd_eq ..)
  | vpanddYmm o => exact congrArg finish (evexAnd_eq ..)
  | vpanddZmm o => exact congrArg finish (evexAnd_eq ..)
  | vpandqXmm o => exact congrArg finish (evexAnd_eq ..)
  | vpandqYmm o => exact congrArg finish (evexAnd_eq ..)
  | vpandqZmm o => exact congrArg finish (evexAnd_eq ..)

@[simp] theorem written_cfg (s : State) (i : Instr) : (written s i).cfg = s.cfg := by cases i <;> rfl
@[simp] theorem written_pc (s : State) (i : Instr) : (written s i).pc = s.pc := by cases i <;> rfl

@[simp] theorem pcAdvances_written (s : State) (i : Instr) (len : Nat) :
    pcAdvances (written s i) len = pcAdvances s len := by
  simp only [pcAdvances, written_cfg, written_pc]

/-- Nothing stands in the way of the instruction but, perhaps, pc: it is enabled, no x87 exception is pending for it,
and its memory operand can be read (60_exceptions.md R187). -/
structure Unhindered (s : State) (i : Instr) : Prop where
  enabled : udCondition s i = false
  present : s.ts = false
  noX87   : x87Stops s i = false
  operand : ∀ al a, memOperand s i = some (al, a) → Readable s a ∧ Aligned s a al

/-- An unhindered form retires. -/
theorem Unhindered.exec_eq {s : State} {i : Instr} (h : Unhindered s i) :
    exec i s = finish (retire i.len (written s i)) := by
  obtain ⟨v, hv⟩ := operandRead_eq_ok.mpr h.operand
  rw [Machine.exec_eq, checkEnabled_eq_ok.mpr ⟨h.enabled, h.present⟩, pendingCheck_eq_ok.mpr h.noX87, hv]
  rfl

/-- Exactly when a form completes, and with which state. -/
theorem exec_eq_next {s t : State} {i : Instr} :
    exec i s = .next t ↔ Unhindered s i ∧ pcAdvances s i.len = true ∧ t = (written s i).advance i.len := by
  constructor
  · intro h
    obtain ⟨hud, hts, hx, hop, -⟩ := exec_next h
    have hu : Unhindered s i := ⟨hud, hts, hx, hop⟩
    rw [hu.exec_eq, finish_eq_next, retire_eq_ok, pcAdvances_written] at h
    exact ⟨hu, h⟩
  · rintro ⟨hu, hpc, rfl⟩
    rw [hu.exec_eq, finish_eq_next, retire_eq_ok, pcAdvances_written]
    exact ⟨hpc, rfl⟩

/-- An unhindered form whose next pc is out of range is refused. -/
theorem Unhindered.exec_eq_pcRange {s : State} {i : Instr} (h : Unhindered s i) (hpc : pcAdvances s i.len = false) :
    exec i s = .refused .pcRange := by
  rw [h.exec_eq, retire_eq_error.mpr ⟨by rwa [pcAdvances_written], rfl⟩]
  rfl

/-- A form whose #UD condition holds raises #UD (R187). -/
theorem exec_of_udCondition {s : State} {i : Instr} (h : udCondition s i = true) : exec i s = .fault (.ud s.pc) := by
  rw [exec_eq, checkEnabled_eq_error.mpr (Or.inl ⟨h, rfl⟩)]
  rfl

/-- What form 1 completes to. -/
theorem exec_pandMm_next {s t : State} {o : LegacyOp} (h : exec (.pandMm o) s = .next t) :
    t = (s.writeMm o.reg (s.getMm o.reg &&& mmOperand s o)).advance (o.len false) :=
  (exec_eq_next.mp h).2.2

/-- What forms 2 to 10 complete to. -/
theorem exec_vec_next {s t : State} {i : Instr} {d : BitVec 5} (hd : vecDest i = some d) (h : exec i s = .next t) :
    ∃ v, t = (s.writeZ d v).advance i.len := by
  rcases exec_writes h with ⟨o, v, rfl, -⟩ | ⟨d', v, hd', ht⟩
  · cases hd
  · rw [hd, Option.some.injEq] at hd'
    exact ⟨v, hd' ▸ ht⟩

end Sys2Proof.Machine
end

section
/-! The flags and the privilege level decide exceptions only: a form commutes with changing them. -/

namespace Sys2Proof.Machine

/-- The state with another EFLAGS, MXCSR and CPL. -/
def State.withPriv (s : State) (e x : BitVec 32) (c : BitVec 2) : State := { s with eflags := e, mxcsr := x, cpl := c }

/-- An outcome with its next state, if any, changed by `g`. -/
def mapNext (g : State → State) : Host.Outcome State Fault Refusal → Host.Outcome State Fault Refusal
  | .next s => .next (g s)
  | .fault f => .fault f
  | .refused r => .refused r

theorem mapNext_finish (g : State → State) (r : Except Stop State) : mapNext g (finish r) = finish (r.map g) := by
  rcases r with (_ | _) | _ <;> rfl

theorem exceptMap_bind {α : Type} (g : State → State) (x : Except Stop α) (f : α → Except Stop State) :
    (x >>= f).map g = (x >>= fun a => (f a).map g) := by
  cases x <;> rfl

section
variable {s : State} {e x : BitVec 32} {c : BitVec 2}

/-! ### What does not look at them -/

theorem memOperand_withPriv (i : Instr) : memOperand (s.withPriv e x c) i = memOperand s i := by
  cases i <;> rfl

theorem retire_withPriv (u : State) (len : Nat) :
    retire len (u.withPriv e x c) = (retire len u).map (·.withPriv e x c) := by
  have h : pcAdvances (u.withPriv e x c) len = pcAdvances u len := rfl
  unfold retire
  rw [h]
  cases pcAdvances u len <;> rfl

/-! ### What looks at CPL through the translation alone -/

variable (hx : ∀ lin, translateAddr (s.withPriv e x c) lin = translateAddr s lin)
include hx

theorem assemble_withPriv (a : Access) : assemble (s.withPriv e x c) a = assemble s a := by
  have hr : readByte (s.withPriv e x c) a = readByte s a := by
    funext k
    simp only [readByte, physical, hx]
    rfl
  simp only [assemble, hr]

theorem mmOperand_withPriv (o : LegacyOp) : mmOperand (s.withPriv e x c) o = mmOperand s o := by
  simp only [mmOperand, assemble_withPriv hx]
  rfl

theorem xmmOperand_withPriv (o : LegacyOp) : xmmOperand (s.withPriv e x c) o = xmmOperand s o := by
  simp only [xmmOperand, assemble_withPriv hx]
  rfl

theorem vexOperand_withPriv (p : Pfx) (xb b : Bool) (len : Nat) (vl : VecLen) (rm : Rm) :
    vexOperand (s.withPriv e x c) p xb b len vl rm = vexOperand s p xb b len vl rm := by
  cases rm with
  | reg r => rfl
  | mem m => exact assemble_withPriv hx _

theorem evexOperand_withPriv (o : EvexOp) (es : ElemSize) (vl : VecLen) :
    evexOperand (s.withPriv e x c) o es vl = evexOperand s o es vl := by
  simp only [evexOperand, assemble_withPriv hx]
  rfl

theorem evexValue_withPriv (es : ElemSize) (vl : VecLen) (o : EvexOp) :
    evexValue (s.withPriv e x c) es vl o = evexValue s es vl o := by
  simp only [evexValue, evexOperand_withPriv hx]
  rfl

/-- What is written does not depend on them. -/
theorem written_withPriv (i : Instr) : written (s.withPriv e x c) i = (written s i).withPriv e x c := by
  cases i with
  | pandMm o => simp only [written, mmOperand_withPriv hx]; rfl
  | pandXmm o => simp only [written, pandXmmValue, xmmOperand_withPriv hx]; rfl
  | vpandXmmVex2 o | vpandXmmVex3 o | vpandYmmVex2 o | vpandYmmVex3 o =>
    simp only [written, vexOperand_withPriv hx]; rfl
  | vpanddXmm o | vpanddYmm o | vpanddZmm o | vpandqXmm o | vpandqYmm o | vpandqZmm o =>
    simp only [written, evexValue_withPriv hx]; rfl

/-! ### What looks at EFLAGS.VM and at the condition of #AC besides (20_memory.md R55, R56) -/

variable (hvm : (s.withPriv e x c).realOrVm = s.realOrVm)
  (hac : (s.withPriv e x c).alignCheck = s.alignCheck)
include hvm

omit hx in
theorem udCondition_withPriv (i : Instr) : udCondition (s.withPriv e x c) i = udCondition s i := by
  have hb : (s.withPriv e x c).vexBarred = s.vexBarred := by simp only [State.vexBarred, hvm]; rfl
  cases i <;> simp only [udCondition, udVex, udEvex, hb] <;> rfl

omit hx in
theorem byteAllowed_withPriv : byteAllowed (s.withPriv e x c) = byteAllowed s := by
  funext seg ea k
  simp only [byteAllowed, segCheck, hvm]
  rfl

theorem inDevice_withPriv (a : Access) : inDevice (s.withPriv e x c) a = inDevice s a := by
  have hb : byteInDevice (s.withPriv e x c) a = byteInDevice s a := by
    funext k
    simp only [byteInDevice, byteAllowed_withPriv hvm, hx]
    rfl
  simp only [inDevice, hb]

include hac

theorem operandFault_withPriv (al : AlignRule) (a : Access) :
    operandFault (s.withPriv e x c) al a = operandFault s al a := by
  have hseg : segFault (s.withPriv e x c) a = segFault s a := by
    simp only [segFault, byteAllowed_withPriv hvm]
    rfl
  have hpage : pageFault (s.withPriv e x c) a = pageFault s a := by
    simp only [pageFault, pageFaults, hx]
    rfl
  simp only [operandFault, hseg, hpage, hac]
  rfl

theorem memRead_withPriv (al : AlignRule) (a : Access) : memRead (s.withPriv e x c) al a = memRead s al a := by
  simp only [memRead, readChecked, operandFault_withPriv hx hvm hac, inDevice_withPriv hx hvm, assemble_withPriv hx]
  rfl

theorem operandRead_withPriv (i : Instr) : operandRead (s.withPriv e x c) i = operandRead s i := by
  simp only [operandRead, memOperand_withPriv, memRead_withPriv hx hvm hac]

theorem pendingCheck_withPriv (i : Instr) : pendingCheck (s.withPriv e x c) i = pendingCheck s i := by
  have hst : x87Stops (s.withPriv e x c) i = x87Stops s i := by cases i <;> rfl
  simp only [pendingCheck, hst, memOperand_withPriv, operandFault_withPriv hx hvm hac]
  rfl

/-- Where the translation, virtual-8086 mode and the condition of #AC stay as they are, every form does with other
flags and another CPL what it did before. -/
theorem exec_withPriv (i : Instr) : exec i (s.withPriv e x c) = mapNext (·.withPriv e x c) (exec i s) := by
  have hts : ∀ ud, checkEnabled ud (s.withPriv e x c) = checkEnabled ud s := fun _ => rfl
  simp only [exec_eq, mapNext_finish, exceptMap_bind, hts, udCondition_withPriv hvm, pendingCheck_withPriv hx hvm hac,
    operandRead_withPriv hx hvm hac, written_withPriv hx, retire_withPriv]

end
end Sys2Proof.Machine
end

section
/-! pc stays in range, what is written fits the processor, and a form that completes keeps the invariant. -/

namespace Sys2Proof.Machine

/-! ### pc (10_state.md R27) -/

/-- Where pc may advance, its sum with the length does not wrap. -/
theorem toNat_pc_advance {s : State} {len : Nat} (h : pcAdvances s len = true) :
    (s.advance len).pc.toNat = s.pc.toNat + len := by
  have hlt : s.pc.toNat + len < 2 ^ 64 := by
    unfold pcAdvances at h
    split at h
    · simp only [Bool.and_eq_true, decide_eq_true_eq] at h
      exact h.1
    all_goals
      have := of_decide_eq_true h
      omega
  rw [State.advance_pc, BitVec.toNat_add, BitVec.toNat_ofNat, Nat.add_mod_mod, Nat.mod_eq_of_lt hlt]

theorem canonical_pc_advance {s : State} {len : Nat} (h : pcAdvances s len = true) (hm : s.cfg.mode = .mode64) :
    canonical s.cfg.vaBits (s.advance len).pc = true := by
  simp only [pcAdvances, hm, Bool.and_eq_true] at h
  exact h.2

theorem pc_advance_lt {s : State} {len : Nat} (h : pcAdvances s len = true) (hm : s.cfg.mode ≠ .mode64) :
    (s.advance len).pc.toNat < 2 ^ 32 := by
  rw [toNat_pc_advance h]
  unfold pcAdvances at h
  split at h
  · exact absurd ‹_› hm
  · exact of_decide_eq_true h
  · exact of_decide_eq_true h

theorem pcFits_advance {s : State} {len : Nat} (h : pcAdvances s len = true) : (s.advance len).PcFits := by
  unfold State.PcFits
  split
  · exact canonical_pc_advance h ‹_›
  · exact pc_advance_lt h (by simp_all)
  · exact pc_advance_lt h (by simp_all)

/-! ### What is written has nothing the processor lacks (R23, R24) -/

/-- A form 2 to 10, by its encoding. -/
theorem vecDest_cases {i : Instr} {d : BitVec 5} (h : vecDest i = some d) :
    (∃ o, i = .pandXmm o ∧ d = xmmDest o) ∨
    (∃ wide o, i = vex2Instr wide o ∧ d = vecNum false o.r o.reg) ∨
    (∃ wide o, i = vex3Instr wide o ∧ d = vecNum false o.r o.reg) ∨
    ∃ es vl o, i = evexInstr es vl o ∧ d = evexDest o := by
  cases i with
  | pandMm o => cases h
  | pandXmm o => cases h; exact Or.inl ⟨o, rfl, rfl⟩
  | vpandXmmVex2 o => cases h; exact Or.inr (Or.inl ⟨false, o, rfl, rfl⟩)
  | vpandYmmVex2 o => cases h; exact Or.inr (Or.inl ⟨true, o, rfl, rfl⟩)
  | vpandXmmVex3 o => cases h; exact Or.inr (Or.inr (Or.inl ⟨false, o, rfl, rfl⟩))
  | vpandYmmVex3 o => cases h; exact Or.inr (Or.inr (Or.inl ⟨true, o, rfl, rfl⟩))
  | vpanddXmm o => cases h; exact Or.inr (Or.inr (Or.inr ⟨.e32, .v128, o, rfl, rfl⟩))
  | vpanddYmm o => cases h; exact Or.inr (Or.inr (Or.inr ⟨.e32, .v256, o, rfl, rfl⟩))
  | vpanddZmm o => cases h; exact Or.inr (Or.inr (Or.inr ⟨.e32, .v512, o, rfl, rfl⟩))
  | vpandqXmm o => cases h; exact Or.inr (Or.inr (Or.inr ⟨.e64, .v128, o, rfl, rfl⟩))
  | vpandqYmm o => cases h; exact Or.inr (Or.inr (Or.inr ⟨.e64, .v256, o, rfl, rfl⟩))
  | vpandqZmm o => cases h; exact Or.inr (Or.inr (Or.inr ⟨.e64, .v512, o, rfl, rfl⟩))

theorem udCondition_vex2Instr (s : State) (wide : Bool) (o : Vex2Op) :
    udCondition s (vex2Instr wide o) = udVex s (vexLen wide) := by
  cases wide <;> rfl

theorem udCondition_vex3Instr (s : State) (wide : Bool) (o : Vex3Op) :
    udCondition s (vex3Instr wide o) = udVex s (vexLen wide) := by
  cases wide <;> rfl

theorem written_vex2Instr (s : State) (wide : Bool) (o : Vex2Op) :
    written s (vex2Instr wide o) = s.writeZ (vecNum false o.r o.reg) (vpandValue s (vexLen wide)
      (vvvvNum false o.vvvv) (vexOperand s o.pfx false false o.len (vexLen wide) o.rm)) := by
  cases wide <;> rfl

theorem written_vex3Instr (s : State) (wide : Bool) (o : Vex3Op) :
    written s (vex3Instr wide o) = s.writeZ (vecNum false o.r o.reg) (vpandValue s (vexLen wide)
      (vvvvNum false o.vvvv) (vexOperand s o.pfx o.x o.b o.len (vexLen wide) o.rm)) := by
  cases wide <;> rfl

theorem written_evexInstr (s : State) (es : ElemSize) (vl : VecLen) (o : EvexOp) :
    written s (evexInstr es vl o) = s.writeZ (evexDest o) (evexValue s es vl o) := by
  cases es <;> cases vl <;> rfl

theorem vexLen_le_maxvl {s : State} {vl : VecLen} (h : udVex s vl = false) : vl.bits ≤ s.cfg.maxvl.bits := by
  simp only [udVex, Bool.or_eq_false_iff, decide_eq_false_iff_not, not_lt] at h
  exact h.2

/-- The feature condition of an EVEX form asks for what gives registers 16 to 31, and for a length within MAXVL (R24,
60_exceptions.md R185). -/
theorem evexFeature_imp {c : Config} {vl : VecLen} (h : evexFeature c vl = true) :
    Config.hasHighVecs c = true ∧ vl.bits ≤ c.maxvl.bits := by
  simp only [evexFeature, Bool.and_eq_true, Bool.or_eq_true, decide_eq_true_eq] at h
  obtain ⟨hfeat, hlen⟩ := h
  refine ⟨?_, hlen⟩
  rcases hfeat with hnat | ⟨h10, -⟩
  · cases vl with
    | v128 | v256 =>
      obtain ⟨hvl, -⟩ := Bool.and_eq_true_iff.mp hnat
      simp [Config.hasHighVecs, hvl]
    | v512 =>
      have hmax : c.maxvl = .v512 := by
        cases hc : c.maxvl <;> simp [hc, VecLen.bits] at hlen ⊢
      simp [Config.hasHighVecs, hmax]
  · simp [Config.hasHighVecs, h10]

theorem evexFeature_of_udCondition {s : State} {es : ElemSize} {vl : VecLen} {o : EvexOp}
    (h : udCondition s (evexInstr es vl o) = false) : evexFeature s.cfg vl = true := by
  rw [udCondition_evexInstr] at h
  simp only [udEvex, Bool.or_eq_false_iff, Bool.not_eq_false'] at h
  obtain ⟨⟨-, hfeat⟩, -⟩ := h
  exact hfeat

/-- Zeros stand above the bits a value has. -/
theorem getLsbD_zext_of_le {n i : Nat} (x : BitVec n) (h : n ≤ i) : (zext x).getLsbD i = false := by
  simp [zext, BitVec.getLsbD_of_ge x i h]

/-- Form 2 keeps the bits above 127 (R140). -/
theorem getLsbD_pandXmmValue_of_le {s : State} {o : LegacyOp} {i : Nat} (h : 128 ≤ i) :
    (pandXmmValue s o).getLsbD i = (s.getZ (xmmDest o)).getLsbD i := by
  by_cases hi : i < 512
  · rw [pandXmmValue, getLsbD_setSlice _ _ _ _ hi, if_neg (by omega)]
  · rw [BitVec.getLsbD_of_ge _ _ (by omega), BitVec.getLsbD_of_ge _ _ (by omega)]

/-- A number with its high extension bit clear is one of registers 0 to 15. -/
theorem toNat_vecNum_lt (e : Bool) (n : BitVec 3) : (vecNum false e n).toNat < 16 := by
  revert e n
  decide

/-- The parts of the vector register file a processor lacks stand at zero (R23, R24). -/
structure VecsFit (s : State) : Prop where
  bits : ∀ d : BitVec 5, ∀ i, s.cfg.maxvl.bits ≤ i → (s.getZ d).getLsbD i = false
  high : Config.hasHighVecs s.cfg = false → ∀ d : BitVec 5, 16 ≤ d.toNat → s.getZ d = 0#512

/-- Writing a value no longer than MAXVL to a register that exists keeps the file. -/
theorem VecsFit.writeZ {s : State} (h : VecsFit s) {d : BitVec 5} {v : Vec}
    (hv : ∀ i, s.cfg.maxvl.bits ≤ i → v.getLsbD i = false)
    (hd : Config.hasHighVecs s.cfg = true ∨ d.toNat < 16) : VecsFit (s.writeZ d v) where
  bits e i hi := by
    rw [getZ_writeZ]
    split
    · exact hv i hi
    · exact h.bits e i hi
  high hno e he := by
    have hne : e ≠ d := by
      rintro rfl
      rcases hd with hd | hd
      · rw [State.writeZ_cfg, hd] at hno
        cases hno
      · omega
    rw [getZ_writeZ, if_neg hne]
    exact h.high hno e he

/-- Forms 3 and 4, when enabled, write nothing the processor lacks. -/
theorem VecsFit.writeVpand {s : State} (h : VecsFit s) {vl : VecLen} (hud : udVex s vl = false) (e : Bool)
    (n : BitVec 3) (v : BitVec 5) (src2 : Vec) : VecsFit (s.writeZ (vecNum false e n) (vpandValue s vl v src2)) :=
  h.writeZ (fun _ hk => getLsbD_zext_of_le _ ((vexLen_le_maxvl hud).trans hk)) (Or.inr (toNat_vecNum_lt e n))

theorem VecsFit.advance {s : State} (h : VecsFit s) (len : Nat) : VecsFit (s.advance len) := ⟨h.bits, h.high⟩

/-- An enabled form writes nothing the processor lacks. -/
theorem VecsFit.written {s : State} {i : Instr} (h : VecsFit s) (hud : udCondition s i = false) :
    VecsFit (written s i) := by
  rcases hd : vecDest i with _ | d
  · cases i with
    | pandMm o => exact ⟨h.bits, h.high⟩
    | _ => cases hd
  · rcases vecDest_cases hd with ⟨o, rfl, -⟩ | ⟨wide, o, rfl, -⟩ | ⟨wide, o, rfl, -⟩ | ⟨es, vl, o, rfl, -⟩
    · refine h.writeZ (fun k hk => ?_) (Or.inr (toNat_vecNum_lt _ _))
      have h128 : 128 ≤ s.cfg.maxvl.bits := by cases s.cfg.maxvl <;> decide
      rw [getLsbD_pandXmmValue_of_le (h128.trans hk)]
      exact h.bits _ k hk
    · rw [udCondition_vex2Instr] at hud
      rw [written_vex2Instr]
      exact h.writeVpand hud ..
    · rw [udCondition_vex3Instr] at hud
      rw [written_vex3Instr]
      exact h.writeVpand hud ..
    · obtain ⟨hhigh, hlen⟩ := evexFeature_imp (evexFeature_of_udCondition hud)
      rw [written_evexInstr]
      exact h.writeZ (fun k hk => getLsbD_zext_of_le _ (hlen.trans hk)) (Or.inl hhigh)

/-! ### What no form touches (R33) -/

/-- The fields that no form writes are as before: all but MM, ST_EXP, FSW, FTW, Z, pc and the model's count. -/
theorem exec_frame {s t : State} {i : Instr} (h : exec i s = .next t) :
    t = { s with
      mm := t.mm, stExp := t.stExp, fsw := t.fsw, ftw := t.ftw, z := t.z, pc := t.pc, draws := t.draws } := by
  rcases exec_writes h with ⟨o, v, -, rfl⟩ | ⟨d, v, -, rfl⟩ <;> rfl

/-- A form that completes keeps the invariant. -/
theorem exec_keeps_inv {s t : State} {i : Instr} (hs : s.Inv) (h : exec i s = .next t) : t.Inv := by
  have hf := exec_frame h
  obtain ⟨hu, hpc, ht⟩ := exec_eq_next.mp h
  have hv : VecsFit t := ht ▸ (VecsFit.written ⟨hs.vecBits, hs.highVecs⟩ hu.enabled).advance i.len
  have hp : t.PcFits := ht ▸ pcFits_advance (by rwa [pcAdvances_written])
  exact {
    mem := by rw [hf]; exact hs.mem
    vecBits := hv.bits
    highVecs := hv.high
    opmasks := by rw [hf]; exact hs.opmasks
    pc := hp
    xcr0 := by rw [hf]; exact hs.xcr0 }

end Sys2Proof.Machine
end

section
/-! Facts of the state family (10_state.md): the x87 effects of form 1, frames, flags, RESET and INIT. -/

namespace Sys2Proof.Machine

/-! ### Form 1 and the x87 registers (R22) -/

theorem extractLsb'_x87Reg_low (s : State) (i : BitVec 3) : (s.x87Reg i).extractLsb' 0 64 = s.getMm i :=
  BitVec.extractLsb'_append_eq_right

theorem extractLsb'_x87Reg_high (s : State) (i : BitVec 3) :
    (s.x87Reg i).extractLsb' 64 16 = s.stExp[i.toNat]'i.isLt :=
  BitVec.extractLsb'_append_eq_left

@[simp] theorem x87Reg_advance (s : State) (len : Nat) (i : BitVec 3) : (s.advance len).x87Reg i = s.x87Reg i := rfl

theorem extractLsb'_x87Reg_writeMm_same (s : State) (d : BitVec 3) (v : Word64) :
    ((s.writeMm d v).x87Reg d).extractLsb' 64 16 = 0xFFFF#16 := by
  rw [extractLsb'_x87Reg_high]
  simp

theorem x87Reg_writeMm_of_ne {s : State} {d j : BitVec 3} (v : Word64) (h : j ≠ d) :
    (s.writeMm d v).x87Reg j = s.x87Reg j := by
  have hn : d.toNat ≠ j.toNat := fun he => h (BitVec.eq_of_toNat_eq he.symm)
  simp [State.x87Reg, getMm_writeMm, h, hn]

/-- An exception leaves every field but CR2 (R181, R188). -/
theorem atFault_eq (s : State) (f : Fault) : s.atFault f = { s with cr2 := (s.atFault f).cr2 } := by
  cases f <;> rfl

/-! ### Frames (R23, R33) -/

/-- A form other than form 1 has a vector destination. -/
theorem exists_vecDest {i : Instr} (h : ∀ o, i ≠ .pandMm o) : ∃ d, vecDest i = some d := by
  cases i with
  | pandMm o => exact absurd rfl (h o)
  | _ => exact ⟨_, rfl⟩

theorem getZ_of_exec {s t : State} {i : Instr} (h : exec i s = .next t) {e : BitVec 5} (he : vecDest i ≠ some e) :
    t.getZ e = s.getZ e := by
  rcases exec_writes h with ⟨o, v, -, rfl⟩ | ⟨d, v, hd, rfl⟩
  · rfl
  · have hne : e ≠ d := fun hed => he (hed ▸ hd)
    rw [getZ_advance, getZ_writeZ, if_neg hne]

theorem getMm_of_exec {s t : State} {i : Instr} (h : exec i s = .next t) {j : BitVec 3}
    (hj : ∀ o, i = .pandMm o → o.reg ≠ j) : t.getMm j = s.getMm j := by
  rcases exec_writes h with ⟨o, v, hi, rfl⟩ | ⟨d, v, -, rfl⟩
  · rw [getMm_advance, getMm_writeMm, if_neg (hj o hi).symm]
  · rfl

/-! ### Flags (R28) -/

/-- Form 1 clears FSW.TOP and keeps the rest of FSW; the other forms keep all of it. -/
theorem fsw_of_exec {s t : State} {i : Instr} (h : exec i s = .next t) :
    ((∃ o, i = .pandMm o) ∧ t.fsw = clearTop s.fsw) ∨ ((∀ o, i ≠ .pandMm o) ∧ t.fsw = s.fsw) := by
  rcases exec_writes h with ⟨o, v, rfl, rfl⟩ | ⟨d, v, hd, rfl⟩
  · exact Or.inl ⟨⟨o, rfl⟩, rfl⟩
  · refine Or.inr ⟨?_, rfl⟩
    rintro o rfl
    cases hd

/-- With other flags and another MXCSR, VM and AC as they are, every form does what it did before. -/
theorem exec_withFlags (s : State) (i : Instr) {e : BitVec 32} (x : BitVec 32)
    (h17 : e.getLsbD 17 = s.eflags.getLsbD 17) (h18 : e.getLsbD 18 = s.eflags.getLsbD 18) :
    exec i (s.withPriv e x s.cpl) = mapNext (·.withPriv e x s.cpl) (exec i s) := by
  have hvm : (s.withPriv e x s.cpl).vm = s.vm := h17
  have hac : (s.withPriv e x s.cpl).acFlag = s.acFlag := h18
  refine exec_withPriv (fun _ => rfl) ?_ ?_ i
  · simp only [State.realOrVm, hvm]
    rfl
  · simp only [State.alignCheck, hac]
    rfl

/-- With any EFLAGS a form that completes both times computes the same. -/
theorem exec_next_eflags {s t u : State} {i : Instr} {e : BitVec 32} (ht : exec i s = .next t)
    (hu : exec i { s with eflags := e } = .next u) : u = { t with eflags := e } := by
  have hf := exec_frame ht
  obtain ⟨-, -, hte⟩ := exec_eq_next.mp ht
  obtain ⟨-, -, hue⟩ := exec_eq_next.mp hu
  have hw : written { s with eflags := e } i = (written s i).withPriv e s.mxcsr s.cpl :=
    written_withPriv (fun _ => rfl) i
  have hadv : u = t.withPriv e s.mxcsr s.cpl := by rw [hue, hw, hte]; rfl
  rw [hadv, hf]
  rfl

/-! ### RESET and INIT (R35) -/

theorem getZ_resetOf (c : Config) (d : BitVec 5) : (State.resetOf c).getZ d = 0#512 := by
  simp [State.getZ, State.resetOf]

theorem getMm_resetOf (c : Config) (j : BitVec 3) : (State.resetOf c).getMm j = 0#64 := by
  simp [State.getMm, State.resetOf]

theorem getK_resetOf (c : Config) (j : BitVec 3) : (State.resetOf c).getK j = 0#64 := by
  simp [State.getK, State.resetOf]

/-- The processor comes up in real-address mode. -/
theorem realOrVm_resetOf (c : Config) : (State.resetOf c).realOrVm = true := by
  simp [State.realOrVm, State.pe, State.resetOf]

/-- The general registers after RESET and INIT: the signature in EDX, 0 in the others. -/
theorem getElem_gprAtReset (signature : BitVec 32) (g : BitVec 4) :
    (gprAtReset signature)[g.toNat]'g.isLt = if g = 2#4 then signature.setWidth 64 else 0#64 := by
  have hg : 2 = g.toNat ↔ g = 2#4 := ⟨fun h => BitVec.eq_of_toNat_eq h.symm, fun h => h ▸ rfl⟩
  simp [gprAtReset, Vector.getElem_set, hg]

/-- The first instruction after RESET is fetched from FFFFFFF0H. -/
theorem fetchLinear_resetOf (c : Config) : fetchLinear (State.resetOf c) 0 = 0xFFFFFFF0#64 := by
  have hmode : (State.resetOf c).cfg.mode ≠ .mode64 := by simp [State.resetOf]
  have hbase : ((State.resetOf c).seg .cs).base = 0xFFFF0000#64 := rfl
  have hpc : (State.resetOf c).pc = 0xFFF0#64 := rfl
  rw [fetchLinear, linear_of_ne hmode, hbase, hpc]
  decide

/-- The data segments after RESET. -/
theorem seg_resetOf (c : Config) : ∀ g ∈ [SegName.ds, .es, .fs, .gs, .ss],
    (State.resetOf c).seg g = Seg.atReset 0#16 0#64 := by
  simp [State.seg, State.resetOf]

/-- INIT keeps CD and NW and gives the other bits of CR0 their value after RESET. -/
theorem getLsbD_cr0AfterInit (cr0 : Word64) : ∀ i < 64, (cr0AfterInit cr0).getLsbD i =
    if i = 29 ∨ i = 30 then cr0.getLsbD i else (0x60000010#64).getLsbD i := by
  intro i hi
  rw [cr0AfterInit, BitVec.getLsbD_or, BitVec.getLsbD_and]
  interval_cases i <;> simp

/-- Straight after RESET form 1 with a register operand has nothing in its way where MMX is present. -/
theorem unhindered_resetOf {c : Config} {o : LegacyOp} {r : BitVec 3} (hrm : o.rm = .reg r)
    (hmmx : c.feat.mmx = true) : Unhindered (State.resetOf c) (.pandMm o) where
  enabled := by simp [udCondition, udMmx, State.em, State.resetOf, hmmx]
  present := by simp [State.ts, State.resetOf]
  noX87 := by simp [x87Stops, State.fswEs, State.resetOf]
  operand al a h := by simp [memOperand, hrm] at h

theorem pcAdvances_resetOf (c : Config) {len : Nat} (h : len ≤ 15) : pcAdvances (State.resetOf c) len = true := by
  have hlt : 0xFFF0 + len < 2 ^ 32 := by omega
  exact decide_eq_true hlt

/-- Straight after RESET CR4.OSFXSR is 0 and the processor is in real-address mode, so that forms 2 to 10 are #UD
(70_reset_and_hazards.md R220). -/
theorem udCondition_resetOf (c : Config) {i : Instr} (hi : ∀ o, i ≠ .pandMm o) :
    udCondition (State.resetOf c) i = true := by
  have hosfxsr : (State.resetOf c).osfxsr = false := by simp [State.osfxsr, State.resetOf]
  have hbarred : (State.resetOf c).vexBarred = true := by simp [State.vexBarred, realOrVm_resetOf]
  cases i with
  | pandMm o => exact absurd rfl (hi o)
  | pandXmm o => simp [udCondition, udSse2, hosfxsr]
  | vpandXmmVex2 o | vpandXmmVex3 o | vpandYmmVex2 o | vpandYmmVex3 o => simp [udCondition, udVex, hbarred]
  | vpanddXmm o | vpanddYmm o | vpanddZmm o | vpandqXmm o | vpandqYmm o | vpandqZmm o =>
    simp [udCondition, udEvex, hbarred]

end Sys2Proof.Machine
end

section
/-! The statements of the family of 10_state.md. -/

namespace Sys2Proof.Machine

/-- Settles O55: a completing step is a completing form, which keeps the invariant and, of what selects the mode,
everything. -/
theorem stepKeepsInvariant : Obligations.StepKeepsInvariant := by
  intro s t hs h
  obtain ⟨i, -, -, he⟩ := step_next h
  have hf := exec_frame he
  refine ⟨exec_keeps_inv hs he, by rw [hf], fun hm => ?_⟩
  rw [hf]
  exact hm

/-- Settles O15, by what a write of an MMX register leaves in each x87 register. -/
theorem x87EffectsOfForm1 : Obligations.X87EffectsOfForm1 := by
  intro s o
  refine ⟨extractLsb'_x87Reg_low s, fun t h => ?_, fun f _ => atFault_eq s f⟩
  rw [exec_pandMm_next h]
  exact ⟨clearTop_top s.fsw, rfl, extractLsb'_x87Reg_writeMm_same .., fun j hj => x87Reg_writeMm_of_ne _ hj,
    getLsbD_clearTop s.fsw⟩

/-- Settles O27: of the state such a form completes to, only the written register, pc and the count differ. -/
theorem vectorFormsFrame : Obligations.VectorFormsFrame := by
  intro s t i d hd h
  obtain ⟨v, rfl⟩ := exec_vec_next hd h
  refine ⟨rfl, fun e he => ?_, fun _ => rfl⟩
  rw [getZ_advance, getZ_writeZ, if_neg he]

/-- Settles O29: the frame of every form, and that every form commutes with changing the flags. -/
theorem noFlagsAffected : Obligations.NoFlagsAffected := by
  intro s i
  refine ⟨fun t h => ?_, fun e x h17 h18 => ?_, fun e t u => exec_next_eflags⟩
  · have hf := exec_frame h
    refine ⟨by rw [hf], by rw [hf], ?_⟩
    rcases fsw_of_exec h with ⟨⟨o, rfl⟩, hfsw⟩ | ⟨hi, hfsw⟩
    · rw [hfsw]
      exact ⟨getLsbD_clearTop s.fsw, clearTop_top s.fsw⟩
    · rw [hfsw]
      refine ⟨fun _ _ _ => rfl, ?_⟩
      cases i with
      | pandMm o => exact absurd rfl (hi o)
      | _ => rfl
  · have he : exec i { s with eflags := e, mxcsr := x } = mapNext (·.withPriv e x s.cpl) (exec i s) :=
      exec_withFlags s i x h17 h18
    refine ⟨fun t h => ?_, fun f h => by rw [he, h]; rfl, fun r h => by rw [he, h]; rfl⟩
    have hcpl : t.cpl = s.cpl := by rw [exec_frame h]
    calc exec i { s with eflags := e, mxcsr := x } = .next (t.withPriv e x s.cpl) := by rw [he, h]; rfl
      _ = .next (t.withPriv e x t.cpl) := by rw [hcpl]

/-- Settles O30, by the frame of every form and of the state at a fault. -/
theorem nothingElseWritten : Obligations.NothingElseWritten := by
  intro s i
  refine ⟨fun t h => ?_, fun f _ => by rw [atFault_eq]⟩
  have hregs : (∀ e : BitVec 5, vecDest i ≠ some e → t.getZ e = s.getZ e) ∧
      (∀ j : BitVec 3, (∀ o, i = .pandMm o → o.reg ≠ j) → t.getMm j = s.getMm j) ∧
      ((∀ o, i ≠ .pandMm o) → t.stExp = s.stExp ∧ t.fsw = s.fsw ∧ t.ftw = s.ftw) := by
    refine ⟨fun e he => getZ_of_exec h he, fun j hj => getMm_of_exec h hj, fun hi => ?_⟩
    obtain ⟨d, hd⟩ := exists_vecDest hi
    obtain ⟨v, rfl⟩ := exec_vec_next hd h
    exact ⟨rfl, rfl, rfl⟩
  rw [exec_frame h]
  simpa [State.getZ, State.getMm] using hregs

/-- Settles O45, by `exec_eq_next` where the form completes and by the refusal of `retire` where only pc is in the
way. -/
theorem pcStaysInRange : Obligations.PcStaysInRange := by
  intro s i
  refine ⟨fun t h => ?_, fun hud hts hx hop hpc => Unhindered.exec_eq_pcRange ⟨hud, hts, hx, hop⟩ hpc⟩
  obtain ⟨-, hpc, rfl⟩ := exec_eq_next.mp h
  have hpc' : pcAdvances (written s i) i.len = true := by rwa [pcAdvances_written]
  rw [← written_cfg s i, ← written_pc s i]
  exact ⟨toNat_pc_advance hpc', canonical_pc_advance hpc', pc_advance_lt hpc'⟩

/-- Settles O60, by what RESET leaves in CR0, CR4 and pc. -/
theorem afterResetOnlyForm1 : Obligations.AfterResetOnlyForm1 := by
  intro c
  refine ⟨fun o r hrm hmmx => ?_, fun i hi => exec_of_udCondition (udCondition_resetOf c hi)⟩
  obtain ⟨-, -, hlen⟩ := Laws.Length.pandMm o
  exact ⟨_, exec_eq_next.mpr ⟨unhindered_resetOf hrm hmmx, pcAdvances_resetOf c hlen, rfl⟩⟩

/-- Settles O56: the vector and opmask registers are 0 after RESET, and the processor comes up in real-address mode. -/
theorem resetMeetsInvariant : Obligations.ResetMeetsInvariant := by
  intro c
  refine ⟨{
    mem := rfl
    vecBits := fun d i _ => by simp [getZ_resetOf]
    highVecs := fun _ d _ => getZ_resetOf c d
    opmasks := fun j i _ => by simp [getK_resetOf]
    pc := by simp [State.PcFits, State.resetOf]
    xcr0 := by simp [State.resetOf] }, by rw [State.ModeAgrees, realOrVm_resetOf]; rfl⟩

/-- Settles O57, by the feature condition of R185. -/
theorem evexRegistersExist : Obligations.EvexRegistersExist :=
  fun _ _ _ _ h => evexFeature_imp (evexFeature_of_udCondition h)

/-- Settles O58, register by register; the indexed ones by their lemmas above. -/
theorem resetValues : Obligations.ResetValues := by
  intro c
  refine ⟨getMm_resetOf c, fun j => ?_, rfl, rfl, rfl, getZ_resetOf c, getK_resetOf c, rfl, rfl, rfl, rfl, rfl, rfl, rfl,
    rfl, rfl, rfl, rfl, rfl, rfl, rfl, rfl, fun g hg => ?_, getElem_gprAtReset c.signature 2#4, fun g _ h2 => ?_,
    fetchLinear_resetOf c⟩
  · simp [State.resetOf]
  · rw [seg_resetOf c g hg]
    exact ⟨rfl, rfl, rfl⟩
  · exact (getElem_gprAtReset c.signature g).trans (if_neg h2)

/-- Settles O59: what INIT does not keep is as after RESET, CR0 and XCR0 apart. -/
theorem initValues : Obligations.InitValues := by
  intro s
  refine ⟨rfl, rfl, rfl, rfl, rfl, rfl, rfl, rfl, rfl, getLsbD_cr0AfterInit s.cr0, rfl, rfl, rfl, rfl, ?_, rfl, rfl, rfl,
    rfl, rfl, rfl, rfl, rfl, fun g hg => ?_, getElem_gprAtReset s.cfg.signature 2#4, fun g _ h2 => ?_⟩
  · simp [State.afterInit, xcr0AfterInit]
  · have hseg : s.afterInit.seg g = (State.resetOf s.cfg).seg g := by cases g <;> rfl
    rw [hseg, seg_resetOf s.cfg g hg]
    exact ⟨rfl, rfl, rfl⟩
  · exact (getElem_gprAtReset s.cfg.signature g).trans (if_neg h2)

end Sys2Proof.Machine
end

section
/-! Facts of the memory family (20_memory.md): linear addresses and their check, translation, the faults of an operand
in the order of 60_exceptions.md R187, what a form answers to them, and the bytes an EVEX operand touches. -/

namespace Sys2Proof.Machine

/-! ### Linear addresses (R56) -/

theorem toNat_linear_mode64 {s : State} {seg : SegName} (hm : s.cfg.mode = .mode64) (hfs : seg ≠ .fs)
    (hgs : seg ≠ .gs) (ea : Word64) (k : Nat) : (linear s seg ea k).toNat = (ea.toNat + k) % 2 ^ 64 := by
  have hl : linear s seg ea k = 0#64 + ea + BitVec.ofNat 64 k := by
    rw [linear.eq_def, hm]
    cases seg with
    | fs => exact absurd rfl hfs
    | gs => exact absurd rfl hgs
    | _ => rfl
  rw [hl, BitVec.zero_add, BitVec.toNat_add, BitVec.toNat_ofNat, Nat.add_mod_mod]

theorem toNat_linear_fs_gs {s : State} {seg : SegName} (hm : s.cfg.mode = .mode64) (hseg : seg = .fs ∨ seg = .gs)
    (ea : Word64) (k : Nat) :
    (linear s seg ea k).toNat = ((s.seg seg).base.toNat + ea.toNat + k) % 2 ^ 64 := by
  have hl : linear s seg ea k = (s.seg seg).base + ea + BitVec.ofNat 64 k := by
    rw [linear.eq_def, hm]
    rcases hseg with rfl | rfl <;> rfl
  simp [hl]

theorem toNat_linear_of_ne {s : State} (hm : s.cfg.mode ≠ .mode64) (seg : SegName) (ea : Word64) (k : Nat) :
    (linear s seg ea k).toNat = ((s.seg seg).base.toNat + ea.toNat + k) % 2 ^ 32 := by
  rw [linear_of_ne hm]
  simp only [BitVec.toNat_setWidth, BitVec.toNat_add, BitVec.toNat_ofNat]
  omega

/-! ### The check of a byte (R56) -/

/-- Two words agree from bit `n` up exactly when their shifts by `n` do. -/
theorem ushiftRight_eq_iff {a b : Word64} {n : Nat} :
    a >>> n = b >>> n ↔ ∀ j, n ≤ j → j < 64 → a.getLsbD j = b.getLsbD j := by
  constructor
  · intro h j hj _
    have hbit := congrArg (·.getLsbD (j - n)) h
    simpa [Nat.add_sub_cancel' hj] using hbit
  · intro h
    apply BitVec.eq_of_getLsbD_eq
    intro i _
    rw [BitVec.getLsbD_ushiftRight, BitVec.getLsbD_ushiftRight]
    by_cases hi : n + i < 64
    · exact h (n + i) (Nat.le_add_right n i) hi
    · rw [BitVec.getLsbD_of_ge _ _ (not_lt.mp hi), BitVec.getLsbD_of_ge _ _ (not_lt.mp hi)]

/-- An address is canonical when its high bits are all 0 or all 1. -/
theorem canonical_iff {va : VaBits} {a : Word64} :
    canonical va a = true ↔ ∀ j, va.bits - 1 ≤ j → j < 64 → a.getLsbD j = a.getLsbD 63 := by
  have hva : va.bits - 1 ≤ 63 := by cases va <;> decide
  have hzero : 0#64 = 0#64 >>> (va.bits - 1) := by simp
  rw [canonical, Bool.or_eq_true, beq_iff_eq, beq_iff_eq]
  conv_lhs => rw [hzero]
  rw [ushiftRight_eq_iff, ushiftRight_eq_iff]
  constructor
  · rintro (h | h) j hj hlt
    · rw [h j hj hlt, h 63 hva (by omega), BitVec.getLsbD_zero, BitVec.getLsbD_zero]
    · rw [h j hj hlt, h 63 hva (by omega), BitVec.getLsbD_allOnes, BitVec.getLsbD_allOnes, decide_eq_true hlt]
      rfl
  · intro h
    cases h63 : a.getLsbD 63
    · exact Or.inl fun j hj hlt => by rw [h j hj hlt, h63, BitVec.getLsbD_zero]
    · exact Or.inr fun j hj hlt => by rw [h j hj hlt, h63, BitVec.getLsbD_allOnes, decide_eq_true hlt]

theorem byteAllowed_mode64 {s : State} (hm : s.cfg.mode = .mode64) (seg : SegName) (ea : Word64) (k : Nat) :
    byteAllowed s seg ea k = canonical s.cfg.vaBits (linear s seg ea k) := by
  rw [byteAllowed, hm]

theorem byteAllowed_of_ne {s : State} (hm : s.cfg.mode ≠ .mode64) (seg : SegName) (ea : Word64) (k : Nat) :
    byteAllowed s seg ea k = segCheck s seg ea k := by
  unfold byteAllowed
  cases h : s.cfg.mode with
  | mode64 => exact absurd h hm
  | mode32 | mode16 => rfl

theorem realOrVm_iff {s : State} :
    s.realOrVm = true ↔ s.cr0.getLsbD 0 = false ∨ s.eflags.getLsbD 17 = true := by
  simp [State.realOrVm, State.pe, State.vm]

theorem segCheck_iff {s : State} {seg : SegName} {ea : Word64} {k : Nat} :
    segCheck s seg ea k = true ↔ segParam s seg (ea.toNat + k) = true ∧
      (s.realOrVm = true → ea.toNat + k ≤ 0xFFFF) := by
  cases h : s.realOrVm <;> simp [segCheck, h]

theorem SegRange.holds_iff {r : SegRange} {seg : SegName} {off : Nat} :
    SegRange.holds r seg off = true ↔ r.seg = seg ∧ r.first ≤ off ∧ off ≤ r.last := by
  simp [SegRange.holds, and_assoc]

/-- The first range of the parameter that holds the offset decides. -/
theorem segParam_of_range {s : State} {seg : SegName} {off : Nat} {pre post : List SegRange} {r : SegRange}
    (h : s.cfg.segCheck = pre ++ r :: post) (hr : SegRange.holds r seg off = true)
    (hpre : ∀ q ∈ pre, ¬ SegRange.holds q seg off = true) : segParam s seg off = r.passes := by
  have hfind : s.cfg.segCheck.find? (SegRange.holds · seg off) = some r :=
    List.find?_eq_some_iff_append.mpr ⟨hr, pre, post, h, by simpa using hpre⟩
  rw [segParam, hfind]

/-- Where the parameter says nothing, the hidden part of the segment register decides. -/
theorem segParam_of_no_range {s : State} {seg : SegName} {off : Nat}
    (h : ∀ q ∈ s.cfg.segCheck, ¬ SegRange.holds q seg off = true) : segParam s seg off = (s.seg seg).admits off := by
  have hfind : s.cfg.segCheck.find? (SegRange.holds · seg off) = none := List.find?_eq_none.mpr h
  rw [segParam, hfind]

theorem Seg.admits_iff {g : Seg} (hup : g.expandDown = false) {off : Nat} :
    g.admits off = true ↔ g.present = true ∧ g.readable = true ∧ g.null = false ∧ off ≤ g.limit.toNat := by
  simp [Seg.admits, Seg.holds, hup, and_assoc]

/-! ### Translation (R57) -/

theorem translateAddr_of_not_pg {s : State} (h : s.pg = false) (lin : Word64) : translateAddr s lin = .ok lin := by
  simp [translateAddr, h]

/-- A failing translation gives the error code of a data read at the privilege level. -/
theorem translateAddr_eq_error {s : State} {lin : Word64} {ec : BitVec 32} (h : translateAddr s lin = .error ec) :
    ∃ present other, ec = pfCode s.cpl present other := by
  unfold translateAddr at h
  split at h
  · split at h
    · cases h; exact ⟨_, _, rfl⟩
    · split at h
      · cases h
      · cases h; exact ⟨_, _, rfl⟩
  · cases h

/-- W/R and I/D are 0 in the error code. -/
theorem getLsbD_pfCode_clear (cpl : BitVec 2) (present : Bool) (other : BitVec 32) :
    (pfCode cpl present other).getLsbD 1 = false ∧ (pfCode cpl present other).getLsbD 4 = false := by
  unfold pfCode
  constructor <;> split_ifs <;> simp

/-- U/S is 1 in the error code exactly at CPL 3. -/
theorem getLsbD_pfCode_user (cpl : BitVec 2) (present : Bool) (other : BitVec 32) :
    (pfCode cpl present other).getLsbD 2 = true ↔ cpl = 3#2 := by
  unfold pfCode
  split_ifs with hp hc hc <;> simp [hc]

/-! ### The operand's fault (R187) -/

/-- An operand that is not allowed, mapped and aligned has a fault. -/
theorem exists_operandFault {s : State} {al : AlignRule} {a : Access}
    (h : ¬ (AllAllowed s a ∧ AllMapped s a ∧ Aligned s a al)) : ∃ x, operandFault s al a = some x :=
  Option.ne_none_iff_exists'.mp fun hn => h (operandFault_eq_none.mp hn)

/-- The segment check is the first of the checks. -/
theorem operandFault_of_not_allowed {s : State} {a : Access} (al : AlignRule) (h : ¬ AllAllowed s a) :
    ∃ x, operandFault s al a = some x ∧ segFault s a = some x := by
  obtain ⟨x, hx⟩ := exists_operandFault (al := al) fun hh => h hh.1
  rcases operandFault_cases hx with ⟨-, hs⟩ | ⟨hA, -⟩ | ⟨hA, -⟩ | ⟨hA, -⟩
  · exact ⟨x, hx, hs⟩
  all_goals exact absurd hA h

/-- An allowed operand that is misaligned for form 2 raises #GP or #PF, and #PF only when a byte fails to translate. -/
theorem operandFault_of_misaligned16 {s : State} {a : Access} (hA : AllAllowed s a) (h16 : ¬ Aligned s a .gp16) :
    operandFault s .gp16 a = some .gp ∨ (¬ AllMapped s a ∧ ∃ ec lin, operandFault s .gp16 a = some (.pf ec lin)) := by
  obtain ⟨x, hx⟩ := exists_operandFault (al := .gp16) fun hh => h16 hh.2.2
  rcases operandFault_cases hx with ⟨hn, -⟩ | ⟨-, -, -, rfl⟩ | ⟨-, ec, lin, hpf, rfl⟩ | ⟨-, -, hal, -⟩
  · exact absurd hA hn
  · exact Or.inl hx
  · exact Or.inr ⟨fun hM => List.ne_nil_of_mem hpf (pageFaults_eq_nil.mpr hM), ec, lin, hx⟩
  · cases hal

/-- An allowed operand some byte of which fails to translate, and which form 2's alignment does not stop, raises #PF of
such a byte. -/
theorem operandFault_of_not_mapped {s : State} {al : AlignRule} {a : Access} (hA : AllAllowed s a)
    (hM : ¬ AllMapped s a) (h16 : al = .gp16 → Aligned s a .gp16) :
    ∃ ec lin, (ec, lin) ∈ pageFaults s a ∧ operandFault s al a = some (.pf ec lin) := by
  obtain ⟨x, hx⟩ := exists_operandFault (al := al) fun hh => hM hh.2.1
  rcases operandFault_cases hx with ⟨hn, -⟩ | ⟨-, hal, hmis, -⟩ | ⟨-, ec, lin, hpf, rfl⟩ | ⟨-, hM', -⟩
  · exact absurd hA hn
  · rw [aligned_gp16.mp (h16 hal)] at hmis
    cases hmis
  · exact ⟨ec, lin, hpf, hx⟩
  · exact absurd hM' hM

/-- An allowed and mapped operand that the alignment check turns away raises #AC. -/
theorem operandFault_of_misaligned8 {s : State} {a : Access} (hA : AllAllowed s a) (hM : AllMapped s a)
    (h8 : ¬ Aligned s a .ac8) : operandFault s .ac8 a = some .ac := by
  obtain ⟨x, hx⟩ := exists_operandFault (al := .ac8) fun hh => h8 hh.2.2
  rcases operandFault_cases hx with ⟨hn, -⟩ | ⟨-, hal, -⟩ | ⟨-, ec, lin, hpf, -⟩ | ⟨-, -, -, -, -, rfl⟩
  · exact absurd hA hn
  · cases hal
  · exact absurd (pageFaults_eq_nil.mpr hM) (List.ne_nil_of_mem hpf)
  · exact hx

theorem alignCheck_iff {s : State} :
    s.alignCheck = true ↔ s.cr0.getLsbD 18 = true ∧ s.eflags.getLsbD 18 = true ∧ s.cpl = 3#2 := by
  simp [State.alignCheck, State.am, State.acFlag, and_assoc]

/-! ### What a form answers to its operand -/

/-- The form is enabled, no x87 exception is pending for it, and it goes on to read a memory operand. -/
structure ReachesOperand (s : State) (i : Instr) (al : AlignRule) (a : Access) : Prop where
  operand : memOperand s i = some (al, a)
  enabled : udCondition s i = false
  present : s.ts = false
  noX87   : x87Stops s i = false

/-- A form that reaches its operand raises the operand's fault. -/
theorem ReachesOperand.exec_of_operandFault {s : State} {i : Instr} {al : AlignRule} {a : Access}
    (h : ReachesOperand s i al a) {x : Word64 → Fault} (hx : operandFault s al a = some x) :
    exec i s = .fault (x s.pc) := by
  obtain ⟨w, -, he⟩ := exec_operand h.operand h.enabled h.present h.noX87
  rw [he, memRead_eq_error.mpr (Or.inl ⟨x, hx, rfl⟩)]
  rfl

/-- A form that reaches an operand without a fault is refused where some byte of it lies in a device. -/
theorem ReachesOperand.exec_of_device {s : State} {i : Instr} {al : AlignRule} {a : Access}
    (h : ReachesOperand s i al a) (hx : operandFault s al a = none) (hdev : ¬ AllOrdinary s a) :
    exec i s = .refused .deviceMemory := by
  obtain ⟨w, -, he⟩ := exec_operand h.operand h.enabled h.present h.noX87
  rw [he, memRead_eq_error.mpr (Or.inr ⟨hx, hdev, rfl⟩)]
  rfl

/-- Only the operand's own fault is #AC. -/
theorem exec_eq_ac {s : State} {i : Instr} {pc : Word64} (h : exec i s = .fault (.ac pc)) :
    ∃ a, memOperand s i = some (.ac8, a) ∧ ¬ Aligned s a .ac8 := by
  obtain ⟨al, a, x, hm, hx, hf⟩ : ∃ al a x, memOperand s i = some (al, a) ∧ operandFault s al a = some x ∧
      Fault.ac pc = x s.pc := by
    rcases exec_fault h with ⟨-, hf⟩ | ⟨-, -, hf⟩ | ⟨-, -, -, -, hf⟩ | ⟨-, -, -, hop⟩
    · cases hf
    · cases hf
    · cases hf
    · exact hop
  rcases operandFault_cases hx with ⟨-, hs⟩ | ⟨-, -, -, rfl⟩ | ⟨-, ec, lin, -, rfl⟩ | ⟨-, -, rfl, hac, hmis, -⟩
  · rcases segFault_cases hs with rfl | rfl <;> cases hf
  · cases hf
  · cases hf
  · refine ⟨a, hm, fun h8 => ?_⟩
    rw [aligned_ac8.mp h8 hac] at hmis
    cases hmis

theorem memOperand_pandMm {s : State} {o : LegacyOp} {m : Mem} (h : o.rm = .mem m) :
    memOperand s (.pandMm o) = some (.ac8, mmAccess s o m) := by
  simp [memOperand, h]

theorem memOperand_pandXmm {s : State} {o : LegacyOp} {m : Mem} (h : o.rm = .mem m) :
    memOperand s (.pandXmm o) = some (.gp16, xmmAccess s o m) := by
  simp [memOperand, h]

theorem memOperand_evexInstr {s : State} {es : ElemSize} {vl : VecLen} {o : EvexOp} {m : Mem} (h : o.rm = .mem m) :
    memOperand s (evexInstr es vl o) = some (.none, evexAccess s o es vl m) := by
  cases es <;> cases vl <;> simp [evexInstr, memOperand, h]

theorem x87Stops_evexInstr (s : State) (es : ElemSize) (vl : VecLen) (o : EvexOp) :
    x87Stops s (evexInstr es vl o) = false := by
  cases es <;> cases vl <;> rfl

/-- The memory operand of every form is its ModRM:r/m. -/
theorem memOperand_eq_rmOperand (s : State) (i : Instr) :
    ∃ al acc, memOperand s i = rmOperand al acc (rmField i) := by
  cases i <;> exact ⟨_, _, rfl⟩

theorem memOperand_ne_none {s : State} {i : Instr} : memOperand s i ≠ none ↔ ∃ m, rmField i = .mem m := by
  obtain ⟨al, acc, h⟩ := memOperand_eq_rmOperand s i
  rw [h]
  cases rmField i <;> simp [rmOperand]

/-! ### The bytes an EVEX operand touches (R53, R64) -/

theorem enabled_iff {s : State} {o : EvexOp} {j : Nat} :
    enabled s o j = true ↔ o.aaa = 0#3 ∨ (s.getK o.aaa).getLsbD j = true := by
  simp [enabled]

theorem someEnabled_iff {s : State} {o : EvexOp} {es : ElemSize} {vl : VecLen} :
    someEnabled s o es vl = true ↔ ∃ j < vl.elems es, enabled s o j = true := by
  simp [someEnabled]

theorem mem_evexBytes_vector {s : State} {o : EvexOp} (hbc : o.bc = false) {es : ElemSize} {vl : VecLen} {k : Nat} :
    k ∈ evexBytes s o es vl ↔ k < vl.bytes ∧ enabled s o (k / es.bytes) = true := by
  simp [evexBytes, hbc]

theorem mem_evexBytes_broadcast {s : State} {o : EvexOp} (hbc : o.bc = true) {es : ElemSize} {vl : VecLen} {k : Nat} :
    k ∈ evexBytes s o es vl ↔ k < es.bytes ∧ someEnabled s o es vl = true := by
  cases h : someEnabled s o es vl <;> simp [evexBytes, hbc, h]

/-- A byte of the vector is a byte of one of its elements. -/
theorem VecLen.byte_div_lt {vl : VecLen} {es : ElemSize} {k : Nat} (h : k < vl.bytes) :
    k / es.bytes < vl.elems es := by
  have hmul : es.bytes * vl.elems es = vl.bytes := by cases vl <;> cases es <;> rfl
  exact Nat.div_lt_of_lt_mul (hmul ▸ h)

/-- With no element enabled no byte is touched. -/
theorem evexBytes_eq_nil {s : State} {o : EvexOp} {es : ElemSize} {vl : VecLen}
    (h : ∀ j < vl.elems es, enabled s o j = false) : evexBytes s o es vl = [] := by
  refine List.eq_nil_iff_forall_not_mem.mpr fun k hk => ?_
  obtain ⟨j, hj, hen⟩ : ∃ j < vl.elems es, enabled s o j = true := by
    cases hbc : o.bc
    · obtain ⟨hlt, hen⟩ := (mem_evexBytes_vector hbc).mp hk
      exact ⟨_, VecLen.byte_div_lt hlt, hen⟩
    · exact someEnabled_iff.mp ((mem_evexBytes_broadcast hbc).mp hk).2
  rw [h j hj] at hen
  cases hen

/-- An access that touches no byte has no fault, wherever it lies. -/
theorem operandFault_of_no_bytes {s : State} {a : Access} (h : a.bytes = []) : operandFault s .none a = none :=
  operandFault_eq_none.mpr ⟨by simp [AllAllowed, h], by simp [AllMapped, h], trivial⟩

/-- With no element enabled an EVEX form keeps its destination's low VL bits or zeroes them. -/
theorem getLsbD_evexValue_of_disabled {s : State} {es : ElemSize} {vl : VecLen} {o : EvexOp}
    (h : ∀ j < vl.elems es, enabled s o j = false) (i : Nat) :
    (evexValue s es vl o).getLsbD i = (decide (i < vl.bits) && (!o.z && (s.getZ (evexDest o)).getLsbD i)) := by
  rw [evexValue, getLsbD_zext_slice _ _ _ (VecLen.bits_le vl)]
  by_cases hi : i < vl.bits
  · have hj : i / es.bits < vl.elems es :=
      Nat.div_lt_of_lt_mul (by rwa [Nat.mul_comm, VecLen.elems_mul])
    rw [getLsbD_maskedAnd _ _ _ _ _ _ _ _ hi, h _ hj]
    rfl
  · simp [hi]

end Sys2Proof.Machine
end

section
/-! The statements of the family of 20_memory.md. -/

namespace Sys2Proof.Machine

/-- Settles O23: nothing is touched, so that only a device stands in the way. -/
theorem evexNothingEnabledNeverFaults : Obligations.EvexNothingEnabledNeverFaults := by
  intro s es vl o m hrm haaa hmask hud hts hpc
  have hdis : ∀ j < vl.elems es, enabled s o j = false := fun j hj => by simp [enabled, haaa, hmask j hj]
  have hreach : ReachesOperand s (evexInstr es vl o) .none (evexAccess s o es vl m) :=
    ⟨memOperand_evexInstr hrm, hud, hts, x87Stops_evexInstr ..⟩
  have hnone : operandFault s .none (evexAccess s o es vl m) = none :=
    operandFault_of_no_bytes (evexBytes_eq_nil hdis)
  refine ⟨fun hord => ⟨evexValue s es vl o, ?_, fun i _ => getLsbD_evexValue_of_disabled hdis i⟩,
    hreach.exec_of_device hnone⟩
  have hunh : Unhindered s (evexInstr es vl o) := by
    refine ⟨hud, hts, hreach.noX87, fun al a hop => ?_⟩
    rw [hreach.operand] at hop
    cases hop
    obtain ⟨hA, hM, hal⟩ := operandFault_eq_none.mp hnone
    exact ⟨⟨hA, hM, hord⟩, hal⟩
  refine exec_eq_next.mpr ⟨hunh, by rwa [len_evexInstr], ?_⟩
  rw [written_evexInstr, len_evexInstr]
  rfl

/-- Settles O24, by what is a member of `evexBytes`. -/
theorem evexTouchesOnlyEnabledBytes : Obligations.EvexTouchesOnlyEnabledBytes := by
  intro s es vl o m k
  refine ⟨fun hbc => ?_, fun hbc => ?_, rfl⟩
  · rw [← enabled_iff]
    exact mem_evexBytes_vector hbc
  · simp only [← enabled_iff, ← someEnabled_iff]
    exact mem_evexBytes_broadcast hbc

/-- Settles O28: what a completed form has written is one register, whose low number bits are ModRM:reg. -/
theorem noFormWritesMemory : Obligations.NoFormWritesMemory := by
  intro s t
  refine ⟨fun i h => ?_, fun i => memOperand_ne_none, fun h => ?_⟩
  · refine ⟨by rw [exec_frame h], fun e he => ?_, fun j hj => ?_⟩
    · exact getZ_of_exec h fun hd => he (vecDest_regField hd)
    · refine getMm_of_exec h ?_
      rintro o rfl
      exact hj.symm
  · obtain ⟨hmem, -, -⟩ := step_keeps h
    exact ⟨hmem, fun a => by rw [hmem]⟩

/-- Settles O39: the segment check is the first of the operand's checks, and raises #SS or #GP. -/
theorem segmentFaults : Obligations.SegmentFaults := by
  intro s i al a hm hud hts hx hA
  obtain ⟨x, hop, hs⟩ := operandFault_of_not_allowed al hA
  have he := ReachesOperand.exec_of_operandFault ⟨hm, hud, hts, hx⟩ hop
  refine ⟨?_, fun hov => ?_⟩
  · rcases segFault_cases hs with rfl | rfl
    · exact Or.inl he
    · exact Or.inr he
  · have hseg := segFault_eq hA (by simpa [Access.ignoredOverride, and_assoc] using hov)
    rw [he, Option.some.inj (hs.symm.trans hseg)]
    split_ifs <;> rfl

/-- Settles O40: the fault of a misaligned operand of form 2. -/
theorem misalignedForm2 : Obligations.MisalignedForm2 := by
  intro s o m hrm hud hts hA h16
  have hreach : ReachesOperand s (.pandXmm o) .gp16 (xmmAccess s o m) := ⟨memOperand_pandXmm hrm, hud, hts, rfl⟩
  rcases operandFault_of_misaligned16 hA h16 with hgp | ⟨hM, ec, lin, hpf⟩
  · have he := hreach.exec_of_operandFault hgp
    exact ⟨fun _ => he, Or.inl he⟩
  · exact ⟨fun hM' => absurd hM' hM, Or.inr ⟨ec, lin, hreach.exec_of_operandFault hpf⟩⟩

/-- Settles O41: #AC is form 1's operand failing its alignment rule; form 2's clause is `misalignedForm2`'s. -/
theorem alignmentCheck : Obligations.AlignmentCheck := by
  intro s
  refine ⟨fun o m hrm hud hts hes hA hM => ?_, fun i pc hi h => ?_, fun o m hrm hud hts hA hM h16 =>
    (misalignedForm2 s o m hrm hud hts hA h16).1 hM⟩
  · have hop := memOperand_pandMm (s := s) hrm
    have hac : exec (.pandMm o) s = .fault (.ac s.pc) ↔ ¬ Aligned s (mmAccess s o m) .ac8 := by
      refine ⟨fun h => ?_, fun h8 => ReachesOperand.exec_of_operandFault ⟨hop, hud, hts, hes⟩
        (operandFault_of_misaligned8 hA hM h8)⟩
      obtain ⟨a, hm, h8⟩ := exec_eq_ac h
      rw [hop] at hm
      cases hm
      exact h8
    rw [hac]
    simp only [Aligned, Classical.not_imp, alignCheck_iff, and_assoc, ne_eq]
  · obtain ⟨a, hm, -⟩ := exec_eq_ac h
    obtain ⟨o, rfl⟩ := memOperand_ac8 hm
    exact hi o rfl

/-- Settles O42: the #PF of an operand reports a byte of it that fails to translate. -/
theorem pageFaultsReported : Obligations.PageFaults := by
  intro s i al a hm hud hts hx hA hM h16
  obtain ⟨ec, lin, hpf, hop⟩ := operandFault_of_not_mapped hA hM h16
  obtain ⟨k, hk, rfl, ht⟩ := mem_pageFaults.mp hpf
  exact ⟨k, hk, ec, ht, ReachesOperand.exec_of_operandFault ⟨hm, hud, hts, hx⟩ hop⟩

/-- Settles O44: the read of an operand without a fault looks for a device. -/
theorem deviceOperandRefused : Obligations.DeviceOperandRefused := by
  intro s i al a hm hud hts hx hA hM hal hdev
  exact ReachesOperand.exec_of_device ⟨hm, hud, hts, hx⟩ (operandFault_eq_none.mpr ⟨hA, hM, hal⟩) hdev

/-- Settles O51, by the sum and the check of each kind of mode and segment. -/
theorem linearAddressRule : Obligations.LinearAddressRule := by
  intro s seg ea k
  refine ⟨fun hm hfs hgs => toNat_linear_mode64 hm hfs hgs ea k, fun hm hseg => toNat_linear_fs_gs hm hseg ea k,
    fun hm => toNat_linear_of_ne hm seg ea k, fun hm => ?_, fun hm => ?_, fun pre r post hcfg hr hpre => ?_,
    fun hno hup => ?_⟩
  · rw [byteAllowed_mode64 hm]
    exact canonical_iff
  · rw [byteAllowed_of_ne hm, segCheck_iff, realOrVm_iff]
  · exact segParam_of_range hcfg (SegRange.holds_iff.mpr hr) fun q hq => SegRange.holds_iff.not.mpr (hpre q hq)
  · rw [segParam_of_no_range fun q hq => SegRange.holds_iff.not.mpr (hno q hq)]
    exact Seg.admits_iff hup

/-- Settles O43, by the bits of the error code of every failing translation. -/
theorem translationRule : Obligations.TranslationRule := by
  intro s lin
  refine ⟨fun hpg => translateAddr_of_not_pg hpg lin, fun ec h => ?_⟩
  obtain ⟨present, other, rfl⟩ := translateAddr_eq_error h
  obtain ⟨hwr, hid⟩ := getLsbD_pfCode_clear s.cpl present other
  exact ⟨hwr, hid, getLsbD_pfCode_user s.cpl present other⟩

end Sys2Proof.Machine
end

section
/-! The arms of the decoder (30_encoding.md R93 to R103): the instructions each of them answers, and when it answers
#UD or refuses. -/

namespace Sys2Proof

open Machine

/-! ### Bits of a byte -/

/-- Bits 7:6 of the byte after C5, C4 or 62 are 11 outside Mode64 (R95 c, R98 f). -/
theorem top2_eq_three {b : Byte} : b.extractLsb' 6 2 = 3#2 ↔ b.getLsbD 7 = true ∧ b.getLsbD 6 = true := by
  revert b; decide

/-- The top bit of an inverted vvvv field. -/
theorem getLsbD_not_vvvv (b : Byte) : (~~~(b.extractLsb' 3 4)).getLsbD 3 = !b.getLsbD 6 := by
  revert b; decide

/-- P0[3:0] is P0[3] over the map (R97). -/
theorem low4_eq_one {b : Byte} : b.extractLsb' 0 4 = 1#4 ↔ b.getLsbD 3 = false ∧ b.extractLsb' 0 3 = 1#3 := by
  revert b; decide

/-- P1[2:0] is P1[2] over pp (R97). -/
theorem low3_eq_five {b : Byte} : b.extractLsb' 0 3 = 5#3 ↔ b.getLsbD 2 = true ∧ b.extractLsb' 0 2 = 1#2 := by
  revert b; decide

/-! ### What the bytes of a form spell -/

/-- The operands of a two-byte VEX encoding (R93). -/
def Vex2Op.ofBytes (p : Seen) (v1 : Byte) (reg : BitVec 3) (rm : Rm) : Vex2Op :=
  ⟨p.pfx, !v1.getLsbD 7, ~~~(v1.extractLsb' 3 4), reg, rm⟩

/-- The operands of a three-byte VEX encoding (R94). -/
def Vex3Op.ofBytes (p : Seen) (v1 v2 : Byte) (reg : BitVec 3) (rm : Rm) : Vex3Op :=
  ⟨p.pfx, !v1.getLsbD 7, !v1.getLsbD 6, !v1.getLsbD 5, v2.getLsbD 7, ~~~(v2.extractLsb' 3 4), reg, rm⟩

/-- The operands of an EVEX encoding (R97). -/
def EvexOp.ofBytes (p : Seen) (p0 p1 p2 : Byte) (reg : BitVec 3) (rm : Rm) : EvexOp :=
  ⟨p.pfx, !p0.getLsbD 7, !p0.getLsbD 6, !p0.getLsbD 5, !p0.getLsbD 4, ~~~(p1.extractLsb' 3 4), !p2.getLsbD 3,
    p2.extractLsb' 0 3, p2.getLsbD 7, p2.getLsbD 4, reg, rm⟩

/-- The vector length L'L selects, 11 aside (R99). -/
def vecLenOf (ll : BitVec 2) : VecLen := if ll = 0#2 then .v128 else if ll = 1#2 then .v256 else .v512

/-- W and L'L select the EVEX form, and L'L = 11 none (R99). -/
theorem evexForm_eq_some {w : Bool} {ll : BitVec 2} {f : EvexOp → Instr} :
    evexForm w ll = some f ↔ ll ≠ 3#2 ∧ f = evexInstr (if w then .e64 else .e32) (vecLenOf ll) := by
  have hll : ll = 0#2 ∨ ll = 1#2 ∨ ll = 2#2 ∨ ll = 3#2 := by revert ll; decide
  rcases hll with rfl | rfl | rfl | rfl <;> cases w <;> simp [evexForm, vecLenOf, evexInstr, eq_comm]

theorem evexForm_three (w : Bool) : evexForm w 3#2 = none := by cases w <;> rfl

/-! ### The instructions each arm answers (R103) -/

theorem udOnceFetched_ne_instr {sz : AddrSize} {bs r : List Byte} {i : Instr} : udOnceFetched sz bs ≠ .instr i r := by
  unfold udOnceFetched
  cases takeModRM sz bs <;> simp

/-- Form 1, or form 2 where 66 was among the prefixes (R103). -/
def legacyInstr (p66 : Bool) : LegacyOp → Instr := if p66 then .pandXmm else .pandMm

theorem ite_legacyInstr (p66 : Bool) (o : LegacyOp) (r : List Byte) :
    (if p66 = true then Decoded.instr (.pandXmm o) r else .instr (.pandMm o) r) = .instr (legacyInstr p66 o) r := by
  cases p66 <;> rfl

theorem ite_vex2Instr (l : Bool) (o : Vex2Op) (r : List Byte) :
    (if l = true then Decoded.instr (.vpandYmmVex2 o) r else .instr (.vpandXmmVex2 o) r) =
      .instr (vex2Instr l o) r := by
  cases l <;> rfl

theorem ite_vex3Instr (l : Bool) (o : Vex3Op) (r : List Byte) :
    (if l = true then Decoded.instr (.vpandYmmVex3 o) r else .instr (.vpandXmmVex3 o) r) =
      .instr (vex3Instr l o) r := by
  cases l <;> rfl

theorem decodeLegacy_eq_instr {m : Mode} {p : Seen} {rex : Option Rex} {bs r : List Byte} {i : Instr} :
    decodeLegacy m p rex bs = .instr i r ↔ p.lock = false ∧ p.rep = false ∧ ∃ tail reg rm,
      bs = 0xDB#8 :: tail ∧ takeModRM (addrSize m p.a67) tail = some (reg, rm, r) ∧
      i = legacyInstr p.p66 ⟨p.pfx, rex, reg, rm⟩ := by
  constructor
  · intro h
    rcases bs with _ | ⟨op, tail⟩
    · cases h
    simp only [decodeLegacy, ite_legacyInstr] at h
    split at h
    · cases h
    rename_i hop
    split at h
    · exact absurd h udOnceFetched_ne_instr
    rename_i hlock
    split at h
    · cases h
    rename_i hrep
    split at h
    · cases h
    rename_i reg rm r' hmodrm
    cases h
    exact ⟨by simpa using hlock, by simpa using hrep, tail, reg, rm, by simpa using hop, hmodrm, rfl⟩
  · rintro ⟨hlock, hrep, tail, reg, rm, rfl, hmodrm, rfl⟩
    simp [decodeLegacy, ite_legacyInstr, hlock, hrep, hmodrm]

theorem decodeVex2_eq_instr {m : Mode} {p : Seen} {rex : Option Rex} {bs r : List Byte} {i : Instr} :
    decodeVex2 m p rex bs = .instr i r ↔ p.badForVex rex = false ∧ ∃ v1 tail reg rm,
      bs = v1 :: 0xDB#8 :: tail ∧ (m = .mode64 ∨ v1.extractLsb' 6 2 = 3#2) ∧ v1.extractLsb' 0 2 = 1#2 ∧
      takeModRM (addrSize m p.a67) tail = some (reg, rm, r) ∧
      i = vex2Instr (v1.getLsbD 2) (.ofBytes p v1 reg rm) := by
  constructor
  · intro h
    rcases bs with _ | ⟨v1, bs⟩
    · cases h
    simp only [decodeVex2, ite_vex2Instr] at h
    split at h
    · cases h
    rename_i hmode
    split at h
    · exact absurd h udOnceFetched_ne_instr
    rename_i hbad
    split at h
    · cases h
    rename_i op tail
    split at h
    · cases h
    rename_i hfixed
    obtain ⟨hpp, rfl⟩ : v1.extractLsb' 0 2 = 1#2 ∧ op = 0xDB#8 := by simpa using hfixed
    split at h
    · cases h
    rename_i reg rm r' hmodrm
    cases h
    exact ⟨by simpa using hbad, v1, tail, reg, rm, rfl, by tauto, hpp, hmodrm, rfl⟩
  · rintro ⟨hbad, v1, tail, reg, rm, rfl, hmode, hpp, hmodrm, rfl⟩
    have hmode' : ¬ (m ≠ .mode64 ∧ v1.extractLsb' 6 2 ≠ 3#2) := by tauto
    simp only [decodeVex2, if_neg hmode', ite_vex2Instr, hbad, hpp, hmodrm, Bool.false_eq_true, ne_eq,
      not_true_eq_false, or_self, if_false]
    rfl

theorem decodeVex3_eq_instr {m : Mode} {p : Seen} {rex : Option Rex} {bs r : List Byte} {i : Instr} :
    decodeVex3 m p rex bs = .instr i r ↔ p.badForVex rex = false ∧ ∃ v1 v2 tail reg rm,
      bs = v1 :: v2 :: 0xDB#8 :: tail ∧
      (m = .mode64 ∨ v1.extractLsb' 6 2 = 3#2 ∧ v1.getLsbD 5 = true ∧ v2.getLsbD 6 = true) ∧
      v1.extractLsb' 0 5 = 1#5 ∧ v2.extractLsb' 0 2 = 1#2 ∧
      takeModRM (addrSize m p.a67) tail = some (reg, rm, r) ∧
      i = vex3Instr (v2.getLsbD 2) (.ofBytes p v1 v2 reg rm) := by
  constructor
  · intro h
    rcases bs with _ | ⟨v1, bs⟩
    · cases h
    simp only [decodeVex3, ite_vex3Instr] at h
    split at h
    · cases h
    rename_i hmode
    split at h
    · exact absurd h udOnceFetched_ne_instr
    rename_i hbad
    split at h
    swap
    · cases h
    rename_i v2 op tail
    split at h
    · cases h
    rename_i hfixed
    obtain ⟨hmap, hpp, rfl⟩ : v1.extractLsb' 0 5 = 1#5 ∧ v2.extractLsb' 0 2 = 1#2 ∧ op = 0xDB#8 := by simpa using hfixed
    split at h
    · cases h
    rename_i hign
    split at h
    · cases h
    rename_i reg rm r' hmodrm
    cases h
    refine ⟨by simpa using hbad, v1, v2, tail, reg, rm, rfl, ?_, hmap, hpp, hmodrm, rfl⟩
    simp only [← Bool.not_eq_true] at hign
    tauto
  · rintro ⟨hbad, v1, v2, tail, reg, rm, rfl, hmode, hmap, hpp, hmodrm, rfl⟩
    have hmode' : ¬ (m ≠ .mode64 ∧ v1.extractLsb' 6 2 ≠ 3#2) := by tauto
    have hign : ¬ (m ≠ .mode64 ∧ (v1.getLsbD 5 = false ∨ v2.getLsbD 6 = false)) := by
      simp only [← Bool.not_eq_true]
      tauto
    simp only [decodeVex3, if_neg hmode', if_neg hign, ite_vex3Instr, hbad, hmap, hpp, hmodrm, Bool.false_eq_true,
      ne_eq, not_true_eq_false, or_self, if_false]
    rfl

theorem EvexOp.violation_ofBytes {p : Seen} {p0 p1 p2 : Byte} {reg : BitVec 3} {rm : Rm} :
    (EvexOp.ofBytes p p0 p1 p2 reg rm).violation = false ↔
      ¬ (p2.getLsbD 7 = true ∧ p2.extractLsb' 0 3 = 0#3) ∧ (p2.getLsbD 4 && !rm.isMem) = false := by
  simp [EvexOp.violation, EvexOp.ofBytes]

theorem decodeEvex_eq_instr {m : Mode} {p : Seen} {rex : Option Rex} {bs r : List Byte} {i : Instr} :
    decodeEvex m p rex bs = .instr i r ↔ p.badForVex rex = false ∧ ∃ p0 p1 p2 tail reg rm,
      bs = p0 :: p1 :: p2 :: 0xDB#8 :: tail ∧
      (m = .mode64 ∨ p0.extractLsb' 6 2 = 3#2 ∧ p0.getLsbD 5 = true ∧ p0.getLsbD 4 = true ∧ p2.getLsbD 3 = true ∧
        p1.getLsbD 6 = true) ∧
      p0.extractLsb' 0 4 = 1#4 ∧ p1.extractLsb' 0 3 = 5#3 ∧ p2.extractLsb' 5 2 ≠ 3#2 ∧
      takeModRM (addrSize m p.a67) tail = some (reg, rm, r) ∧
      (EvexOp.ofBytes p p0 p1 p2 reg rm).violation = false ∧
      i = evexInstr (if p1.getLsbD 7 then .e64 else .e32) (vecLenOf (p2.extractLsb' 5 2))
        (.ofBytes p p0 p1 p2 reg rm) := by
  constructor
  · intro h
    rcases bs with _ | ⟨p0, bs⟩
    · cases h
    simp only [decodeEvex] at h
    split at h
    · cases h
    rename_i hmode
    split at h
    · exact absurd h udOnceFetched_ne_instr
    rename_i hbad
    split at h
    swap
    · cases h
    rename_i p1 p2 op tail
    split at h
    · cases h
    rename_i hp03
    split at h
    · cases h
    rename_i hfixed
    obtain ⟨hmap, hpp, rfl⟩ : p0.extractLsb' 0 3 = 1#3 ∧ p1.extractLsb' 0 2 = 1#2 ∧ op = 0xDB#8 := by simpa using hfixed
    split at h
    · exact absurd h udOnceFetched_ne_instr
    rename_i hviol
    obtain ⟨hp12, hz⟩ := not_or.mp hviol
    split at h
    · exact absurd h udOnceFetched_ne_instr
    rename_i form hform
    obtain ⟨hll, rfl⟩ := evexForm_eq_some.mp hform
    split at h
    · cases h
    rename_i hign
    split at h
    · cases h
    rename_i reg rm r' hmodrm
    split at h
    · cases h
    rename_i hbc
    cases h
    refine ⟨by simpa using hbad, p0, p1, p2, tail, reg, rm, rfl, ?_, low4_eq_one.mpr ⟨by simpa using hp03, hmap⟩,
      low3_eq_five.mpr ⟨by simpa using hp12, hpp⟩, hll, hmodrm,
      EvexOp.violation_ofBytes.mpr ⟨hz, by simpa using hbc⟩, rfl⟩
    simp only [← Bool.not_eq_true] at hign
    tauto
  · rintro ⟨hbad, p0, p1, p2, tail, reg, rm, rfl, hmode, hlow, hlow1, hll, hmodrm, hviol, rfl⟩
    obtain ⟨hp03, hmap⟩ := low4_eq_one.mp hlow
    obtain ⟨hp12, hpp⟩ := low3_eq_five.mp hlow1
    obtain ⟨hz, hbc⟩ := EvexOp.violation_ofBytes.mp hviol
    have hform := evexForm_eq_some (w := p1.getLsbD 7).mpr ⟨hll, rfl⟩
    have hmode' : ¬ (m ≠ .mode64 ∧ p0.extractLsb' 6 2 ≠ 3#2) := by tauto
    have hign : ¬ (m ≠ .mode64 ∧ (p0.getLsbD 5 = false ∨ p0.getLsbD 4 = false ∨ p2.getLsbD 3 = false ∨
        p1.getLsbD 6 = false)) := by
      simp only [← Bool.not_eq_true]
      tauto
    simp only [decodeEvex, if_neg hmode', if_neg hign, if_neg hz, hbad, hp03, hmap, hpp, hp12, hform, hmodrm, hbc,
      Bool.false_eq_true, Bool.true_eq_false, ne_eq, not_true_eq_false, or_self, false_or, if_false]
    rfl

end Sys2Proof
end

section
/-! The procedure of 30_encoding.md R103 as a whole: from the prefixes to the arm, the instructions it answers, and the
bytes it answers with #UD or refuses. -/

namespace Sys2Proof

open Machine

/-! ### From the prefixes to the arm -/

theorem decodeBytes_of_scan {m : Mode} {bs r tail : List Byte} {p : Seen} {rex : Option Rex}
    (hscan : scanPfx .start bs = some (p, r)) (hrex : takeRex m r = (rex, tail)) :
    decodeBytes m bs = decodeOpcode m p rex tail := by
  simp [decodeBytes, hscan, hrex]

/-- Bytes that start with neither a legacy prefix nor, in Mode64, REX. -/
theorem decodeBytes_of_opcode {m : Mode} {b : Byte} (hb : pfxKind b = none)
    (h4 : m ≠ .mode64 ∨ b.extractLsb' 4 4 ≠ 4#4) (bs : List Byte) :
    decodeBytes m (b :: bs) = decodeOpcode m .start none (b :: bs) := by
  refine decodeBytes_of_scan (scanPfx_stop hb) ?_
  rw [takeRex, if_neg (by tauto)]

theorem decodeOpcode_legacy (m : Mode) (p : Seen) (rex : Option Rex) (bs : List Byte) :
    decodeOpcode m p rex (0x0F#8 :: bs) = decodeLegacy m p rex bs := rfl

theorem decodeOpcode_vex2 (m : Mode) (p : Seen) (rex : Option Rex) (bs : List Byte) :
    decodeOpcode m p rex (0xC5#8 :: bs) = decodeVex2 m p rex bs := rfl

theorem decodeOpcode_vex3 (m : Mode) (p : Seen) (rex : Option Rex) (bs : List Byte) :
    decodeOpcode m p rex (0xC4#8 :: bs) = decodeVex3 m p rex bs := rfl

theorem decodeOpcode_evex (m : Mode) (p : Seen) (rex : Option Rex) (bs : List Byte) :
    decodeOpcode m p rex (0x62#8 :: bs) = decodeEvex m p rex bs := rfl

/-- The prefixes and REX lead to one of the four arms. -/
theorem decodeBytes_eq_instr {m : Mode} {bs rest : List Byte} {i : Instr} (h : decodeBytes m bs = .instr i rest) :
    ∃ p r rex op tail, scanPfx .start bs = some (p, r) ∧ takeRex m r = (rex, op :: tail) ∧
      (decodeLegacy m p rex tail = .instr i rest ∨ decodeVex2 m p rex tail = .instr i rest ∨
        decodeVex3 m p rex tail = .instr i rest ∨ decodeEvex m p rex tail = .instr i rest) := by
  unfold decodeBytes at h
  split at h
  · cases h
  rename_i p r hscan
  rcases hrex : takeRex m r with ⟨rex, _ | ⟨op, tail⟩⟩ <;> simp only [hrex, decodeOpcode] at h
  · cases h
  refine ⟨p, r, rex, op, tail, hscan, hrex, ?_⟩
  split_ifs at h <;> tauto

/-! ### Every accepted instruction is well formed and took its own bytes -/

/-- What a decoder's piece has taken, `n` bytes after the first of the instruction, is the rest of a well-formed
instruction. -/
def ReadsWhole (m : Mode) (n : Nat) (bs r : List Byte) (i : Instr) : Prop :=
  i.wellFormed m = true ∧ ∃ front, bs = front ++ r ∧ n + front.length = i.len

theorem ReadsWhole.append {m : Mode} {n : Nat} {bs r : List Byte} {i : Instr} (front : List Byte)
    (h : ReadsWhole m (n + front.length) bs r i) : ReadsWhole m n (front ++ bs) r i := by
  obtain ⟨hwf, f, rfl, hlen⟩ := h
  exact ⟨hwf, front ++ f, by simp, by simp; omega⟩

theorem readsWhole_of_takeModRM {m : Mode} {sz : AddrSize} {n : Nat} {bs r : List Byte} {reg : BitVec 3} {rm : Rm}
    {i : Instr} (h : takeModRM sz bs = some (reg, rm, r)) (hwf : rm.wellFormed sz = true → i.wellFormed m = true)
    (hlen : n + rm.len = i.len) : ReadsWhole m n bs r i := by
  obtain ⟨⟨f, rfl, hf⟩, hrm⟩ := takeModRM_front h
  exact ⟨hwf hrm, f, rfl, by omega⟩

/-- Prefixes that may stand before VEX or EVEX are segment overrides and 67 (R95 a, R98 a). -/
theorem badForVex_eq_false {p : Seen} {rex : Option Rex} :
    p.badForVex rex = false ↔ p.p66 = false ∧ p.rep = false ∧ p.lock = false ∧ rex = none := by
  simp [Seen.badForVex, and_assoc]

theorem Seen.count_of_vex {p : Seen} {rex : Option Rex} (h : p.badForVex rex = false) : p.count = p.pfx.len := by
  obtain ⟨h66, hrep, hlock, -⟩ := badForVex_eq_false.mp h
  simp only [Seen.count, h66, hrep, hlock, Bool.false_eq_true, if_false, Nat.add_zero]
  rfl

/-- The bytes that prefixes, REX and the arm's own byte take. -/
def Seen.bytesBefore (p : Seen) (rex : Option Rex) : Nat := p.count + (if rex.isSome then 1 else 0) + 1

theorem Seen.bytesBefore_of_vex {p : Seen} {rex : Option Rex} (h : p.badForVex rex = false) :
    p.bytesBefore rex = p.pfx.len + 1 := by
  obtain ⟨-, -, -, rfl⟩ := badForVex_eq_false.mp h
  simp [Seen.bytesBefore, Seen.count_of_vex h]

@[simp] theorem Seen.pfx_a67 (p : Seen) : p.pfx.a67 = p.a67 := rfl

theorem LegacyOp.wellFormed_iff {m : Mode} {o : LegacyOp} :
    o.wellFormed m = true ↔ (m = .mode64 ∨ o.rex = none) ∧ o.rm.wellFormed (addrSize m o.pfx.a67) = true := by
  simp [LegacyOp.wellFormed]

/-- Bits 7:6 of the second byte are what a mode other than Mode64 asks of R and vvvv[3] (R95 c). -/
theorem Vex2Op.wellFormed_ofBytes {m : Mode} {p : Seen} {v1 : Byte} {reg : BitVec 3} {rm : Rm} :
    (Vex2Op.ofBytes p v1 reg rm).wellFormed m = true ↔
      (m = .mode64 ∨ v1.extractLsb' 6 2 = 3#2) ∧ rm.wellFormed (addrSize m p.a67) = true := by
  simp only [Vex2Op.wellFormed, Vex2Op.ofBytes, Bool.and_eq_true, Bool.or_eq_true, beq_iff_eq, Bool.not_not,
    getLsbD_not_vvvv, top2_eq_three, Seen.pfx_a67]

theorem Vex3Op.wellFormed_ofBytes {m : Mode} {p : Seen} {v1 v2 : Byte} {reg : BitVec 3} {rm : Rm} :
    (Vex3Op.ofBytes p v1 v2 reg rm).wellFormed m = true ↔
      (m = .mode64 ∨ v1.extractLsb' 6 2 = 3#2 ∧ v1.getLsbD 5 = true ∧ v2.getLsbD 6 = true) ∧
      rm.wellFormed (addrSize m p.a67) = true := by
  simp only [Vex3Op.wellFormed, Vex3Op.ofBytes, Bool.and_eq_true, Bool.or_eq_true, beq_iff_eq, Bool.not_not,
    getLsbD_not_vvvv, top2_eq_three, Seen.pfx_a67, and_assoc]

theorem EvexOp.wellFormed_ofBytes {m : Mode} {p : Seen} {p0 p1 p2 : Byte} {reg : BitVec 3} {rm : Rm} :
    (EvexOp.ofBytes p p0 p1 p2 reg rm).wellFormed m = true ↔
      (EvexOp.ofBytes p p0 p1 p2 reg rm).violation = false ∧
      (m = .mode64 ∨ p0.extractLsb' 6 2 = 3#2 ∧ p0.getLsbD 5 = true ∧ p0.getLsbD 4 = true ∧ p2.getLsbD 3 = true ∧
        p1.getLsbD 6 = true) ∧
      rm.wellFormed (addrSize m p.a67) = true := by
  simp only [EvexOp.wellFormed, Bool.and_eq_true, Bool.or_eq_true, beq_iff_eq, Bool.not_eq_true', and_assoc]
  simp only [EvexOp.ofBytes, Bool.not_eq_false', getLsbD_not_vvvv, top2_eq_three, Seen.pfx_a67, and_assoc]

theorem wellFormed_legacyInstr (m : Mode) (p66 : Bool) (o : LegacyOp) :
    (legacyInstr p66 o).wellFormed m = o.wellFormed m := by
  cases p66 <;> rfl

theorem wellFormed_vex2Instr (m : Mode) (l : Bool) (o : Vex2Op) :
    (vex2Instr l o).wellFormed m = o.wellFormed m := by
  cases l <;> rfl

theorem wellFormed_vex3Instr (m : Mode) (l : Bool) (o : Vex3Op) :
    (vex3Instr l o).wellFormed m = o.wellFormed m := by
  cases l <;> rfl

theorem wellFormed_evexInstr (m : Mode) (es : ElemSize) (vl : VecLen) (o : EvexOp) :
    (evexInstr es vl o).wellFormed m = o.wellFormed m := by
  cases es <;> cases vl <;> rfl

section
variable {m : Mode} {p : Seen} {rex : Option Rex} {bs r : List Byte} {i : Instr}

theorem decodeLegacy_readsWhole (h : decodeLegacy m p rex bs = .instr i r) (hrex : m = .mode64 ∨ rex = none) :
    ReadsWhole m (p.bytesBefore rex) bs r i := by
  obtain ⟨hlock, hrep, tail, reg, rm, rfl, hmodrm, rfl⟩ := decodeLegacy_eq_instr.mp h
  refine ReadsWhole.append [0xDB#8] (readsWhole_of_takeModRM hmodrm (fun hrm => ?_) ?_)
  · rw [wellFormed_legacyInstr]
    exact LegacyOp.wellFormed_iff.mpr ⟨hrex, hrm⟩
  · cases h66 : p.p66 <;>
      simp [legacyInstr, Instr.len, LegacyOp.len, Seen.bytesBefore, Seen.count, Seen.pfx, Pfx.len, hlock, hrep, h66]

theorem decodeVex2_readsWhole (h : decodeVex2 m p rex bs = .instr i r) : ReadsWhole m (p.bytesBefore rex) bs r i := by
  obtain ⟨hbad, v1, tail, reg, rm, rfl, hmode, -, hmodrm, rfl⟩ := decodeVex2_eq_instr.mp h
  rw [Seen.bytesBefore_of_vex hbad]
  refine ReadsWhole.append [v1, 0xDB#8] (readsWhole_of_takeModRM hmodrm (fun hrm => ?_) ?_)
  · rw [wellFormed_vex2Instr]
    exact Vex2Op.wellFormed_ofBytes.mpr ⟨hmode, hrm⟩
  · cases v1.getLsbD 2 <;> rfl

theorem decodeVex3_readsWhole (h : decodeVex3 m p rex bs = .instr i r) : ReadsWhole m (p.bytesBefore rex) bs r i := by
  obtain ⟨hbad, v1, v2, tail, reg, rm, rfl, hmode, -, -, hmodrm, rfl⟩ := decodeVex3_eq_instr.mp h
  rw [Seen.bytesBefore_of_vex hbad]
  refine ReadsWhole.append [v1, v2, 0xDB#8] (readsWhole_of_takeModRM hmodrm (fun hrm => ?_) ?_)
  · rw [wellFormed_vex3Instr]
    exact Vex3Op.wellFormed_ofBytes.mpr ⟨hmode, hrm⟩
  · cases v2.getLsbD 2 <;> rfl

theorem decodeEvex_readsWhole (h : decodeEvex m p rex bs = .instr i r) : ReadsWhole m (p.bytesBefore rex) bs r i := by
  obtain ⟨hbad, p0, p1, p2, tail, reg, rm, rfl, hmode, -, -, -, hmodrm, hviol, rfl⟩ := decodeEvex_eq_instr.mp h
  rw [Seen.bytesBefore_of_vex hbad]
  refine ReadsWhole.append [p0, p1, p2, 0xDB#8] (readsWhole_of_takeModRM hmodrm (fun hrm => ?_) ?_)
  · rw [wellFormed_evexInstr]
    exact EvexOp.wellFormed_ofBytes.mpr ⟨hviol, hmode, hrm⟩
  · rw [len_evexInstr]
    rfl

/-- Whatever R103's procedure accepts, it took the whole of. -/
theorem decodeBytes_readsWhole (h : decodeBytes m bs = .instr i r) : ReadsWhole m 0 bs r i := by
  obtain ⟨p, r', rex, op, tail, hscan, htake, harm⟩ := decodeBytes_eq_instr h
  obtain ⟨pre, rfl, hpre⟩ := scanPfx_front hscan
  obtain ⟨rexByte, rfl, hrexByte, hrex⟩ := takeRex_front htake
  have hwhole : ReadsWhole m (p.bytesBefore rex) tail r i := by
    rcases harm with h | h | h | h
    · exact decodeLegacy_readsWhole h hrex
    · exact decodeVex2_readsWhole h
    · exact decodeVex3_readsWhole h
    · exact decodeEvex_readsWhole h
  refine ReadsWhole.append pre (ReadsWhole.append rexByte (ReadsWhole.append [op] ?_))
  have hcount : 0 + pre.length + rexByte.length + [op].length = p.bytesBefore rex := by
    simp only [Seen.count, Seen.start, Option.isSome_none, Bool.false_eq_true, if_false, Nat.add_zero] at hpre
    simp only [Seen.bytesBefore, hrexByte, hpre, List.length_singleton, Nat.zero_add]
    simp [Seen.count]
  rwa [hcount]

end

/-- Every instruction is 3 to 15 bytes long, and its encoding has these bytes (R102). -/
theorem length_encode (i : Instr) : Laws.Length.Statement i := by
  cases i with
  | pandMm o => exact Laws.Length.pandMm o
  | pandXmm o => exact Laws.Length.pandXmm o
  | vpandXmmVex2 o => exact Laws.Length.vpandXmmVex2 o
  | vpandXmmVex3 o => exact Laws.Length.vpandXmmVex3 o
  | vpandYmmVex2 o => exact Laws.Length.vpandYmmVex2 o
  | vpandYmmVex3 o => exact Laws.Length.vpandYmmVex3 o
  | vpanddXmm o => exact Laws.Length.vpanddXmm o
  | vpanddYmm o => exact Laws.Length.vpanddYmm o
  | vpanddZmm o => exact Laws.Length.vpanddZmm o
  | vpandqXmm o => exact Laws.Length.vpandqXmm o
  | vpandqYmm o => exact Laws.Length.vpandqYmm o
  | vpandqZmm o => exact Laws.Length.vpandqZmm o

/-! ### The encoder's bytes are read back -/

/-- The prefixes before an encoding's opcode, the mandatory 66 among them. -/
def Seen.ofPfx (p : Pfx) (p66 : Bool) : Seen := ⟨p.seg, p.a67, p66, false, false⟩

@[simp] theorem Seen.pfx_ofPfx (p : Pfx) (p66 : Bool) : (Seen.ofPfx p p66).pfx = p := rfl

/-- The byte after C5 (R93). -/
def Vex2Op.byte1 (l : Bool) (o : Vex2Op) : Byte :=
  bitsByte (!o.r) (!o.vvvv.getLsbD 3) (!o.vvvv.getLsbD 2) (!o.vvvv.getLsbD 1) (!o.vvvv.getLsbD 0) l false true

/-- The first byte after C4 (R94). -/
def Vex3Op.byte1 (o : Vex3Op) : Byte := bitsByte (!o.r) (!o.x) (!o.b) false false false false true

/-- The second byte after C4 (R94). -/
def Vex3Op.byte2 (l : Bool) (o : Vex3Op) : Byte :=
  bitsByte o.w (!o.vvvv.getLsbD 3) (!o.vvvv.getLsbD 2) (!o.vvvv.getLsbD 1) (!o.vvvv.getLsbD 0) l false true

/-- P0 of an EVEX encoding (R97). -/
def EvexOp.p0 (o : EvexOp) : Byte := bitsByte (!o.r) (!o.x) (!o.b) (!o.r') false false false true

/-- P1 of an EVEX encoding (R97). -/
def EvexOp.p1 (w : Bool) (o : EvexOp) : Byte :=
  bitsByte w (!o.vvvv.getLsbD 3) (!o.vvvv.getLsbD 2) (!o.vvvv.getLsbD 1) (!o.vvvv.getLsbD 0) true false true

/-- P2 of an EVEX encoding (R97). -/
def EvexOp.p2 (l' l : Bool) (o : EvexOp) : Byte :=
  bitsByte o.z l' l o.bc (!o.v') (o.aaa.getLsbD 2) (o.aaa.getLsbD 1) (o.aaa.getLsbD 0)

theorem Vex2Op.encode_append (l : Bool) (o : Vex2Op) (rest : List Byte) :
    o.encode l ++ rest = o.pfx.encode ++ 0xC5#8 :: o.byte1 l :: 0xDB#8 :: (o.rm.encode o.reg ++ rest) := by
  simp [Vex2Op.encode, Vex2Op.byte1]

theorem Vex3Op.encode_append (l : Bool) (o : Vex3Op) (rest : List Byte) :
    o.encode l ++ rest = o.pfx.encode ++ 0xC4#8 :: o.byte1 :: o.byte2 l :: 0xDB#8 :: (o.rm.encode o.reg ++ rest) := by
  simp [Vex3Op.encode, Vex3Op.byte1, Vex3Op.byte2]

theorem encode_evexInstr_append (es : ElemSize) (vl : VecLen) (o : EvexOp) (rest : List Byte) :
    encode (evexInstr es vl o) ++ rest = o.pfx.encode ++ 0x62#8 :: o.p0 :: o.p1 (es == .e64) ::
      o.p2 (vl == .v512) (vl == .v256) :: 0xDB#8 :: (o.rm.encode o.reg ++ rest) := by
  have henc : encode (evexInstr es vl o) = o.encode (es == .e64) (vl == .v512) (vl == .v256) := by
    cases es <;> cases vl <;> rfl
  simp [henc, EvexOp.encode, EvexOp.p0, EvexOp.p1, EvexOp.p2]

theorem Vex2Op.ofBytes_encode (l : Bool) (o : Vex2Op) :
    Vex2Op.ofBytes (.ofPfx o.pfx false) (o.byte1 l) o.reg o.rm = o := by
  simp only [Vex2Op.ofBytes, Vex2Op.byte1, bitsByte_bits, vvvv_bits, Seen.pfx_ofPfx, Bool.not_not]

theorem Vex3Op.ofBytes_encode (l : Bool) (o : Vex3Op) :
    Vex3Op.ofBytes (.ofPfx o.pfx false) o.byte1 (o.byte2 l) o.reg o.rm = o := by
  simp only [Vex3Op.ofBytes, Vex3Op.byte1, Vex3Op.byte2, bitsByte_bits, vvvv_bits, Seen.pfx_ofPfx, Bool.not_not]

theorem EvexOp.ofBytes_encode (w l' l : Bool) (o : EvexOp) :
    EvexOp.ofBytes (.ofPfx o.pfx false) o.p0 (o.p1 w) (o.p2 l' l) o.reg o.rm = o := by
  simp only [EvexOp.ofBytes, EvexOp.p0, EvexOp.p1, EvexOp.p2, bitsByte_bits, vvvv_bits, aaa_bits, Seen.pfx_ofPfx,
    Bool.not_not]

/-- After its segment and address-size prefixes, an encoding's next byte is none. -/
theorem scanPfx_encode_stop {b : Byte} (hb : pfxKind b = none) (p : Pfx) (tail : List Byte) :
    scanPfx .start (p.encode ++ b :: tail) = some (.ofPfx p false, b :: tail) := by
  rw [scanPfx_encode, scanPfx_stop hb]
  rfl

/-- The REX of forms 1 and 2, if any, and their opcode. -/
def LegacyOp.rexOpcode (o : LegacyOp) (rest : List Byte) : List Byte :=
  (o.rex.map Rex.encode).toList ++ 0x0F#8 :: 0xDB#8 :: (o.rm.encode o.reg ++ rest)

theorem LegacyOp.encode_append (p66 : Bool) (o : LegacyOp) (rest : List Byte) :
    o.encode p66 ++ rest = o.pfx.encode ++ ((if p66 then [0x66#8] else []) ++ o.rexOpcode rest) := by
  simp [LegacyOp.encode, LegacyOp.rexOpcode]

theorem LegacyOp.scanPfx_rexOpcode (p : Seen) (o : LegacyOp) (rest : List Byte) :
    scanPfx p (o.rexOpcode rest) = some (p, o.rexOpcode rest) := by
  unfold LegacyOp.rexOpcode
  cases o.rex with
  | none => exact scanPfx_stop (by decide)
  | some x => exact scanPfx_stop (pfxKind_rex x)

/-- The prefixes of forms 1 and 2 are read back. -/
theorem LegacyOp.scanPfx_encode (p66 : Bool) (o : LegacyOp) (rest : List Byte) :
    scanPfx .start (o.encode p66 ++ rest) = some (.ofPfx o.pfx p66, o.rexOpcode rest) := by
  rw [LegacyOp.encode_append, Sys2Proof.scanPfx_encode]
  cases p66 with
  | false => exact LegacyOp.scanPfx_rexOpcode ..
  | true => exact (scanPfx_66 rfl).trans (LegacyOp.scanPfx_rexOpcode ..)

theorem LegacyOp.takeRex_rexOpcode {m : Mode} {o : LegacyOp} (h : m = .mode64 ∨ o.rex = none) (rest : List Byte) :
    takeRex m (o.rexOpcode rest) = (o.rex, 0x0F#8 :: 0xDB#8 :: (o.rm.encode o.reg ++ rest)) := by
  unfold LegacyOp.rexOpcode
  cases hrex : o.rex with
  | none => exact takeRex_none (by decide)
  | some x =>
    obtain rfl : m = .mode64 := by simpa [hrex] using h
    exact takeRex_encode x _

theorem decodeBytes_encode_legacy {m : Mode} {o : LegacyOp} (p66 : Bool) (h : o.wellFormed m = true)
    (rest : List Byte) : decodeBytes m (o.encode p66 ++ rest) = .instr (legacyInstr p66 o) rest := by
  obtain ⟨hrex, hrm⟩ := LegacyOp.wellFormed_iff.mp h
  rw [decodeBytes_of_scan (o.scanPfx_encode p66 rest) (LegacyOp.takeRex_rexOpcode hrex rest), decodeOpcode_legacy]
  exact decodeLegacy_eq_instr.mpr ⟨rfl, rfl, _, _, _, rfl, takeModRM_encode _ _ _ _ hrm, rfl⟩

theorem decodeBytes_encode_vex2 {m : Mode} {o : Vex2Op} (l : Bool) (h : o.wellFormed m = true) (rest : List Byte) :
    decodeBytes m (o.encode l ++ rest) = .instr (vex2Instr l o) rest := by
  have hop := o.ofBytes_encode l
  obtain ⟨hmode, hrm⟩ := Vex2Op.wellFormed_ofBytes.mp (hop.symm ▸ h)
  rw [o.encode_append, decodeBytes_of_scan (scanPfx_encode_stop (by decide) o.pfx _) (takeRex_none (by decide)),
    decodeOpcode_vex2]
  refine decodeVex2_eq_instr.mpr ⟨rfl, _, _, _, _, rfl, hmode, ?_, takeModRM_encode _ _ _ _ hrm, ?_⟩
  · simp [Vex2Op.byte1, bitsByte_low2]
  · rw [hop]
    simp only [Vex2Op.byte1, bitsByte_bits]

theorem decodeBytes_encode_vex3 {m : Mode} {o : Vex3Op} (l : Bool) (h : o.wellFormed m = true) (rest : List Byte) :
    decodeBytes m (o.encode l ++ rest) = .instr (vex3Instr l o) rest := by
  have hop := o.ofBytes_encode l
  obtain ⟨hmode, hrm⟩ := Vex3Op.wellFormed_ofBytes.mp (hop.symm ▸ h)
  rw [o.encode_append, decodeBytes_of_scan (scanPfx_encode_stop (by decide) o.pfx _) (takeRex_none (by decide)),
    decodeOpcode_vex3]
  refine decodeVex3_eq_instr.mpr ⟨rfl, _, _, _, _, _, rfl, hmode, ?_, ?_, takeModRM_encode _ _ _ _ hrm, ?_⟩
  · simp [Vex3Op.byte1, bitsByte_low5]
  · simp [Vex3Op.byte2, bitsByte_low2]
  · rw [hop]
    simp only [Vex3Op.byte2, bitsByte_bits]

theorem decodeBytes_encode_evex {m : Mode} {o : EvexOp} (es : ElemSize) (vl : VecLen) (h : o.wellFormed m = true)
    (rest : List Byte) : decodeBytes m (encode (evexInstr es vl o) ++ rest) = .instr (evexInstr es vl o) rest := by
  have hop := o.ofBytes_encode (es == .e64) (vl == .v512) (vl == .v256)
  obtain ⟨hviol, hmode, hrm⟩ := EvexOp.wellFormed_ofBytes.mp (hop.symm ▸ h)
  rw [encode_evexInstr_append, decodeBytes_of_scan (scanPfx_encode_stop (by decide) o.pfx _)
    (takeRex_none (by decide)), decodeOpcode_evex]
  refine decodeEvex_eq_instr.mpr ⟨rfl, _, _, _, _, _, _, rfl, hmode, ?_, ?_, ?_, takeModRM_encode _ _ _ _ hrm,
    hviol, ?_⟩
  · simp only [low4_eq_one, EvexOp.p0, bitsByte_bits, bitsByte_low3]
    decide
  · simp only [EvexOp.p1, bitsByte_low3]
    decide
  · simp only [EvexOp.p2, bitsByte_ll]
    cases vl <;> decide
  · rw [hop]
    simp only [EvexOp.p1, EvexOp.p2, bitsByte_bits, bitsByte_ll]
    cases es <;> cases vl <;> rfl

/-- Every well-formed instruction's encoding is read back, whatever follows it. -/
theorem decodeBytes_encode {m : Mode} {i : Instr} (h : i.wellFormed m = true) (rest : List Byte) :
    decodeBytes m (encode i ++ rest) = .instr i rest := by
  cases i with
  | pandMm o => exact decodeBytes_encode_legacy false h rest
  | pandXmm o => exact decodeBytes_encode_legacy true h rest
  | vpandXmmVex2 o => exact decodeBytes_encode_vex2 false h rest
  | vpandXmmVex3 o => exact decodeBytes_encode_vex3 false h rest
  | vpandYmmVex2 o => exact decodeBytes_encode_vex2 true h rest
  | vpandYmmVex3 o => exact decodeBytes_encode_vex3 true h rest
  | vpanddXmm o => exact decodeBytes_encode_evex .e32 .v128 h rest
  | vpanddYmm o => exact decodeBytes_encode_evex .e32 .v256 h rest
  | vpanddZmm o => exact decodeBytes_encode_evex .e32 .v512 h rest
  | vpandqXmm o => exact decodeBytes_encode_evex .e64 .v128 h rest
  | vpandqYmm o => exact decodeBytes_encode_evex .e64 .v256 h rest
  | vpandqZmm o => exact decodeBytes_encode_evex .e64 .v512 h rest

end Sys2Proof
end

section
/-! The bytes that the decoder answers with #UD or refuses by decision (30_encoding.md R82, R83, R95, R98, R102). -/

namespace Sys2Proof

open Machine

/-! ### REX and ModRM bytes -/

/-- The fields of a REX byte (R83). -/
def Rex.ofByte (b : Byte) : Rex := ⟨b.getLsbD 3, b.getLsbD 2, b.getLsbD 1, b.getLsbD 0⟩

theorem takeRex_mode64 {b : Byte} (h : b.extractLsb' 4 4 = 4#4) (rest : List Byte) :
    takeRex .mode64 (b :: rest) = (some (.ofByte b), rest) :=
  if_pos ⟨rfl, h⟩

/-- A ModRM byte with mod 11 names two registers (R84, R86). -/
theorem takeModRM_reg {modrm : Byte} (h : modrm.extractLsb' 6 2 = 3#2) (sz : AddrSize) (rest : List Byte) :
    takeModRM sz (modrm :: rest) = some (modrm.extractLsb' 3 3, .reg (modrm.extractLsb' 0 3), rest) :=
  if_pos h

/-- A byte 40 to 4F is no prefix and none of the opcodes R103 tells apart. -/
theorem rex_byte {b : Byte} (h : b.extractLsb' 4 4 = 4#4) :
    pfxKind b = none ∧ b ≠ 0x0F#8 ∧ b ≠ 0xC5#8 ∧ b ≠ 0xC4#8 ∧ b ≠ 0x62#8 := by
  revert b; decide

/-- A legacy prefix is none of the opcodes R103 tells apart. -/
theorem pfxGroups_byte : ∀ g ∈ pfxGroups, ∀ b ∈ g,
    (pfxKind b).isSome = true ∧ b ≠ 0x0F#8 ∧ b ≠ 0xC5#8 ∧ b ≠ 0xC4#8 ∧ b ≠ 0x62#8 := by decide

theorem decodeOpcode_other {m : Mode} {p : Seen} {rex : Option Rex} {b : Byte} {bs : List Byte}
    (h : b ≠ 0x0F#8 ∧ b ≠ 0xC5#8 ∧ b ≠ 0xC4#8 ∧ b ≠ 0x62#8) : decodeOpcode m p rex (b :: bs) =
      .reject (if rex.isSome ∧ (pfxKind b).isSome then .rexMisplaced else .notPand) := by
  obtain ⟨h0F, hC5, hC4, h62⟩ := h
  simp only [decodeOpcode, h0F, hC5, hC4, h62, if_false]
  split_ifs <;> rfl

/-! ### The arms' #UD and refusals -/

section
variable {m : Mode} {p : Seen} {rex : Option Rex}

theorem decodeLegacy_of_lock (h : p.lock = true) (bs : List Byte) :
    decodeLegacy m p rex (0xDB#8 :: bs) = udOnceFetched (addrSize m p.a67) bs := by
  simp [decodeLegacy, h]

theorem decodeLegacy_of_rep (hlock : p.lock = false) (hrep : p.rep = true) (bs : List Byte) :
    decodeLegacy m p rex (0xDB#8 :: bs) = .reject .repPfx := by
  simp [decodeLegacy, hlock, hrep]

theorem badForVex_eq_true :
    p.badForVex rex = true ↔ p.lock = true ∨ p.p66 = true ∨ p.rep = true ∨ rex ≠ none := by
  simp only [Seen.badForVex, Bool.or_eq_true, Option.isSome_iff_ne_none]
  tauto

/-- Outside Mode64 C5, C4 and 62 before a byte whose bits 7:6 are not 11 are LDS, LES and BOUND (R95 c, R98 f). -/
theorem vexArms_notPand {b1 : Byte} (hm : m ≠ .mode64) (h : b1.extractLsb' 6 2 ≠ 3#2) (bs : List Byte) :
    decodeVex2 m p rex (b1 :: bs) = .reject .notPand ∧ decodeVex3 m p rex (b1 :: bs) = .reject .notPand ∧
      decodeEvex m p rex (b1 :: bs) = .reject .notPand :=
  ⟨if_pos ⟨hm, h⟩, if_pos ⟨hm, h⟩, if_pos ⟨hm, h⟩⟩

section
variable {b1 : Byte} (hmode : m = .mode64 ∨ b1.extractLsb' 6 2 = 3#2)
include hmode

theorem not_other_of_vex : ¬ (m ≠ .mode64 ∧ b1.extractLsb' 6 2 ≠ 3#2) := by tauto

/-- LOCK, 66, F2, F3 or REX before VEX or EVEX (R95 a, R98 a). -/
theorem vexArms_of_bad (hbad : p.badForVex rex = true) (bs : List Byte) :
    decodeVex2 m p rex (b1 :: bs) = udOnceFetched (addrSize m p.a67) (bs.drop 1) ∧
      decodeVex3 m p rex (b1 :: bs) = udOnceFetched (addrSize m p.a67) (bs.drop 2) ∧
      decodeEvex m p rex (b1 :: bs) = udOnceFetched (addrSize m p.a67) (bs.drop 3) := by
  have h := not_other_of_vex hmode
  exact ⟨(if_neg h).trans (if_pos hbad), (if_neg h).trans (if_pos hbad), (if_neg h).trans (if_pos hbad)⟩

theorem decodeEvex_of_p0Bit3 (hbad : p.badForVex rex = false) (h : b1.getLsbD 3 = true) (p1 p2 op : Byte)
    (bs : List Byte) : decodeEvex m p rex (b1 :: p1 :: p2 :: op :: bs) = .reject .evexP0Bit3 := by
  simp only [decodeEvex, if_neg (not_other_of_vex hmode), hbad, h, Bool.false_eq_true, if_false, if_true]

end

theorem decodeVex3_ignoredBitClear {v1 v2 : Byte} (hm : m ≠ .mode64) (hbad : p.badForVex rex = false)
    (htop : v1.extractLsb' 6 2 = 3#2) (hmap : v1.extractLsb' 0 5 = 1#5) (hpp : v2.extractLsb' 0 2 = 1#2)
    (hclear : v1.getLsbD 5 = false ∨ v2.getLsbD 6 = false) (bs : List Byte) :
    decodeVex3 m p rex (v1 :: v2 :: 0xDB#8 :: bs) = .reject .ignoredBitClear := by
  simp only [decodeVex3, if_neg (not_other_of_vex (Or.inr htop)), hbad, hmap, hpp, Bool.false_eq_true, ne_eq,
    not_true_eq_false, or_self, if_false]
  rw [if_pos ⟨hm, hclear⟩]

section
variable {p0 p1 p2 : Byte} (hmode : m = .mode64 ∨ p0.extractLsb' 6 2 = 3#2) (hbad : p.badForVex rex = false)
  (hlow : p0.extractLsb' 0 4 = 1#4) (hpp : p1.extractLsb' 0 2 = 1#2)
include hmode hbad hlow hpp

theorem decodeEvex_ignoredBitClear (hm : m ≠ .mode64) (hp12 : p1.getLsbD 2 = true) (hll : p2.extractLsb' 5 2 ≠ 3#2)
    (hz : p2.getLsbD 7 = true → p2.extractLsb' 0 3 ≠ 0#3)
    (hclear : p0.getLsbD 5 = false ∨ p0.getLsbD 4 = false ∨ p2.getLsbD 3 = false ∨ p1.getLsbD 6 = false)
    (bs : List Byte) : decodeEvex m p rex (p0 :: p1 :: p2 :: 0xDB#8 :: bs) = .reject .ignoredBitClear := by
  obtain ⟨hp03, hmap⟩ := low4_eq_one.mp hlow
  have hform := evexForm_eq_some (w := p1.getLsbD 7).mpr ⟨hll, rfl⟩
  simp only [decodeEvex, if_neg (not_other_of_vex hmode), hbad, hp03, hmap, hpp, hp12, hform, not_and.mpr hz,
    Bool.false_eq_true, Bool.true_eq_false, ne_eq, not_true_eq_false, or_self, if_false]
  rw [if_pos ⟨hm, hclear⟩]

/-- R98 b to e in Mode64: P1[2] = 0, L'L = 11, z with no writemask, or the broadcast bit with a register operand. -/
theorem decodeEvex_of_violation {modrm : Byte} {bs : List Byte} (hm : m = .mode64)
    (h : p1.getLsbD 2 = false ∨ p2.extractLsb' 5 2 = 3#2 ∨ (p2.getLsbD 7 = true ∧ p2.extractLsb' 0 3 = 0#3) ∨
      (p2.getLsbD 4 = true ∧ modrm.extractLsb' 6 2 = 3#2)) :
    decodeEvex m p rex (p0 :: p1 :: p2 :: 0xDB#8 :: modrm :: bs) =
      udOnceFetched (addrSize m p.a67) (modrm :: bs) := by
  obtain ⟨hp03, hmap⟩ := low4_eq_one.mp hlow
  simp only [decodeEvex, if_neg (not_other_of_vex hmode), hbad, hp03, hmap, hpp, Bool.false_eq_true, ne_eq,
    not_true_eq_false, or_self, if_false]
  by_cases hfix : p1.getLsbD 2 = false ∨ (p2.getLsbD 7 = true ∧ p2.extractLsb' 0 3 = 0#3)
  · rw [if_pos hfix]
  rw [if_neg hfix]
  by_cases hll : p2.extractLsb' 5 2 = 3#2
  · rw [hll, evexForm_three]
  obtain ⟨hbc, hmod⟩ : p2.getLsbD 4 = true ∧ modrm.extractLsb' 6 2 = 3#2 := by tauto
  simp only [evexForm_eq_some (w := p1.getLsbD 7).mpr ⟨hll, rfl⟩, hm, not_true_eq_false, false_and, if_false,
    takeModRM_reg hmod, hbc, Rm.isMem, Bool.not_false, Bool.and_self, if_true, udOnceFetched]

end
end

/-! ### A prefix group met twice (R82, D16) -/

/-- Has a prefix of this one's group been seen? -/
def Seen.has (p : Seen) : PfxKind → Bool
  | .seg _ => p.seg.isSome
  | .a67   => p.a67
  | .p66   => p.p66
  | .rep   => p.rep
  | .lock  => p.lock

/-- The prefixes seen with one more. -/
def Seen.mark (p : Seen) : PfxKind → Seen
  | .seg s => { p with seg := some s }
  | .a67   => { p with a67 := true }
  | .p66   => { p with p66 := true }
  | .rep   => { p with rep := true }
  | .lock  => { p with lock := true }

theorem Seen.add_eq (p : Seen) (k : PfxKind) : p.add k = if p.has k then none else some (p.mark k) := by
  cases k <;> rfl

theorem Seen.has_mark_self (p : Seen) (k : PfxKind) : (p.mark k).has k = true := by cases k <;> rfl

theorem Seen.has_mark {p : Seen} {j : PfxKind} (k : PfxKind) (h : p.has j = true) : (p.mark k).has j = true := by
  cases k <;> cases j <;> simp_all [Seen.has, Seen.mark]

/-- A prefix with the segment it names left out, all that decides its group. -/
def PfxKind.group : PfxKind → PfxKind
  | .seg _ => .seg .ds
  | k      => k

theorem Seen.has_of_group_eq {p : Seen} {j k : PfxKind} (h : j.group = k.group) : p.has j = p.has k := by
  have hgroup : ∀ k : PfxKind, p.has k.group = p.has k := fun k => by cases k <;> rfl
  rw [← hgroup j, h, hgroup k]

theorem pfxKind_group : ∀ g ∈ pfxGroups, ∀ x ∈ g, ∀ b ∈ g,
    (pfxKind x).map PfxKind.group = (pfxKind b).map PfxKind.group := by decide

/-- Prefixes, the last of a group seen before them or met among them, are a repetition. -/
theorem scanPfx_repeated {b : Byte} {k : PfxKind} (hb : pfxKind b = some k) (rest : List Byte) {pre : List Byte} :
    ∀ {p : Seen}, (∀ x ∈ pre, (pfxKind x).isSome = true) →
      (p.has k = true ∨ ∃ x ∈ pre, (pfxKind x).map PfxKind.group = some k.group) →
      scanPfx p (pre ++ b :: rest) = none := by
  induction pre with
  | nil =>
    intro p _ hrep
    have hk : p.has k = true := by simpa using hrep
    simp [scanPfx, hb, Seen.add_eq, hk]
  | cons x xs ih =>
    intro p hpre hrep
    obtain ⟨j, hj⟩ := Option.isSome_iff_exists.mp (hpre x List.mem_cons_self)
    simp only [List.cons_append, scanPfx, hj, Seen.add_eq]
    cases p.has j with
    | true => rfl
    | false =>
      refine ih (fun y hy => hpre y (List.mem_cons_of_mem _ hy)) ?_
      simp only [List.mem_cons, exists_eq_or_imp, hj, Option.map_some, Option.some.injEq] at hrep
      rcases hrep with hk | hgroup | hxs
      · exact Or.inl (Seen.has_mark j hk)
      · exact Or.inl (Seen.has_of_group_eq hgroup ▸ Seen.has_mark_self p j)
      · exact Or.inr hxs

/-! ### #UD once the bytes are there (R102, 60_exceptions.md R187) -/

theorem decode_of_udOnceFetched {m : Mode} {bs tail : List Byte} {sz : AddrSize}
    (h : decodeBytes m bs = udOnceFetched sz tail) : decode m bs = udAnswer sz bs tail := by
  rw [decode, h, limitLength_udOnceFetched]

/-- Up to nine bytes before ModRM leave the instruction within 15, so that its #UD, or the lack of its bytes, shows. -/
theorem udAnswer_of_short {sz : AddrSize} {pre tail : List Byte} (hpre : pre.length ≤ 9) :
    (∀ reg rm r, takeModRM sz tail = some (reg, rm, r) → udAnswer sz (pre ++ tail) tail = .ud r) ∧
      (takeModRM sz tail = none → udAnswer sz (pre ++ tail) tail = .reject .truncated) := by
  refine ⟨fun reg rm r h => ?_, fun h => ?_⟩
  · obtain ⟨⟨front, rfl, hfront⟩, -⟩ := takeModRM_front h
    have := rm.len_bounds
    simp only [udAnswer, h]
    refine if_neg ?_
    simp only [List.length_append]
    omega
  · have htail : ¬ 6 ≤ tail.length := fun h6 => takeModRM_of_length h6 h
    simp only [udAnswer, h]
    refine if_neg ?_
    simp only [List.length_append]
    omega

end Sys2Proof
end

section
/-! The statements of the family of 30_encoding.md about the decoder and the step. -/

namespace Sys2Proof

open Machine

/-- Settles O1, arm by arm: the encoder's pieces are read back and give the operands they were made of. -/
theorem decodeEncodeRoundTrip : Obligations.DecodeEncodeRoundTrip :=
  fun _ _ rest h => decode_eq_instr.mpr (decodeBytes_encode h rest)

/-- Settles O2: each arm takes the whole of a well-formed instruction. -/
theorem decodedIsWellFormed : Obligations.DecodedIsWellFormed := by
  intro m bs rest i h
  obtain ⟨hwf, front, hbs, hlen⟩ := decodeBytes_readsWhole (decode_eq_instr.mp h)
  obtain ⟨-, h3, h15⟩ := length_encode i
  exact ⟨hwf, h3, h15, front, hbs, by omega⟩

/-- Settles O3, by running the decoder on the six words. -/
theorem wordsDecodeAsWritten : Obligations.WordsDecodeAsWritten := by
  unfold Obligations.WordsDecodeAsWritten
  decide

/-- Settles O4, by the fields of `EvexOp.ofBytes`. -/
theorem evexFieldsAreRead : Obligations.EvexFieldsAreRead := by
  intro p0 p1 p2 modrm rest hlow hlow1 hmod hll hbc hz
  refine ⟨.ofBytes .start p0 p1 p2 (modrm.extractLsb' 3 3) (.reg (modrm.extractLsb' 0 3)), modrm.extractLsb' 0 3, ?_,
    rfl, rfl, rfl, rfl, rfl, rfl, hbc⟩
  rw [decode_eq_instr, decodeBytes_of_opcode (by decide) (by decide), decodeOpcode_evex]
  exact decodeEvex_eq_instr.mpr ⟨rfl, p0, p1, p2, _, _, _, rfl, Or.inl rfl, hlow, hlow1, hll, takeModRM_reg hmod _ _,
    EvexOp.violation_ofBytes.mpr ⟨not_and.mpr hz, by rw [hbc]; rfl⟩, rfl⟩

/-- Settles O5, by the fields of `Vex2Op.ofBytes` and `Vex3Op.ofBytes`. -/
theorem vexFieldsAreRead : Obligations.VexFieldsAreRead := by
  intro v1 v2 modrm rest hmod
  refine ⟨fun hpp => ?_, fun hmap hpp => ?_⟩
  · refine ⟨.ofBytes .start v1 (modrm.extractLsb' 3 3) (.reg (modrm.extractLsb' 0 3)), modrm.extractLsb' 0 3, ?_,
      rfl, rfl, rfl, rfl⟩
    rw [decode_eq_instr, decodeBytes_of_opcode (by decide) (by decide), decodeOpcode_vex2]
    exact decodeVex2_eq_instr.mpr ⟨rfl, v1, _, _, _, rfl, Or.inl rfl, hpp, takeModRM_reg hmod _ _, rfl⟩
  · refine ⟨.ofBytes .start v1 v2 (modrm.extractLsb' 3 3) (.reg (modrm.extractLsb' 0 3)), modrm.extractLsb' 0 3, ?_,
      rfl, rfl, rfl, rfl⟩
    rw [decode_eq_instr, decodeBytes_of_opcode (by decide) (by decide), decodeOpcode_vex3]
    exact decodeVex3_eq_instr.mpr ⟨rfl, v1, v2, _, _, _, rfl, Or.inl rfl, hmap, hpp, takeModRM_reg hmod _ _, rfl⟩

/-- Settles O6: the REX stands after 66, and its R and B go into the numbers of form 2 alone. -/
theorem rexFieldsAreRead : Obligations.RexFieldsAreRead := by
  intro rex modrm rest hrex hmod
  have hstop : ∀ (p : Seen) (bs : List Byte), scanPfx p (rex :: bs) = some (p, rex :: bs) :=
    fun _ _ => scanPfx_stop (rex_byte hrex).1
  refine ⟨⟨⟨⟨none, false⟩, some (.ofByte rex), modrm.extractLsb' 3 3, .reg (modrm.extractLsb' 0 3)⟩, ?_, rfl, rfl⟩,
    ⟨⟨⟨none, false⟩, some (.ofByte rex), modrm.extractLsb' 3 3, .reg (modrm.extractLsb' 0 3)⟩,
      modrm.extractLsb' 0 3, ?_, rfl, rfl, rfl⟩⟩
  · rw [decode_eq_instr, decodeBytes_of_scan (hstop _ _) (takeRex_mode64 hrex _), decodeOpcode_legacy]
    exact decodeLegacy_eq_instr.mpr ⟨rfl, rfl, _, _, _, rfl, takeModRM_reg hmod _ _, rfl⟩
  · rw [decode_eq_instr, decodeBytes_of_scan ((scanPfx_66 rfl).trans (hstop _ _)) (takeRex_mode64 hrex _),
      decodeOpcode_legacy]
    exact decodeLegacy_eq_instr.mpr ⟨rfl, rfl, _, _, _, rfl, takeModRM_reg hmod _ _, rfl⟩

/-- Settles O7: each arm answers `udOnceFetched`, of which counting the bytes makes `udAnswer`. -/
theorem illegalPrefixesAreInvalidOpcode : Obligations.IllegalPrefixesAreInvalidOpcode := by
  intro m bs r p rex hscan rest v b1
  refine ⟨fun hrex hlock => decode_of_udOnceFetched ?_, fun op hop hrex hmode hbad => decode_of_udOnceFetched ?_⟩
  · rw [decodeBytes_of_scan hscan hrex, decodeOpcode_legacy, decodeLegacy_of_lock hlock]
  · obtain ⟨h2, h3, h4⟩ := vexArms_of_bad hmode (badForVex_eq_true.mpr hbad) v
    rw [decodeBytes_of_scan hscan hrex]
    simp only [List.mem_cons, List.not_mem_nil, or_false] at hop
    rcases hop with rfl | rfl | rfl
    · rw [decodeOpcode_vex2, h2]
    · rw [decodeOpcode_vex3, h3]
    · rw [decodeOpcode_evex, h4]

/-- Settles O8: five bytes stand before ModRM, too few to bring the instruction past 15. -/
theorem evexViolationsAreInvalidOpcode : Obligations.EvexViolationsAreInvalidOpcode := by
  intro p0 p1 p2 modrm rest hlow hpp hviol
  have hbytes : decodeBytes .mode64 (0x62#8 :: p0 :: p1 :: p2 :: 0xDB#8 :: modrm :: rest) =
      udOnceFetched .a64 (modrm :: rest) := by
    rw [decodeBytes_of_opcode (by decide) (by decide), decodeOpcode_evex]
    exact decodeEvex_of_violation (Or.inl rfl) rfl hlow hpp rfl hviol
  rw [decode_of_udOnceFetched hbytes]
  exact udAnswer_of_short (pre := [0x62#8, p0, p1, p2, 0xDB#8]) (by simp)

/-- Settles O9: outside Mode64 these bytes are LDS, LES, BOUND, INC and DEC. -/
theorem outsideMode64OtherInstructions : Obligations.OutsideMode64OtherInstructions := by
  intro m b rest hm
  refine ⟨fun op hop hb => ?_, fun hb => ?_⟩ <;> rw [decode_eq_reject (by decide)]
  · obtain ⟨h2, h3, h4⟩ := vexArms_notPand (p := .start) (rex := none) hm hb rest
    simp only [List.mem_cons, List.not_mem_nil, or_false] at hop
    rcases hop with rfl | rfl | rfl
    · rw [decodeBytes_of_opcode (by decide) (Or.inl hm), decodeOpcode_vex2, h2]
    · rw [decodeBytes_of_opcode (by decide) (Or.inl hm), decodeOpcode_vex3, h3]
    · rw [decodeBytes_of_opcode (by decide) (Or.inl hm), decodeOpcode_evex, h4]
  · obtain ⟨hpfx, hother⟩ := rex_byte hb
    rw [decodeBytes_of_opcode hpfx (Or.inl hm), decodeOpcode_other hother]
    rfl

/-- Bytes of the groups one of which is repeated are refused, however many prefixes stand between (R82, D16). -/
theorem decodeBytes_of_repeated {g pre : List Byte} {b : Byte} (hg : g ∈ pfxGroups) (hb : b ∈ g)
    (hpre : ∀ x ∈ pre, ∃ h ∈ pfxGroups, x ∈ h) (hrep : ∃ x ∈ pre, x ∈ g) (m : Mode) (rest : List Byte) :
    decodeBytes m (pre ++ b :: rest) = .reject .repeatedPfx := by
  obtain ⟨k, hk⟩ := Option.isSome_iff_exists.mp (pfxGroups_byte g hg b hb).1
  obtain ⟨x, hx, hxg⟩ := hrep
  have hpfx : ∀ y ∈ pre, (pfxKind y).isSome = true := fun y hy => by
    obtain ⟨h, hh, hyh⟩ := hpre y hy
    exact (pfxGroups_byte h hh y hyh).1
  have hsame : (pfxKind x).map PfxKind.group = some k.group := by rw [pfxKind_group g hg x hxg b hb, hk]; rfl
  rw [decodeBytes, scanPfx_repeated hk rest hpfx (Or.inr ⟨x, hx, hsame⟩)]

/-- Settles O10: each refusal is the answer of one piece of the decoder. -/
theorem encodingsRefusedByDecision : Obligations.EncodingsRefusedByDecision := by
  intro m b p0 p1 p2 bs pre r rest p rex
  refine ⟨fun hscan hrex hrep hlock => ?_, fun g hg hpre hrep hb => ?_, fun hscan hb hp0 => ?_, fun hmode hp0 => ?_,
    fun hm htop hmap hpp hclear => ?_, fun hm htop hlow hlow1 hll hz hclear => ?_⟩ <;>
    rw [decode_eq_reject (by decide)]
  · rw [decodeBytes_of_scan hscan hrex, decodeOpcode_legacy, decodeLegacy_of_rep hlock hrep]
  · exact decodeBytes_of_repeated hg hb hpre hrep m rest
  · obtain ⟨g, hg, hp0⟩ := hp0
    obtain ⟨hpfx, hother⟩ := pfxGroups_byte g hg p0 hp0
    rw [decodeBytes_of_scan hscan (takeRex_mode64 hb _), decodeOpcode_other hother, if_pos ⟨rfl, hpfx⟩]
  · rw [decodeBytes_of_opcode (by decide) (Or.inr (by decide)), decodeOpcode_evex, decodeEvex_of_p0Bit3 hmode rfl hp0]
  · rw [decodeBytes_of_opcode (by decide) (Or.inl hm), decodeOpcode_vex3,
      decodeVex3_ignoredBitClear hm rfl htop hmap hpp hclear]
  · obtain ⟨hp12, hpp⟩ := low3_eq_five.mp hlow1
    rw [decodeBytes_of_opcode (by decide) (Or.inl hm), decodeOpcode_evex,
      decodeEvex_ignoredBitClear (Or.inr htop) rfl hlow hpp hm hp12 hll hz hclear]

/-- Settles O11, by the four answers of the decoder. -/
theorem stepRunsDecodedInstruction : Obligations.StepRunsDecodedInstruction := by
  intro s
  refine ⟨fun i rest h => ?_, fun rest h => ?_, fun h => ?_, fun r h => ?_⟩ <;> simp only [step, h]
  · rfl
  · rfl

end Sys2Proof
end

section
/-! The address of a memory operand, form by form of ModRM and SIB (30_encoding.md R87 to R92, R101). -/

namespace Sys2Proof.Machine

/-! ### Every form's address is computed alike -/

/-- What an instruction's address is computed from (R82, R83, R89, R101). -/
def addrCtx (s : State) (i : Instr) : AddrCtx :=
  ⟨addrSize s.cfg.mode (pfxField i).a67, xField i, bField i, scaleField i, nextPc s i.len⟩

theorem disp8Scale_eq_scaleField (es : ElemSize) (vl : VecLen) (o : EvexOp) :
    disp8Scale o es vl = scaleField (evexInstr es vl o) := by
  cases es <;> cases vl <;> rfl

theorem evexAccess_eq (s : State) (es : ElemSize) (vl : VecLen) (o : EvexOp) (m : Mem) :
    evexAccess s o es vl m =
      access s o.pfx (addrCtx s (evexInstr es vl o)) (evexSize o es vl) (evexBytes s o es vl) m := by
  rw [evexAccess, disp8Scale_eq_scaleField]
  cases es <;> cases vl <;> rfl

/-- The access of every form is made with its own prefixes, extension bits, scale and length. -/
theorem memOperand_access (s : State) (i : Instr) : ∃ al size bytes,
    memOperand s i = rmOperand al (access s (pfxField i) (addrCtx s i) size bytes) (rmField i) := by
  cases i with
  | pandMm o => exact ⟨.ac8, 8, List.range 8, rfl⟩
  | pandXmm o => exact ⟨.gp16, 16, List.range 16, rfl⟩
  | vpandXmmVex2 o => exact ⟨.none, 16, List.range 16, rfl⟩
  | vpandXmmVex3 o => exact ⟨.none, 16, List.range 16, rfl⟩
  | vpandYmmVex2 o => exact ⟨.none, 32, List.range 32, rfl⟩
  | vpandYmmVex3 o => exact ⟨.none, 32, List.range 32, rfl⟩
  | vpanddXmm o => exact ⟨.none, _, _, congrArg (rmOperand .none · o.rm) (funext (evexAccess_eq s .e32 .v128 o))⟩
  | vpanddYmm o => exact ⟨.none, _, _, congrArg (rmOperand .none · o.rm) (funext (evexAccess_eq s .e32 .v256 o))⟩
  | vpanddZmm o => exact ⟨.none, _, _, congrArg (rmOperand .none · o.rm) (funext (evexAccess_eq s .e32 .v512 o))⟩
  | vpandqXmm o => exact ⟨.none, _, _, congrArg (rmOperand .none · o.rm) (funext (evexAccess_eq s .e64 .v128 o))⟩
  | vpandqYmm o => exact ⟨.none, _, _, congrArg (rmOperand .none · o.rm) (funext (evexAccess_eq s .e64 .v256 o))⟩
  | vpandqZmm o => exact ⟨.none, _, _, congrArg (rmOperand .none · o.rm) (funext (evexAccess_eq s .e64 .v512 o))⟩

/-- Truncation to the address size keeps `addrWidth` bits (R87, R89, R90). -/
theorem truncAddr_addrSize (s : State) (i : Instr) (v : Word64) :
    truncAddr (addrSize s.cfg.mode (pfxField i).a67) v = (v.setWidth (addrWidth s i)).setWidth 64 := by
  unfold addrWidth
  cases s.cfg.mode <;> cases (pfxField i).a67 <;> simp [addrSize, truncAddr]

theorem addrWidth_le (s : State) (i : Instr) : addrWidth s i ≤ 64 := by
  unfold addrWidth
  cases s.cfg.mode <;> cases (pfxField i).a67 <;> decide

/-- The effective address and the segment of a memory operand, whatever the form. -/
theorem address_of_memOperand {s : State} {i : Instr} {al : AlignRule} {a : Access} {m : Mem}
    (h : memOperand s i = some (al, a)) (hrm : rmField i = .mem m) :
    a.ea = ((addrSum s (addrCtx s i) m).setWidth (addrWidth s i)).setWidth 64 ∧
      a.seg = (pfxField i).seg.getD (defaultSeg (bField i) m) := by
  obtain ⟨al', size, bytes, hop⟩ := memOperand_access s i
  rw [hop, hrm] at h
  cases h
  exact ⟨truncAddr_addrSize s i _, rfl⟩

/-! ### The terms of the sum, at the address size -/

/-- Sign-extension to 64 bits and truncation is sign-extension to the address size (R91). -/
theorem setWidth_signExtend {n w : Nat} (h : w ≤ 64) (v : BitVec n) :
    (v.signExtend 64).setWidth w = v.signExtend w := by
  refine BitVec.eq_of_getLsbD_eq fun i hi => ?_
  have hi64 : i < 64 := by omega
  simp only [BitVec.getLsbD_setWidth, BitVec.getLsbD_signExtend, hi, hi64, decide_true, Bool.true_and]

theorem setWidth_dispValue {w : Nat} (h : w ≤ 64) (n : Nat) (d : Disp) :
    (dispValue n d).setWidth w = dispLow w n d := by
  cases d with
  | none => exact BitVec.setWidth_zero ..
  | d8 v => rw [dispValue, BitVec.setWidth_mul _ _ h, setWidth_signExtend h, BitVec.setWidth_ofNat_of_le h]; rfl
  | d32 v => exact setWidth_signExtend h v

theorem setWidth_disp16Value (n : Nat) (d : Disp16) : (disp16Value n d).setWidth 16 = disp16Low n d := by
  cases d with
  | none => rfl
  | d8 v =>
    rw [disp16Value, BitVec.setWidth_mul _ _ (by decide), setWidth_signExtend (by decide),
      BitVec.setWidth_ofNat_of_le (by decide)]
    rfl
  | d16 v => rw [disp16Value, setWidth_signExtend (by decide), BitVec.signExtend_eq]; rfl

/-- X:index = 0100 is index 100 with X = 0 (R88). -/
theorem gprNum_eq_four {x : Bool} {index : BitVec 3} : gprNum x index = 4#4 ↔ x = false ∧ index = 4#3 := by
  revert x index; decide

theorem setWidth_indexValue {w : Nat} (h : w ≤ 64) (s : State) (x : Bool) (ss : BitVec 2) (index : BitVec 3) :
    (indexValue s x ss index).setWidth w = indexLow s w x ss index := by
  simp only [indexValue, indexLow, gprNum_eq_four]
  split
  · exact BitVec.setWidth_zero ..
  · have hpow : BitVec.twoPow 64 ss.toNat = BitVec.ofNat 64 (2 ^ ss.toNat) := BitVec.eq_of_toNat_eq (by simp)
    rw [BitVec.shiftLeft_eq_mul_twoPow, hpow, BitVec.setWidth_mul _ _ h, BitVec.setWidth_ofNat_of_le h]
    rfl

/-! ### Segments (R92) -/

theorem defaultSeg_base (i : Instr) (base : BitVec 3) (d : Disp) :
    (pfxField i).seg.getD (defaultSeg (bField i) (.base base d)) = segOf i (stackBase i base) := by
  simp [segOf, defaultSeg, stackBase]

theorem defaultSeg_sib (i : Instr) (ss : BitVec 2) (index base : BitVec 3) (d : Disp) :
    (pfxField i).seg.getD (defaultSeg (bField i) (.sib ss index base d)) = segOf i (stackBase i base) :=
  defaultSeg_base i base d

/-! ### The 16-bit table (R90) -/

/-- The rows of R90's table: the number of each, its registers, and whether BP is among them. -/
def table16 : List (BitVec 3 × List (BitVec 4) × Bool) :=
  [(0#3, [3#4, 6#4], false), (1#3, [3#4, 7#4], false), (2#3, [5#4, 6#4], true), (3#3, [5#4, 7#4], true),
    (4#3, [6#4], false), (5#3, [7#4], false), (6#3, [5#4], true), (7#3, [3#4], false)]

/-- The sum of a row's registers, modulo 2^16. -/
theorem toNat_base16Value (s : State) : ∀ row ∈ table16, (base16Value s row.1).toNat % 2 ^ 16 =
    (row.2.1.map fun g => (s.getGpr g).toNat % 2 ^ 16).sum % 2 ^ 16 := by
  simp only [table16, List.forall_mem_cons]
  simp [base16Value]

theorem defaultSeg_base16 (b : Bool) (d : Disp16) : ∀ row ∈ table16,
    defaultSeg b (.base16 row.1 d) = if row.2.2 then .ss else .ds := by
  have hrow : ∀ row ∈ table16, (row.1 = 2#3 ∨ row.1 = 3#3 ∨ row.1 = 6#3) ↔ row.2.2 = true := by decide
  intro row h
  simp only [defaultSeg, hrow row h]

end Sys2Proof.Machine
end

section
/-! The statements of the family of 30_encoding.md about addresses. -/

namespace Sys2Proof.Machine

/-- Settles O47: the sum of disp32 and, in Mode64, the next instruction's address. -/
theorem ripRelativeAddress : Obligations.RipRelativeAddress := by
  intro s i al a v hop hrm
  obtain ⟨hea, hseg⟩ := address_of_memOperand hop hrm
  refine ⟨fun hm h67 => ?_, fun hm h67 => ?_, fun hm hw => ?_, hseg⟩
  · have hw : addrWidth s i = 64 := by simp [addrWidth, hm, h67]
    rw [hea, hw, BitVec.setWidth_eq, BitVec.setWidth_eq, addrSum, if_pos hm]
    rfl
  · have hw : addrWidth s i = 32 := by simp [addrWidth, hm, h67]
    rw [hea, hw, addrSum, if_pos hm]
    rfl
  · rw [hea, hw, addrSum, if_neg hm, BitVec.zero_add, setWidth_signExtend (by decide), BitVec.signExtend_eq]

/-- Settles O48: truncation goes into the sum, term by term. -/
theorem sibAddress : Obligations.SibAddress := by
  intro s i al a ss index hop _
  have hle := addrWidth_le s i
  refine ⟨fun base d hrm => ?_, fun v hrm => ?_⟩
  · obtain ⟨hea, hseg⟩ := address_of_memOperand hop hrm
    refine ⟨?_, hseg.trans (defaultSeg_sib ..)⟩
    rw [hea, addrSum, BitVec.setWidth_add _ _ hle, BitVec.setWidth_add _ _ hle, setWidth_indexValue hle,
      setWidth_dispValue hle]
    rfl
  · obtain ⟨hea, hseg⟩ := address_of_memOperand hop hrm
    refine ⟨?_, hseg⟩
    rw [hea, addrSum, BitVec.setWidth_add _ _ hle, setWidth_indexValue hle, setWidth_signExtend hle]
    rfl

/-- Settles O49, by the rows of the table. -/
theorem sixteenBitTable : Obligations.SixteenBitTable := by
  intro s i al a hop hw
  refine ⟨fun row hrow d _ hrm => ?_, fun v hrm => ?_⟩
  · obtain ⟨hea, hseg⟩ := address_of_memOperand hop hrm
    refine ⟨?_, by rw [hseg, defaultSeg_base16 _ _ row hrow]; rfl⟩
    have hsum := toNat_base16Value s row hrow
    rw [hea, hw, addrSum, BitVec.setWidth_add _ _ (by decide), setWidth_disp16Value,
      BitVec.toNat_setWidth_of_le (by decide), BitVec.toNat_add, BitVec.toNat_setWidth, hsum, Nat.mod_add_mod]
    rfl
  · obtain ⟨hea, hseg⟩ := address_of_memOperand hop hrm
    refine ⟨?_, hseg⟩
    rw [hea, hw, addrSum, setWidth_signExtend (by decide), BitVec.signExtend_eq]

/-- Settles O50: truncation goes into the sum of the base and the scaled displacement. -/
theorem compressedDisplacement : Obligations.CompressedDisplacement := by
  intro s i al a rm d hop _ hrm
  have hle := addrWidth_le s i
  obtain ⟨hea, hseg⟩ := address_of_memOperand hop hrm
  refine ⟨?_, hseg.trans (defaultSeg_base ..)⟩
  rw [hea, addrSum, BitVec.setWidth_add _ _ hle, setWidth_dispValue hle]
  rfl

end Sys2Proof.Machine
end

section
/-! Facts of the family of form 1 (40_pand_mmx.md): when nothing hinders a form, what form 1 completes to, and what one
register as every operand makes of the AND. -/

namespace Sys2Proof.Machine

/-! ### When nothing hinders a form -/

theorem memOperand_of_reg {i : Instr} {r : BitVec 3} (s : State) (h : rmField i = .reg r) : memOperand s i = none := by
  obtain ⟨al, acc, hop⟩ := memOperand_eq_rmOperand s i
  rw [hop, h]
  rfl

theorem Unhindered.of_reg {s : State} {i : Instr} {r : BitVec 3} (hrm : rmField i = .reg r)
    (hud : udCondition s i = false) (hts : s.ts = false) (hx : x87Stops s i = false) : Unhindered s i :=
  ⟨hud, hts, hx, by simp [memOperand_of_reg s hrm]⟩

theorem Unhindered.of_readable {s : State} {i : Instr} {al : AlignRule} {a : Access}
    (hop : memOperand s i = some (al, a)) (hr : Readable s a) (hal : Aligned s a al)
    (hud : udCondition s i = false) (hts : s.ts = false) (hx : x87Stops s i = false) : Unhindered s i := by
  refine ⟨hud, hts, hx, fun al' a' hop' => ?_⟩
  cases hop.symm.trans hop'
  exact ⟨hr, hal⟩

/-! ### Form 1 (R130) -/

theorem mmOperand_reg {s : State} {o : LegacyOp} {r : BitVec 3} (h : o.rm = .reg r) : mmOperand s o = s.getMm r := by
  simp only [mmOperand, h]

theorem mmOperand_mem {s : State} {o : LegacyOp} {m : Mem} (h : o.rm = .mem m) :
    mmOperand s o = slice (assemble s (mmAccess s o m)) 0 64 := by
  simp only [mmOperand, h]

/-- Bit `i` of a memory operand of form 1 is a bit of its byte `i / 8` (20_memory.md R51). -/
theorem getLsbD_mmOperand_mem {s : State} {o : LegacyOp} {m : Mem} (h : o.rm = .mem m) {i : Nat} (hi : i < 64) :
    (mmOperand s o).getLsbD i = (readByte s (mmAccess s o m) (i / 8)).getLsbD (i % 8) := by
  have hbyte : i / 8 ∈ (mmAccess s o m).bytes := List.mem_range.mpr (by omega)
  rw [mmOperand_mem h, getLsbD_slice, Nat.zero_add, getLsbD_assemble _ _ _ (by omega)]
  simp [hi, hbyte]

/-- Form 1 with nothing in its way, its second source being `v`. -/
theorem exec_pandMm {s : State} {o : LegacyOp} {v : Word64} (h : Unhindered s (.pandMm o))
    (hpc : pcAdvances s (o.len false) = true) (hv : mmOperand s o = v) :
    exec (.pandMm o) s = .next ((s.writeMm o.reg (s.getMm o.reg &&& v)).advance (o.len false)) :=
  exec_eq_next.mpr ⟨h, hpc, by rw [← hv]; rfl⟩

theorem getElem_stExp_writeMm_of_ne {s : State} {d j : BitVec 3} (v : Word64) (h : j ≠ d) :
    (s.writeMm d v).stExp[j.toNat]'j.isLt = s.stExp[j.toNat]'j.isLt := by
  rw [← extractLsb'_x87Reg_high, x87Reg_writeMm_of_ne v h, extractLsb'_x87Reg_high]

/-! ### One register as every operand (R131, 41_pand_sse2.md R141, 42_vpand_vex.md R152) -/

/-- Writing a slice of a register back where it was read changes nothing. -/
theorem setSlice_slice_self (v : Vec) (lo n : Nat) : setSlice v lo (slice v lo n) = v := by
  refine BitVec.eq_of_getLsbD_eq fun i hi => ?_
  rw [getLsbD_setSlice _ _ _ _ hi]
  split_ifs with h
  · have hlo : lo + (i - lo) = i := by omega
    have hn : i - lo < n := by omega
    rw [getLsbD_slice, hlo, decide_eq_true hn, Bool.true_and]
  · rfl

theorem mm_writeMm_getMm (s : State) (d : BitVec 3) : (s.writeMm d (s.getMm d)).mm = s.mm :=
  Vector.set_getElem_self ..

theorem z_writeZ_getZ (s : State) (d : BitVec 5) : (s.writeZ d (s.getZ d)).z = s.z :=
  Vector.set_getElem_self ..

/-- Form 2 with its destination as second source writes back what the register holds. -/
theorem pandXmmValue_self {s : State} {o : LegacyOp} (hrm : o.rm = .reg o.reg)
    (hb : LegacyOp.rBit o = LegacyOp.bBit o) : pandXmmValue s o = s.getZ (xmmDest o) := by
  have hop : xmmOperand s o = s.getZ (xmmDest o) := by simp only [xmmOperand, hrm, xmmDest, hb]
  rw [pandXmmValue, hop, BitVec.and_self, setSlice_slice_self]

/-- VPAND with both sources one register writes its low VL bits, zeros above. -/
theorem vpandValue_self (s : State) (vl : VecLen) (d : BitVec 5) :
    vpandValue s vl d (s.getZ d) = zext (slice (s.getZ d) 0 vl.bits) := by
  rw [vpandValue, BitVec.and_self]

end Sys2Proof.Machine
end

section
/-! The statements of the family of 40_pand_mmx.md. -/

namespace Sys2Proof.Machine

/-- Settles O13: nothing hinders the form, and its second source is MM[rm]. The mask of `clearTop` and the statement's
complement of TOP's bits are one value. -/
theorem pandMmOfRegisters : Obligations.PandMmOfRegisters :=
  fun _ _ _ hrm hud hts hes hpc => exec_pandMm (.of_reg hrm hud hts hes) hpc (mmOperand_reg hrm)

/-- Settles O14: nothing hinders the form, and its second source agrees with the operand's bytes bit by bit. -/
theorem pandMmOfMemory : Obligations.PandMmOfMemory := by
  intro s o m v hrm hud hts hes hpc hr hal hbits
  have hv : mmOperand s o = v :=
    BitVec.eq_of_getLsbD_eq fun i hi => (getLsbD_mmOperand_mem hrm hi).trans (hbits i hi).symm
  exact exec_pandMm (.of_readable (memOperand_pandMm hrm) hr hal hud hts hes) hpc hv

/-- Settles O25: an unhindered form whose pc can advance completes (`exec_eq_next`), and writing the destination leaves
pc. -/
theorem everyFormCompletes : Obligations.EveryFormCompletes := by
  intro s i hud hts hx hop hpc
  refine ⟨_, exec_eq_next.mpr ⟨⟨hud, hts, hx, hop⟩, hpc, rfl⟩, ?_⟩
  rw [State.advance_pc, written_pc]

/-- Settles O26: form 1 completes to one write of MM[reg] with its x87 effects, and an advance of pc. -/
theorem mmxFormFrame : Obligations.MmxFormFrame := by
  intro s t o h
  obtain ⟨v, rfl⟩ : ∃ v, t = (s.writeMm o.reg v).advance (o.len false) := ⟨_, exec_pandMm_next h⟩
  refine ⟨rfl, fun j hj => ⟨?_, getElem_stExp_writeMm_of_ne v hj⟩, getLsbD_clearTop s.fsw, fun _ => rfl⟩
  rw [getMm_advance, getMm_writeMm, if_neg hj]

/-- Settles O52: the AND of a register with itself is the register, which form 1 and form 2 write back and VPAND xmm
cuts to its low 128 bits. -/
theorem sameRegisterOperands : Obligations.SameRegisterOperands := by
  intro s t
  refine ⟨fun o hrm h => ?_, fun o hrm hb h => ?_, fun o hrm hr hv h i _ => ?_⟩
  · rw [exec_pandMm_next h, mmOperand_reg hrm, BitVec.and_self]
    exact mm_writeMm_getMm s o.reg
  · obtain ⟨-, -, rfl⟩ := exec_eq_next.mp h
    rw [written, pandXmmValue_self hrm hb]
    exact z_writeZ_getZ s (xmmDest o)
  · obtain ⟨-, -, rfl⟩ := exec_eq_next.mp h
    have hop : vexOperand s o.pfx false false o.len .v128 o.rm = s.getZ (vecNum false o.r o.reg) := by
      rw [hrm, hr]
      rfl
    rw [written, hop, hv, vpandValue_self, getZ_advance, getZ_writeZ, if_pos rfl]
    exact getLsbD_zext_slice _ _ _ (by decide)

end Sys2Proof.Machine
end

section
/-! Facts of the family of form 2 (41_pand_sse2.md): its second source bit by bit, and what it completes to. -/

namespace Sys2Proof.Machine

theorem xmmOperand_reg {s : State} {o : LegacyOp} {r : BitVec 3} (h : o.rm = .reg r) :
    xmmOperand s o = s.getZ (vecNum false (LegacyOp.bBit o) r) := by
  simp only [xmmOperand, h]

theorem xmmOperand_mem {s : State} {o : LegacyOp} {m : Mem} (h : o.rm = .mem m) :
    xmmOperand s o = assemble s (xmmAccess s o m) := by
  simp only [xmmOperand, h]

/-- Bit `i` of a memory operand of form 2 is a bit of its byte `i / 8` (20_memory.md R51). -/
theorem getLsbD_xmmOperand_mem {s : State} {o : LegacyOp} {m : Mem} (h : o.rm = .mem m) {i : Nat} (hi : i < 128) :
    (xmmOperand s o).getLsbD i = (readByte s (xmmAccess s o m) (i / 8)).getLsbD (i % 8) := by
  have hbyte : i / 8 ∈ (xmmAccess s o m).bytes := List.mem_range.mpr (by omega)
  rw [xmmOperand_mem h, getLsbD_assemble _ _ _ (by omega), decide_eq_true hbyte, Bool.true_and]

/-- Form 2 writes the AND in bits 127:0 (R140). -/
theorem getLsbD_pandXmmValue_of_lt {s : State} {o : LegacyOp} {i : Nat} (h : i < 128) :
    (pandXmmValue s o).getLsbD i = ((s.getZ (xmmDest o)).getLsbD i && (xmmOperand s o).getLsbD i) := by
  rw [pandXmmValue, getLsbD_setSlice _ _ _ _ (by omega), if_pos (by omega)]
  simp [h]

/-- Form 2 with nothing in its way, the bits of its second source being those of `src`. -/
theorem exec_pandXmm {s : State} {o : LegacyOp} {src : Nat → Bool} (h : Unhindered s (.pandXmm o))
    (hpc : pcAdvances s (o.len true) = true) (hsrc : ∀ i < 128, (xmmOperand s o).getLsbD i = src i) :
    ∃ v : Vec, exec (.pandXmm o) s = .next ((s.writeZ (xmmDest o) v).advance (o.len true)) ∧
      ∀ i < 512, v.getLsbD i = if i < 128 then (s.getZ (xmmDest o)).getLsbD i && src i
        else (s.getZ (xmmDest o)).getLsbD i := by
  refine ⟨pandXmmValue s o, exec_eq_next.mpr ⟨h, hpc, rfl⟩, fun i _ => ?_⟩
  split
  next hlow => rw [getLsbD_pandXmmValue_of_lt hlow, hsrc i hlow]
  next hhigh => exact getLsbD_pandXmmValue_of_le (Nat.le_of_not_lt hhigh)

end Sys2Proof.Machine
end

section
/-! The statements of the family of 41_pand_sse2.md. -/

namespace Sys2Proof.Machine

/-- Settles O16: nothing hinders the form, and its second source is Z[B:rm]. -/
theorem pandXmmOfRegisters : Obligations.PandXmmOfRegisters :=
  fun _ _ _ hrm hud hts hpc =>
    exec_pandXmm (.of_reg hrm hud hts rfl) hpc fun _ _ => by rw [xmmOperand_reg hrm]

/-- Settles O17: an operand at a multiple of 16 is what form 2's alignment rule asks for, so nothing hinders the form,
and its second source is the operand's bytes. -/
theorem pandXmmOfMemory : Obligations.PandXmmOfMemory :=
  fun _ _ _ hrm hud hts hpc hr h16 =>
    exec_pandXmm (.of_readable (memOperand_pandXmm hrm) hr h16 hud hts rfl) hpc fun _ => getLsbD_xmmOperand_mem hrm

end Sys2Proof.Machine
end

section
/-! Facts of the VEX family (42_vpand_vex.md): the second source and the result of forms 3 and 4 bit by bit, what they
complete to, and form 3 against form 2. -/

namespace Sys2Proof.Machine

/-! ### Both encodings at both lengths -/

theorem rmField_vex2Instr (wide : Bool) (o : Vex2Op) : rmField (vex2Instr wide o) = o.rm := by cases wide <;> rfl
theorem rmField_vex3Instr (wide : Bool) (o : Vex3Op) : rmField (vex3Instr wide o) = o.rm := by cases wide <;> rfl

theorem len_vex2Instr (wide : Bool) (o : Vex2Op) : (vex2Instr wide o).len = o.len := by cases wide <;> rfl
theorem len_vex3Instr (wide : Bool) (o : Vex3Op) : (vex3Instr wide o).len = o.len := by cases wide <;> rfl

theorem x87Stops_vex2Instr (s : State) (wide : Bool) (o : Vex2Op) : x87Stops s (vex2Instr wide o) = false := by
  cases wide <;> rfl

theorem x87Stops_vex3Instr (s : State) (wide : Bool) (o : Vex3Op) : x87Stops s (vex3Instr wide o) = false := by
  cases wide <;> rfl

theorem memOperand_vex2Instr {s : State} {wide : Bool} {o : Vex2Op} {m : Mem} (h : o.rm = .mem m) :
    memOperand s (vex2Instr wide o) = some (.none, vexAccess s o.pfx false false o.len (vexLen wide) m) := by
  cases wide <;> simp [vex2Instr, vexLen, memOperand, h]

theorem memOperand_vex3Instr {s : State} {wide : Bool} {o : Vex3Op} {m : Mem} (h : o.rm = .mem m) :
    memOperand s (vex3Instr wide o) = some (.none, vexAccess s o.pfx o.x o.b o.len (vexLen wide) m) := by
  cases wide <;> simp [vex3Instr, vexLen, memOperand, h]

/-! ### The second source and the result, bit by bit (R150, R151) -/

theorem vexOperand_reg (s : State) (p : Pfx) (x b : Bool) (len : Nat) (vl : VecLen) (r : BitVec 3) :
    vexOperand s p x b len vl (.reg r) = s.getZ (vecNum false b r) := rfl

/-- Bit `i` of a memory operand of forms 3 and 4 is a bit of its byte `i / 8` (20_memory.md R51). -/
theorem getLsbD_vexOperand_mem (s : State) (p : Pfx) (x b : Bool) (len : Nat) (vl : VecLen) (m : Mem) {i : Nat}
    (hi : i < vl.bits) :
    (vexOperand s p x b len vl (.mem m)).getLsbD i =
      (readByte s (vexAccess s p x b len vl m) (i / 8)).getLsbD (i % 8) := by
  have hvl : 8 * vl.bytes = vl.bits := VecLen.bytes_mul vl
  have hbyte : i / 8 ∈ (vexAccess s p x b len vl m).bytes := List.mem_range.mpr (by omega)
  rw [vexOperand, getLsbD_assemble _ _ _ (hi.trans_le (VecLen.bits_le vl)), decide_eq_true hbyte, Bool.true_and]

/-- Forms 3 and 4 write the AND in the low VL bits and 0 above. -/
theorem getLsbD_vpandValue (s : State) (vl : VecLen) (v : BitVec 5) (src2 : Vec) {i : Nat} (hi : i < 512) :
    (vpandValue s vl v src2).getLsbD i =
      (decide (i < vl.bits) && ((s.getZ v).getLsbD i && src2.getLsbD i)) := by
  rw [vpandValue, getLsbD_zext _ _ hi, BitVec.getLsbD_and, getLsbD_slice, getLsbD_slice, Nat.zero_add]
  cases decide (i < vl.bits) <;> rfl

/-- An instruction that writes VPAND's value, with nothing in its way, the bits of its second source being those of
`src`. -/
theorem exec_of_written_vpandValue {s : State} {i : Instr} {d v : BitVec 5} {vl : VecLen} {src2 : Vec}
    {src : Nat → Bool} (h : Unhindered s i) (hpc : pcAdvances s i.len = true)
    (hw : written s i = s.writeZ d (vpandValue s vl v src2)) (hsrc : ∀ k < vl.bits, src2.getLsbD k = src k) :
    ∃ x : Vec, exec i s = .next ((s.writeZ d x).advance i.len) ∧
      ∀ k < 512, x.getLsbD k = (decide (k < vl.bits) && ((s.getZ v).getLsbD k && src k)) := by
  refine ⟨vpandValue s vl v src2, exec_eq_next.mpr ⟨h, hpc, by rw [hw]⟩, fun k hk => ?_⟩
  rw [getLsbD_vpandValue _ _ _ _ hk]
  by_cases hvl : k < vl.bits
  · rw [hsrc k hvl]
  · simp only [hvl, decide_false, Bool.false_and]

/-- VPAND in the two-byte encoding, with nothing in its way. -/
theorem exec_vex2Instr {s : State} {wide : Bool} {o : Vex2Op} {src : Nat → Bool}
    (h : Unhindered s (vex2Instr wide o)) (hpc : pcAdvances s o.len = true)
    (hsrc : ∀ k < (vexLen wide).bits,
      (vexOperand s o.pfx false false o.len (vexLen wide) o.rm).getLsbD k = src k) :
    ∃ x : Vec, exec (vex2Instr wide o) s = .next ((s.writeZ (vecNum false o.r o.reg) x).advance o.len) ∧
      ∀ k < 512, x.getLsbD k =
        (decide (k < (vexLen wide).bits) && ((s.getZ (vvvvNum false o.vvvv)).getLsbD k && src k)) := by
  rw [← len_vex2Instr wide o] at hpc ⊢
  exact exec_of_written_vpandValue h hpc (written_vex2Instr s wide o) hsrc

/-- VPAND in the three-byte encoding, with nothing in its way. -/
theorem exec_vex3Instr {s : State} {wide : Bool} {o : Vex3Op} {src : Nat → Bool}
    (h : Unhindered s (vex3Instr wide o)) (hpc : pcAdvances s o.len = true)
    (hsrc : ∀ k < (vexLen wide).bits, (vexOperand s o.pfx o.x o.b o.len (vexLen wide) o.rm).getLsbD k = src k) :
    ∃ x : Vec, exec (vex3Instr wide o) s = .next ((s.writeZ (vecNum false o.r o.reg) x).advance o.len) ∧
      ∀ k < 512, x.getLsbD k =
        (decide (k < (vexLen wide).bits) && ((s.getZ (vvvvNum false o.vvvv)).getLsbD k && src k)) := by
  rw [← len_vex3Instr wide o] at hpc ⊢
  exact exec_of_written_vpandValue h hpc (written_vex3Instr s wide o) hsrc

/-! ### Form 3 against form 2 (R152) -/

/-- On the same operands form 3 writes the low 128 bits of what form 2 writes, with zeros above them. -/
theorem vpandValue_eq_zext_pandXmmValue (s : State) (o : LegacyOp) :
    vpandValue s .v128 (xmmDest o) (xmmOperand s o) = zext (slice (pandXmmValue s o) 0 128) := by
  rw [pandXmmValue, slice_setSlice_same _ _ _ (by decide)]
  rfl

end Sys2Proof.Machine
end

section
/-! The statements of the family of 42_vpand_vex.md. -/

namespace Sys2Proof.Machine

/-- Settles O18: nothing hinders the form, and its second source is Z[B:rm], with B = 0 in the two-byte encoding. -/
theorem vpandOfRegisters : Obligations.VpandOfRegisters := by
  intro s wide r
  refine ⟨fun o hrm hud hts hpc => exec_vex2Instr ?_ hpc fun k _ => ?_,
    fun o hrm hud hts hpc => exec_vex3Instr ?_ hpc fun k _ => ?_⟩
  · exact .of_reg ((rmField_vex2Instr wide o).trans hrm) hud hts (x87Stops_vex2Instr s wide o)
  · rw [hrm, vexOperand_reg]
  · exact .of_reg ((rmField_vex3Instr wide o).trans hrm) hud hts (x87Stops_vex3Instr s wide o)
  · rw [hrm, vexOperand_reg]

/-- Settles O19: the form has no alignment rule, so a readable operand is all it needs, and its second source is the
operand's bytes. -/
theorem vpandOfMemory : Obligations.VpandOfMemory := by
  intro s wide m
  refine ⟨fun o hrm hud hts hpc hr => exec_vex2Instr ?_ hpc fun k hk => ?_,
    fun o hrm hud hts hpc hr => exec_vex3Instr ?_ hpc fun k hk => ?_⟩
  · exact .of_readable (memOperand_vex2Instr hrm) hr trivial hud hts (x87Stops_vex2Instr s wide o)
  · rw [hrm, getLsbD_vexOperand_mem _ _ _ _ _ _ _ hk]
  · exact .of_readable (memOperand_vex3Instr hrm) hr trivial hud hts (x87Stops_vex3Instr s wide o)
  · rw [hrm, getLsbD_vexOperand_mem _ _ _ _ _ _ _ hk]

/-- Settles O54: form 2 leaves `pandXmmValue` in the destination, and form 3 its low 128 bits with zeros above. -/
theorem form2AgainstForm3 : Obligations.Form2AgainstForm3 := by
  intro s t u o v r ho hv hb hd hvvvv ht hu i _
  have hop : vexOperand s v.pfx false false v.len .v128 v.rm = xmmOperand s o := by
    rw [hv, vexOperand_reg, xmmOperand_reg ho, hb]
  have hform2 : t.getZ (xmmDest o) = pandXmmValue s o := by
    obtain ⟨-, -, rfl⟩ := exec_eq_next.mp ht
    rw [written, getZ_advance, getZ_writeZ, if_pos rfl]
  have hform3 : u.getZ (xmmDest o) = zext (slice (pandXmmValue s o) 0 128) := by
    obtain ⟨-, -, rfl⟩ := exec_eq_next.mp hu
    rw [written, hop, hvvvv, ← hd, vpandValue_eq_zext_pandXmmValue, getZ_advance, getZ_writeZ, if_pos rfl]
  rw [hform2, hform3]
  exact ⟨getLsbD_zext_slice _ _ _ (by decide), getLsbD_pandXmmValue_of_le⟩

end Sys2Proof.Machine
end

section
/-! Facts of the EVEX family (43_vpandd_vpandq_evex.md): the second source and the result of forms 5 to 10 bit by bit,
what they complete to, and the forms with no writemask and no broadcast. -/

namespace Sys2Proof.Machine

theorem rmField_evexInstr (es : ElemSize) (vl : VecLen) (o : EvexOp) : rmField (evexInstr es vl o) = o.rm := by
  cases es <;> cases vl <;> rfl

/-! ### The second source, bit by bit (R166) -/

/-- The element of a vector that bit `i` lies in holds the vector's bit `i`. -/
theorem getLsbD_elem_vector (es : ElemSize) (v : Vec) (i : Nat) :
    ((Src2.vector v).elem es (i / es.bits)).getLsbD (i % es.bits) = v.getLsbD i := by
  rw [Src2.elem, getLsbD_slice, decide_eq_true (Nat.mod_lt i (ElemSize.bits_pos es)), Bool.true_and, Nat.div_add_mod']

/-- A broadcast element stands in the place of every element. -/
theorem getLsbD_elem_broadcast (es : ElemSize) (v : Vec) (j i : Nat) :
    ((Src2.broadcast v).elem es j).getLsbD (i % es.bits) = v.getLsbD (i % es.bits) := by
  rw [Src2.elem, getLsbD_slice, decide_eq_true (Nat.mod_lt i (ElemSize.bits_pos es)), Bool.true_and, Nat.zero_add]

theorem evexOperand_reg {s : State} {o : EvexOp} {r : BitVec 3} (h : o.rm = .reg r) (es : ElemSize) (vl : VecLen) :
    evexOperand s o es vl = .vector (s.getZ (vecNum o.x o.b r)) := by
  simp only [evexOperand, h]

theorem evexOperand_vector {s : State} {o : EvexOp} {m : Mem} (h : o.rm = .mem m) (hbc : o.bc = false)
    (es : ElemSize) (vl : VecLen) : evexOperand s o es vl = .vector (assemble s (evexAccess s o es vl m)) := by
  simp only [evexOperand, h, hbc, Bool.false_eq_true, if_false]

theorem evexOperand_broadcast {s : State} {o : EvexOp} {m : Mem} (h : o.rm = .mem m) (hbc : o.bc = true)
    (es : ElemSize) (vl : VecLen) : evexOperand s o es vl = .broadcast (assemble s (evexAccess s o es vl m)) := by
  simp only [evexOperand, h, hbc, if_true]

/-- The element of bit `i` is one of the vector's. -/
theorem VecLen.bit_div_lt {vl : VecLen} (es : ElemSize) {i : Nat} (h : i < vl.bits) : i / es.bits < vl.elems es :=
  Nat.div_lt_of_lt_mul (by rwa [Nat.mul_comm, VecLen.elems_mul])

/-- Bit `i` of an enabled element of a vector in memory is a bit of its byte `i / 8`, which is read (20_memory.md R51,
R64). -/
theorem getLsbD_assemble_vector {s : State} {o : EvexOp} {es : ElemSize} {vl : VecLen} (m : Mem) {i : Nat}
    (hbc : o.bc = false) (hi : i < vl.bits) (hen : enabled s o (i / es.bits) = true) :
    (assemble s (evexAccess s o es vl m)).getLsbD i =
      (readByte s (evexAccess s o es vl m) (i / 8)).getLsbD (i % 8) := by
  have hvl := VecLen.bytes_mul vl
  have hbyte : i / 8 ∈ (evexAccess s o es vl m).bytes := by
    refine (mem_evexBytes_vector hbc).mpr ⟨by omega, ?_⟩
    rwa [Nat.div_div_eq_div_mul, ElemSize.bytes_mul]
  rw [getLsbD_assemble _ _ _ (hi.trans_le (VecLen.bits_le vl)), decide_eq_true hbyte, Bool.true_and]

/-- Where some element is enabled, bit `i % es.bits` of the broadcast element is a bit of a byte that is read (R64). -/
theorem getLsbD_assemble_broadcast {s : State} {o : EvexOp} {es : ElemSize} {vl : VecLen} (m : Mem) {i : Nat}
    (hbc : o.bc = true) (hi : i < vl.bits) (hen : enabled s o (i / es.bits) = true) :
    (assemble s (evexAccess s o es vl m)).getLsbD (i % es.bits) =
      (readByte s (evexAccess s o es vl m) (i % es.bits / 8)).getLsbD (i % 8) := by
  have hes := ElemSize.bytes_mul es
  have hmod := Nat.mod_lt i (ElemSize.bits_pos es)
  have hbyte : i % es.bits / 8 ∈ (evexAccess s o es vl m).bytes :=
    (mem_evexBytes_broadcast hbc).mpr ⟨by omega, someEnabled_iff.mpr ⟨_, VecLen.bit_div_lt es hi, hen⟩⟩
  have h512 : i % es.bits < 512 := (Nat.mod_le i _).trans_lt (hi.trans_le (VecLen.bits_le vl))
  rw [getLsbD_assemble _ _ _ h512, decide_eq_true hbyte, Bool.true_and, Nat.mod_mod_of_dvd i ⟨es.bytes, hes.symm⟩]

/-! ### The result, bit by bit, and what completes (R160 to R166) -/

/-- Forms 5 to 10 write the AND in the bits of enabled elements, keep or zero those of the others, and write 0 above
VL. -/
theorem getLsbD_evexValue (s : State) (es : ElemSize) (vl : VecLen) (o : EvexOp) (i : Nat) :
    (evexValue s es vl o).getLsbD i =
      if vl.bits ≤ i then false
      else if enabled s o (i / es.bits) then
        (s.getZ (evexSrc1 o)).getLsbD i && ((evexOperand s o es vl).elem es (i / es.bits)).getLsbD (i % es.bits)
      else !o.z && (s.getZ (evexDest o)).getLsbD i := by
  rw [evexValue, getLsbD_zext_slice _ _ _ (VecLen.bits_le vl)]
  split
  next habove => rw [decide_eq_false habove.not_gt, Bool.false_and]
  next hbelow =>
    have hi : i < vl.bits := Nat.lt_of_not_le hbelow
    rw [decide_eq_true hi, Bool.true_and, getLsbD_maskedAnd _ _ _ _ _ _ _ _ hi]

/-- An EVEX form with nothing in its way, the bits of its second source in enabled elements being those of `src`. -/
theorem exec_evexInstr_of_unhindered {s : State} {es : ElemSize} {vl : VecLen} {o : EvexOp} {src : Nat → Bool}
    (h : Unhindered s (evexInstr es vl o)) (hpc : pcAdvances s o.len = true)
    (hsrc : ∀ i < vl.bits, enabled s o (i / es.bits) = true →
      ((evexOperand s o es vl).elem es (i / es.bits)).getLsbD (i % es.bits) = src i) :
    ∃ v : Vec, exec (evexInstr es vl o) s = .next ((s.writeZ (evexDest o) v).advance o.len) ∧
      ∀ i < 512, v.getLsbD i =
        if vl.bits ≤ i then false
        else if o.aaa = 0#3 ∨ (s.getK o.aaa).getLsbD (i / es.bits) = true then
          (s.getZ (evexSrc1 o)).getLsbD i && src i
        else !o.z && (s.getZ (evexDest o)).getLsbD i := by
  refine ⟨evexValue s es vl o, ?_, fun i _ => ?_⟩
  · rw [← len_evexInstr es vl o] at hpc ⊢
    exact exec_eq_next.mpr ⟨h, hpc, by rw [written_evexInstr]⟩
  · rw [getLsbD_evexValue]
    split
    next => rfl
    next hbelow =>
      by_cases hen : enabled s o (i / es.bits) = true
      · rw [if_pos hen, if_pos (enabled_iff.mp hen), hsrc i (Nat.lt_of_not_le hbelow) hen]
      · rw [if_neg hen, if_neg (enabled_iff.not.mp hen)]

/-! ### No writemask and no broadcast (R167) -/

theorem enabled_of_aaa_zero {o : EvexOp} (h : o.aaa = 0#3) (s : State) (j : Nat) : enabled s o j = true :=
  enabled_iff.mpr (Or.inl h)

/-- With no writemask and no broadcast an EVEX operand is accessed as a vector, whatever the element size. -/
theorem evexAccess_unmasked {o : EvexOp} (haaa : o.aaa = 0#3) (hbc : o.bc = false) (s : State) (es : ElemSize)
    (vl : VecLen) (m : Mem) :
    evexAccess s o es vl m = access s o.pfx ⟨addrSize s.cfg.mode o.pfx.a67, o.x, o.b, vl.bytes, nextPc s o.len⟩
      vl.bytes (List.range vl.bytes) m := by
  have hbytes : evexBytes s o es vl = List.range vl.bytes := by
    simp only [evexBytes, hbc, enabled_of_aaa_zero haaa, Bool.false_eq_true, if_false, List.filter_true]
  simp only [evexAccess, hbytes, disp8Scale, evexSize, hbc, Bool.false_eq_true, if_false]

/-- With no writemask an EVEX form with a vector as second source writes VPAND's value. -/
theorem evexValue_unmasked {s : State} {es : ElemSize} {vl : VecLen} {o : EvexOp} {v : Vec} (haaa : o.aaa = 0#3)
    (hop : evexOperand s o es vl = .vector v) : evexValue s es vl o = vpandValue s vl (evexSrc1 o) v := by
  refine BitVec.eq_of_getLsbD_eq fun i hi => ?_
  rw [getLsbD_evexValue, getLsbD_vpandValue _ _ _ _ hi, hop, getLsbD_elem_vector, if_pos (enabled_of_aaa_zero haaa s _)]
  by_cases hvl : i < vl.bits
  · rw [if_neg hvl.not_ge, decide_eq_true hvl, Bool.true_and]
  · rw [if_pos (Nat.le_of_not_lt hvl), decide_eq_false hvl, Bool.false_and]

end Sys2Proof.Machine
end

section
/-! The statements of the family of 43_vpandd_vpandq_evex.md. -/

namespace Sys2Proof.Machine

/-- Settles O20: nothing hinders the form, and its second source is Z[X:B:rm]. -/
theorem evexOfRegisters : Obligations.EvexOfRegisters := by
  intro s es vl o r hrm hud hts hpc
  refine exec_evexInstr_of_unhindered ?_ hpc fun i _ _ => ?_
  · exact .of_reg ((rmField_evexInstr es vl o).trans hrm) hud hts (x87Stops_evexInstr s es vl o)
  · rw [evexOperand_reg hrm, getLsbD_elem_vector]

/-- Settles O21: the form has no alignment rule, so a readable operand is all it needs, and in enabled elements its
second source is the operand's bytes. -/
theorem evexOfMemoryVector : Obligations.EvexOfMemoryVector := by
  intro s es vl o m hrm hbc hud hts hpc hr
  refine exec_evexInstr_of_unhindered ?_ hpc fun i hi hen => ?_
  · exact .of_readable (memOperand_evexInstr hrm) hr trivial hud hts (x87Stops_evexInstr s es vl o)
  · rw [evexOperand_vector hrm hbc, getLsbD_elem_vector, getLsbD_assemble_vector m hbc hi hen]

/-- Settles O22: likewise, the second source of every enabled element being the bytes of the one element. -/
theorem evexOfBroadcast : Obligations.EvexOfBroadcast := by
  intro s es vl o m hrm hbc hud hts hpc hr
  refine exec_evexInstr_of_unhindered ?_ hpc fun i hi hen => ?_
  · exact .of_readable (memOperand_evexInstr hrm) hr trivial hud hts (x87Stops_evexInstr s es vl o)
  · rw [evexOperand_broadcast hrm hbc, getLsbD_elem_broadcast, getLsbD_assemble_broadcast m hbc hi hen]

/-- Settles O53: both forms make the same checks, read the same access and write VPAND's value of the same vector. -/
theorem unmaskedVpanddIsVpandq : Obligations.UnmaskedVpanddIsVpandq := by
  intro s vl o haaa hbc
  have hacc : evexAccess s o .e32 vl = evexAccess s o .e64 vl :=
    funext fun m => by rw [evexAccess_unmasked haaa hbc, evexAccess_unmasked haaa hbc]
  have hvalue : evexValue s .e32 vl o = evexValue s .e64 vl o := by
    cases hrm : o.rm with
    | reg r => rw [evexValue_unmasked haaa (evexOperand_reg hrm _ _), evexValue_unmasked haaa (evexOperand_reg hrm _ _)]
    | mem m =>
      rw [evexValue_unmasked haaa (evexOperand_vector hrm hbc _ _),
        evexValue_unmasked haaa (evexOperand_vector hrm hbc _ _), hacc]
  rw [exec_evexInstr, exec_evexInstr, evexAnd_eq, evexAnd_eq, hacc, hvalue]

end Sys2Proof.Machine
end

section
/-! Facts of the exception family (60_exceptions.md): the faults of an operand, which fault of a form comes from where,
the #UD conditions in the bits that decide them, and the check for a pending x87 exception. -/

namespace Sys2Proof.Machine

/-! ### Faults of a form (R181, R187) -/

/-- An operand's fault is one of those that R181 gives to a memory operand. -/
theorem vector_operandFault {s : State} {al : AlignRule} {a : Access} {x : Word64 → Fault}
    (h : operandFault s al a = some x) (pc : Word64) : (x pc).vector ∈ [12, 13, 14, 17] := by
  rcases operandFault_shape h with rfl | rfl | ⟨ec, lin, rfl⟩ | ⟨-, rfl⟩ <;> simp [Fault.vector]

theorem pc_operandFault {s : State} {al : AlignRule} {a : Access} {x : Word64 → Fault}
    (h : operandFault s al a = some x) (pc : Word64) : (x pc).pc = pc := by
  rcases operandFault_shape h with rfl | rfl | ⟨ec, lin, rfl⟩ | ⟨-, rfl⟩ <;> rfl

/-- An operand raises #SS only in SS or, in Mode64, under an ignored override (U6). -/
theorem seg_of_operandFault_ss {s : State} {al : AlignRule} {a : Access} {x : Word64 → Fault}
    (h : operandFault s al a = some x) {pc : Word64} (hv : (x pc).vector = 12) :
    a.seg = .ss ∨ (s.cfg.mode = .mode64 ∧ a.ignoredOverride = true) := by
  rcases operandFault_cases h with ⟨-, hs⟩ | ⟨-, -, -, rfl⟩ | ⟨-, ec, lin, -, rfl⟩ | ⟨-, -, -, -, -, rfl⟩
  · rcases segFault_cases hs with rfl | rfl
    · exact segFault_ss hs
    · cases hv
  · cases hv
  · cases hv
  · cases hv

/-- An operand raises #AC only under form 1's alignment rule (20_memory.md R55). -/
theorem alignRule_of_operandFault_ac {s : State} {al : AlignRule} {a : Access} {x : Word64 → Fault}
    (h : operandFault s al a = some x) {pc : Word64} (hv : (x pc).vector = 17) : al = .ac8 := by
  rcases operandFault_shape h with rfl | rfl | ⟨ec, lin, rfl⟩ | ⟨hal, -⟩
  · cases hv
  · cases hv
  · cases hv
  · exact hal

/-- Every exception a form raises reports the pc of the instruction (R188). -/
theorem pc_of_exec_fault {s : State} {i : Instr} {f : Fault} (h : exec i s = .fault f) : f.pc = s.pc := by
  rcases exec_fault h with ⟨-, rfl⟩ | ⟨-, -, rfl⟩ | ⟨-, -, -, -, rfl⟩ | ⟨-, -, -, al, a, x, -, hx, rfl⟩
  · rfl
  · rfl
  · rfl
  · exact pc_operandFault hx s.pc

/-- An exception of vector 12, 13, 14 or 17 is the fault of the form's memory operand. -/
theorem exists_operandFault_of_exec {s : State} {i : Instr} {f : Fault} (h : exec i s = .fault f)
    (hv : f.vector ∈ [12, 13, 14, 17]) :
    ∃ al a x, memOperand s i = some (al, a) ∧ operandFault s al a = some x ∧ f = x s.pc := by
  rcases exec_fault h with ⟨-, rfl⟩ | ⟨-, -, rfl⟩ | ⟨-, -, -, -, rfl⟩ | ⟨-, -, -, hop⟩
  · simp [Fault.vector] at hv
  · simp [Fault.vector] at hv
  · simp [Fault.vector] at hv
  · exact hop

/-- A form raises #UD exactly under its #UD condition. -/
theorem exec_eq_ud {s : State} {i : Instr} : exec i s = .fault (.ud s.pc) ↔ udCondition s i = true := by
  refine ⟨fun h => ?_, exec_of_udCondition⟩
  rcases exec_fault h with ⟨hud, -⟩ | ⟨-, -, hf⟩ | ⟨-, -, -, -, hf⟩ | ⟨-, -, -, al, a, x, -, hx, hf⟩
  · exact hud
  · cases hf
  · cases hf
  · have hv := vector_operandFault hx s.pc
    simp [← hf, Fault.vector] at hv

/-- A form without its #UD condition raises #NM exactly when CR0.TS = 1. -/
theorem exec_eq_nm {s : State} {i : Instr} (hud : udCondition s i = false) :
    exec i s = .fault (.nm s.pc) ↔ s.ts = true := by
  constructor
  · intro h
    rcases exec_fault h with ⟨-, hf⟩ | ⟨-, hts, -⟩ | ⟨-, -, -, -, hf⟩ | ⟨-, -, -, al, a, x, -, hx, hf⟩
    · cases hf
    · exact hts
    · cases hf
    · have hv := vector_operandFault hx s.pc
      simp [← hf, Fault.vector] at hv
  · intro hts
    rw [exec_eq, checkEnabled_eq_error.mpr (Or.inr ⟨hud, hts, rfl⟩)]
    rfl

/-- A form raises #MF only where a pending x87 exception stops it. -/
theorem x87Stops_of_exec_mf {s : State} {i : Instr} {f : Fault} (h : exec i s = .fault f) (hv : f.vector = 16) :
    x87Stops s i = true := by
  rcases exec_fault h with ⟨-, rfl⟩ | ⟨-, -, rfl⟩ | ⟨-, -, hst, -, -⟩ | ⟨-, -, -, al, a, x, -, hx, rfl⟩
  · cases hv
  · cases hv
  · exact hst
  · have hmem := vector_operandFault hx s.pc
    simp [hv] at hmem

/-- A pending x87 exception stops form 1 alone. -/
theorem pandMm_of_x87Stops {s : State} {i : Instr} (h : x87Stops s i = true) : ∃ o, i = .pandMm o := by
  cases i with
  | pandMm o => exact ⟨o, rfl⟩
  | _ => cases h

/-! ### #UD conditions, in the bits that decide them (R182 to R185) -/

/-- A field of a register is all ones when each of its bits is set. -/
theorem extractLsb'_eq_allOnes {x : Word64} {lo n : Nat} :
    x.extractLsb' lo n = BitVec.allOnes n ↔ ∀ j < n, x.getLsbD (lo + j) = true := by
  constructor
  · intro h j hj
    have hbit := congrArg (·.getLsbD j) h
    simpa [hj] using hbit
  · intro h
    refine BitVec.eq_of_getLsbD_eq fun j hj => ?_
    simp [hj, h j hj]

/-- A field of a register is other than all ones when one of its bits is 0. -/
theorem extractLsb'_ne_allOnes {x : Word64} {lo n : Nat} :
    x.extractLsb' lo n ≠ BitVec.allOnes n ↔ ∃ j < n, x.getLsbD (lo + j) = false := by
  simp [extractLsb'_eq_allOnes]

theorem xcr0SseAvx_ne {s : State} :
    s.xcr0SseAvx ≠ 3#2 ↔ s.xcr0.getLsbD 1 = false ∨ s.xcr0.getLsbD 2 = false := by
  have hne : s.xcr0SseAvx ≠ 3#2 ↔ ∃ j < 2, s.xcr0.getLsbD (1 + j) = false := extractLsb'_ne_allOnes
  simpa only [Nat.exists_lt_succ_right, Nat.not_lt_zero, false_and, exists_false, false_or] using hne

theorem xcr0Avx512_ne {s : State} :
    s.xcr0Avx512 ≠ 7#3 ↔
      s.xcr0.getLsbD 5 = false ∨ s.xcr0.getLsbD 6 = false ∨ s.xcr0.getLsbD 7 = false := by
  have hne : s.xcr0Avx512 ≠ 7#3 ↔ ∃ j < 3, s.xcr0.getLsbD (5 + j) = false := extractLsb'_ne_allOnes
  simpa only [Nat.exists_lt_succ_right, Nat.not_lt_zero, false_and, exists_false, false_or, or_assoc] using hne

theorem udMmx_iff {s : State} : udMmx s = true ↔ s.cr0.getLsbD 2 = true ∨ s.cfg.feat.mmx = false := by
  simp [udMmx, State.em]

theorem udSse2_iff {s : State} :
    udSse2 s = true ↔ s.cr0.getLsbD 2 = true ∨ s.cr4.getLsbD 9 = false ∨ s.cfg.feat.sse2 = false := by
  simp [udSse2, State.em, State.osfxsr, or_assoc]

theorem udVex_iff {s : State} {vl : VecLen} :
    udVex s vl = true ↔
      s.vexBarred = true ∨ s.cr4.getLsbD 18 = false ∨ s.xcr0SseAvx ≠ 3#2 ∨ vexFeature s.cfg.feat vl = false ∨
        s.cfg.maxvl.bits < vl.bits := by
  simp [udVex, State.osxsave, or_assoc]

theorem udEvex_iff {s : State} {vl : VecLen} :
    udEvex s vl = true ↔
      s.vexBarred = true ∨ s.cr4.getLsbD 18 = false ∨ s.xcr0Avx512 ≠ 7#3 ∨ s.xcr0SseAvx ≠ 3#2 ∨
        evexFeature s.cfg vl = false := by
  simp [udEvex, State.osxsave, or_assoc]

/-- AVX512F supplies a form, with AVX512VL below 512 bits. -/
theorem evexNative_iff {f : Features} {vl : VecLen} :
    evexNative f vl = true ↔ f.avx512f = true ∧ (vl = .v512 ∨ f.avx512vl = true) := by
  cases vl <;> simp [evexNative, and_comm]

/-- The feature condition of an EVEX form fails when neither side supplies it, or when it is longer than MAXVL. -/
theorem evexFeature_eq_false {c : Config} {vl : VecLen} :
    evexFeature c vl = false ↔
      ¬ ((c.feat.avx512f = true ∧ (vl = .v512 ∨ c.feat.avx512vl = true)) ∨
        (c.feat.avx10_1 = true ∧ vl.bits ≤ c.avx10Max.bits)) ∨ c.maxvl.bits < vl.bits := by
  rw [← evexNative_iff, ← Bool.not_eq_true, ← Nat.not_le, ← not_and_or]
  simp [evexFeature]

theorem violation_iff {o : EvexOp} :
    o.violation = true ↔ (o.z = true ∧ o.aaa = 0#3) ∨ (o.bc = true ∧ ∃ r, o.rm = .reg r) := by
  cases hrm : o.rm <;> simp [EvexOp.violation, Rm.isMem, hrm]

theorem vexFeature_vexLen (f : Features) (wide : Bool) :
    vexFeature f (vexLen wide) = if wide then f.avx2 else f.avx := by cases wide <;> rfl

theorem bits_vexLen (wide : Bool) : (vexLen wide).bits = if wide then 256 else 128 := by cases wide <;> rfl

/-! ### A pending x87 exception (R182, U4 a, U9) -/

/-- With CR0.NE = 0 the pending exception is the platform's to report, whatever the operand. -/
theorem x87Check_of_not_ne {s : State} (hes : s.fswEs = true) (hne : s.ne = false) (op : Option (Word64 → Fault)) :
    x87Check s op = .error (.refused .externalX87) := by
  simp [x87Check, hes, hne, refuse]

theorem x87Check_none {s : State} (hes : s.fswEs = true) (hne : s.ne = true) :
    x87Check s none = .error (.fault (.mf s.pc)) := by
  simp [x87Check, hes, hne, raise]

/-- With a fault of the operand as well, either of the two is raised. -/
theorem x87Check_some {s : State} (hes : s.fswEs = true) (hne : s.ne = true) (x : Word64 → Fault) :
    x87Check s (some x) = .error (.fault (.mf s.pc)) ∨ x87Check s (some x) = .error (.fault (x s.pc)) := by
  cases hfree : Config.freeMfFirst s.draws
  · exact Or.inr (by simp [x87Check, hes, hne, hfree, raise])
  · exact Or.inl (by simp [x87Check, hes, hne, hfree, raise])

/-- The fault of an instruction's memory operand, if it has an operand in memory and that one a fault. -/
def instrFault (s : State) (i : Instr) : Option (Word64 → Fault) :=
  (memOperand s i).bind fun p => operandFault s p.1 p.2

theorem instrFault_of_reg {i : Instr} {r : BitVec 3} (s : State) (h : rmField i = .reg r) : instrFault s i = none := by
  rw [instrFault, memOperand_of_reg s h, Option.bind_none]

theorem instrFault_of_memOperand {s : State} {i : Instr} {al : AlignRule} {a : Access}
    (h : memOperand s i = some (al, a)) : instrFault s i = operandFault s al a := by
  rw [instrFault, h, Option.bind_some]

/-- An enabled form that a pending x87 exception stops ends as the check for it does. -/
theorem exec_of_x87Check {s : State} {i : Instr} (hud : udCondition s i = false) (hts : s.ts = false)
    (hst : x87Stops s i = true) {e : Stop} (he : x87Check s (instrFault s i) = .error e) :
    exec i s = finish (.error e) := by
  have hpend : pendingCheck s i = .error e := by rwa [pendingCheck, if_pos hst]
  rw [exec_eq, checkEnabled_eq_ok.mpr ⟨hud, hts⟩, hpend]
  rfl

/-! ### Another privilege level (R192) -/

/-- Every form does at another CPL what it did before, where the translation and the condition of #AC agree. -/
theorem exec_withCpl {s : State} {c : BitVec 2} (i : Instr)
    (hx : ∀ lin, translateAddr { s with cpl := c } lin = translateAddr s lin)
    (hac : ({ s with cpl := c } : State).alignCheck = s.alignCheck) :
    exec i { s with cpl := c } = mapNext (·.withPriv s.eflags s.mxcsr c) (exec i s) :=
  exec_withPriv (s := s) (e := s.eflags) (x := s.mxcsr) hx rfl hac i

end Sys2Proof.Machine
end

section
/-! The statements of the family of 60_exceptions.md. -/

namespace Sys2Proof.Machine

/-- Settles O31, by the #UD condition of form 1. -/
theorem invalidOpcodeOfForm1 : Obligations.InvalidOpcodeOfForm1 :=
  fun _ _ => exec_eq_ud.trans udMmx_iff

/-- Settles O32, by the #UD condition of form 2. -/
theorem invalidOpcodeOfForm2 : Obligations.InvalidOpcodeOfForm2 :=
  fun _ _ => exec_eq_ud.trans udSse2_iff

/-- Settles O33: both encodings have the #UD condition of their length. -/
theorem invalidOpcodeOfVex : Obligations.InvalidOpcodeOfVex := by
  intro s wide i hi
  have hud : udCondition s i = udVex s (vexLen wide) := by
    rcases hi with ⟨o, rfl⟩ | ⟨o, rfl⟩
    · exact udCondition_vex2Instr s wide o
    · exact udCondition_vex3Instr s wide o
  rw [exec_eq_ud, hud, udVex_iff, vexBarred_iff, xcr0SseAvx_ne, vexFeature_vexLen, bits_vexLen]
  simp only [or_assoc]

/-- Settles O34: the #UD condition of the length, and the two violations that the fields can spell. -/
theorem invalidOpcodeOfEvex : Obligations.InvalidOpcodeOfEvex := by
  intro s es vl o
  rw [exec_eq_ud, udCondition_evexInstr, Bool.or_eq_true, udEvex_iff, violation_iff, vexBarred_iff, xcr0Avx512_ne,
    xcr0SseAvx_ne, evexFeature_eq_false]
  simp only [or_assoc]

/-- Settles O35: #NM is the second of the checks that enable a form. -/
theorem deviceNotAvailable : Obligations.DeviceNotAvailable :=
  fun _ _ h => exec_eq_nm (Bool.eq_false_iff.mpr fun hud => h (exec_eq_ud.mpr hud))

/-- Settles O36: form 1 ends as the check for a pending x87 exception does, and no other form makes that check. -/
theorem pendingX87Exception : Obligations.PendingX87Exception := by
  intro s
  refine ⟨fun o hud hts hes => ⟨fun hne => ?_, fun hne => ⟨fun hnone => ?_, fun m x hrm hx => ?_⟩⟩, fun i pc hi h => ?_⟩
  · exact exec_of_x87Check hud hts hes (x87Check_of_not_ne hes hne _)
  · have hop : instrFault s (.pandMm o) = none := by
      cases hrm : o.rm with
      | reg r => exact instrFault_of_reg s hrm
      | mem m => rw [instrFault_of_memOperand (memOperand_pandMm hrm), hnone m hrm]
    exact exec_of_x87Check hud hts hes (hop ▸ x87Check_none hes hne)
  · have hcheck := x87Check_some hes hne x
    rw [← hx, ← instrFault_of_memOperand (memOperand_pandMm hrm)] at hcheck
    exact hcheck.imp (exec_of_x87Check hud hts hes) (exec_of_x87Check hud hts hes)
  · obtain ⟨o, rfl⟩ := pandMm_of_x87Stops (x87Stops_of_exec_mf h rfl)
    exact hi o rfl

/-- Settles O37: a fault of vector 12, 13, 14 or 17 is the operand's, #SS of its segment and #AC of form 1's alignment
rule; #MF is form 1's; the rest is R181's table. -/
theorem exceptionTable : Obligations.ExceptionTable := by
  intro s i f h
  refine ⟨pc_of_exec_fault h, by cases f <;> rfl, by cases f <;> rfl, fun hv => ?_, fun hv => ?_, fun hv => ?_,
    by cases f <;> rfl, atFault_eq s f⟩
  · obtain ⟨al, a, -, hop, -, -⟩ := exists_operandFault_of_exec h hv
    simp [hop]
  · obtain ⟨al, a, x, hop, hx, rfl⟩ := exists_operandFault_of_exec h (by simp [hv])
    refine ⟨al, a, hop, ?_⟩
    simpa [Access.ignoredOverride, and_assoc] using seg_of_operandFault_ss hx hv
  · rw [List.mem_pair] at hv
    rcases hv with h16 | h17
    · exact pandMm_of_x87Stops (x87Stops_of_exec_mf h h16)
    · obtain ⟨al, a, x, hop, hx, rfl⟩ := exists_operandFault_of_exec h (by simp [h17])
      obtain rfl := alignRule_of_operandFault_ac hx h17
      exact memOperand_ac8 hop

/-- Settles O38: a faulting step is a faulting form, or met bytes that fault at the same pc. -/
theorem faultsArePrecise : Obligations.FaultsArePrecise := by
  intro s f h
  refine ⟨?_, fun t ht => ?_, atFault_eq s f⟩
  · rcases step_fault h with ⟨i, -, -, he⟩ | ⟨-, -, rfl⟩ | ⟨-, rfl⟩
    · exact pc_of_exec_fault he
    · rfl
    · rfl
  · rw [h] at ht
    cases ht

/-- Settles O46: the outcome at the other level is the same but for the CPL of the next state. -/
theorem privilegeLevelDoesNotMatter : Obligations.PrivilegeLevelDoesNotMatter := by
  intro s i c hx hac
  have he := exec_withCpl i hx hac
  refine ⟨fun t h => ?_, fun f h => by rw [he, h]; rfl, fun r h => by rw [he, h]; rfl⟩
  have hf := exec_frame h
  refine ⟨?_, by rw [hf], by rw [hf]⟩
  calc exec i { s with cpl := c } = .next (t.withPriv s.eflags s.mxcsr c) := by rw [he, h]; rfl
    _ = .next { t with cpl := c } := by rw [hf]; rfl

end Sys2Proof.Machine
end

section
/-! Facts of the loading of an instruction (20_memory.md R62, 30_encoding.md R103): with paging off in Mode64, bytes
placed where the next fetch reads are fetched back, and memory elsewhere keeps its bytes. -/

namespace Sys2Proof.Machine

/-! ### Where a fetch reads in Mode64 (10_state.md R27, R35) -/

theorem fetchLinear_mode64 {s : State} (hm : s.cfg.mode = .mode64) (k : Nat) :
    fetchLinear s k = s.pc + BitVec.ofNat 64 k := by
  simp [fetchLinear, linear, hm]

theorem fetchAllowed_mode64 {s : State} (hm : s.cfg.mode = .mode64) (k : Nat) :
    fetchAllowed s k = canonical s.cfg.vaBits (s.pc + BitVec.ofNat 64 k) := by
  rw [fetchAllowed, hm, fetchLinear_mode64 hm]

/-- The sum wraps at 2^64, so fewer than 2^64 bytes are fetched from addresses all different. -/
theorem fetchLinear_inj {s : State} (hm : s.cfg.mode = .mode64) {j k : Nat} (hj : j < 2 ^ 64) (hk : k < 2 ^ 64)
    (h : (fetchLinear s j).toNat = (fetchLinear s k).toNat) : j = k := by
  rw [BitVec.toNat_inj, fetchLinear_mode64 hm, fetchLinear_mode64 hm, BitVec.add_right_inj] at h
  rwa [← BitVec.toNat_inj, BitVec.toNat_ofNat, BitVec.toNat_ofNat, Nat.mod_eq_of_lt hj, Nat.mod_eq_of_lt hk] at h

theorem fetchByte_of_allowed {s : State} (hpg : s.pg = false) {k : Nat} (h : fetchAllowed s k = true) :
    fetchByte s k = some (Memory.read s.mem (fetchLinear s k).toNat) := by
  rw [fetchByte, if_pos h, translateAddr_of_not_pg hpg]

/-- When every byte can be fetched, the bytes are those in order. -/
theorem fetchFrom_eq_map {s : State} {f : Nat → Byte} : ∀ {n k : Nat},
    (∀ j, k ≤ j → j < k + n → fetchByte s j = some (f j)) → fetchFrom s n k = (List.range' k n).map f
  | 0, _, _ => rfl
  | n + 1, k, h => by
    have hrest : fetchFrom s n (k + 1) = (List.range' (k + 1) n).map f :=
      fetchFrom_eq_map fun j hj hlt => h j (by omega) (by omega)
    rw [fetchFrom, h k (Nat.le_refl k) (by omega), hrest]
    rfl

theorem fetchBytes_eq_map {s : State} {f : Nat → Byte} (h : ∀ k < maxLen, fetchByte s k = some (f k)) :
    fetchBytes s = (List.range maxLen).map f := by
  rw [fetchBytes, fetchFrom_eq_map fun j _ hlt => h j (by omega), List.range_eq_range']

/-! ### What placing bytes writes -/

section
variable {s : State} (hpg : s.pg = false) (hw : Memory.wf s.mem = true)
include hpg hw

theorem read_placeBytes_succ (f : Nat → Byte) (n a : Nat) :
    Memory.read (placeBytes s f (n + 1)) a =
      if a = (fetchLinear s n).toNat then f n else Memory.read (placeBytes s f n) a := by
  rw [placeBytes_succ hpg, Memory.read_write_wf _ _ _ (wf_placeBytes hw f n)]

/-- A byte at none of the addresses written stays. -/
theorem read_placeBytes_of_ne (f : Nat → Byte) {a : Nat} :
    ∀ {n : Nat}, (∀ k < n, a ≠ (fetchLinear s k).toNat) → Memory.read (placeBytes s f n) a = Memory.read s.mem a
  | 0, _ => rfl
  | n + 1, h => by
    rw [read_placeBytes_succ hpg hw, if_neg (h n (Nat.lt_succ_self n))]
    exact read_placeBytes_of_ne f fun k hk => h k (Nat.lt_succ_of_lt hk)

/-- Each byte placed stands where it was placed: no later one is written over it. -/
theorem read_placeBytes_fetchLinear (hm : s.cfg.mode = .mode64) (f : Nat → Byte) {k : Nat} :
    ∀ {n : Nat}, n ≤ 2 ^ 64 → k < n → Memory.read (placeBytes s f n) (fetchLinear s k).toNat = f k
  | n + 1, hn, hk => by
    rw [read_placeBytes_succ hpg hw]
    split
    · rename_i heq
      rw [fetchLinear_inj hm (by omega) (by omega) heq]
    · rename_i hne
      have hkn : k ≠ n := fun h => hne (h ▸ rfl)
      exact read_placeBytes_fetchLinear hm f (by omega) (by omega)

end

/-! ### A table word placed and fetched back -/

/-- The instruction a table word decodes to is the one its bytes spell in Mode64. -/
theorem decodeTableWord_eq_some {nbits w : Nat} {i : Instr} :
    decodeTableWord nbits w = some i ↔ ∃ rest, decode .mode64 (wordBytes nbits w maxLen) = .instr i rest := by
  unfold decodeTableWord
  cases decode .mode64 (wordBytes nbits w maxLen) <;> simp

/-- `s` in the mode table words are read in: the state whose next fetch `withFetchWord` places the word for. -/
def State.inMode64 (s : State) : State := { s with cfg := { s.cfg with mode := .mode64 } }

theorem withFetchWord_eq (s : State) (nbits w : Nat) :
    s.withFetchWord nbits w = { s.inMode64 with mem := placeBytes s.inMode64 (wordByte nbits w) maxLen } := rfl

/-- Where the processor fetches does not depend on what memory holds. -/
theorem fetchLinear_withFetchWord (s : State) (nbits w k : Nat) :
    fetchLinear (s.withFetchWord nbits w) k = fetchLinear s.inMode64 k := rfl

/-- With paging off and its addresses canonical, a placed table word is what the next step fetches. -/
theorem fetchBytes_withFetchWord {s : State} (hpg : s.pg = false) (hw : Memory.wf s.mem = true)
    (hcan : ∀ k < maxLen, canonical s.cfg.vaBits (s.pc + BitVec.ofNat 64 k) = true) (nbits w : Nat) :
    fetchBytes (s.withFetchWord nbits w) = wordBytes nbits w maxLen := by
  refine fetchBytes_eq_map fun k hk => ?_
  have hallowed : fetchAllowed (s.withFetchWord nbits w) k = true := (fetchAllowed_mode64 rfl k).trans (hcan k hk)
  rw [fetchByte_of_allowed (s := s.withFetchWord nbits w) hpg hallowed, fetchLinear_withFetchWord, withFetchWord_eq,
    read_placeBytes_fetchLinear (s := s.inMode64) hpg hw rfl _ (by decide) hk]

/-- Placing a table word leaves every byte off the addresses of the next fetch. -/
theorem read_withFetchWord_of_ne {s : State} (hpg : s.pg = false) (hw : Memory.wf s.mem = true) (nbits w : Nat)
    {a : Nat} (ha : ∀ k < maxLen, a ≠ (s.pc + BitVec.ofNat 64 k).toNat) :
    Memory.read (s.withFetchWord nbits w).mem a = Memory.read s.mem a := by
  refine read_placeBytes_of_ne (s := s.inMode64) hpg hw _ fun k hk => ?_
  rw [fetchLinear_mode64 rfl]
  exact ha k hk

end Sys2Proof.Machine
end

section
/-! The statement of the family of 70_reset_and_hazards.md. -/

namespace Sys2Proof.Machine

/-- Settles O12: the step fetches back the bytes that were placed, and these spell the table word's instruction. -/
theorem placedWordIsRunNext : Obligations.PlacedWordIsRunNext := by
  intro s nbits w i hpg hw hcan hi
  obtain ⟨rest, hdec⟩ := decodeTableWord_eq_some.mp hi
  obtain ⟨hruns, -⟩ := stepRunsDecodedInstruction (s.withFetchWord nbits w)
  refine ⟨hruns i rest ?_, rfl, fun a ha => read_withFetchWord_of_ne hpg hw nbits w ha⟩
  rw [fetchBytes_withFetchWord hpg hw hcan]
  exact hdec

end Sys2Proof.Machine
end
